-- ==== Sys2Proof/Word.lean ====
section
/-! DEFINITION. The word types of the LZW-Huffman codec core: an 8-bit element of TEXT and PACKED
(10_state.md R20) and a 32-bit register of the CSR space, which is also the width of a command word
(10_state.md R35, 30_encoding.md R80). -/

namespace Sys2Proof

/-- One element of TEXT or PACKED (10_state.md R21, R23). -/
abbrev Byte := BitVec 8

/-- One CSR, and one command word (10_state.md R35, 30_encoding.md R80). -/
abbrev Word := BitVec 32

end Sys2Proof
end

