-- ==== Sys2Proof/Syntax.lean ====
section
/-! DEFINITION. The commands of the core, one constructor for each row of spec/opcode_table.json
(30_encoding.md R82). A command word has no operand field (R81), so no constructor has an argument. -/

namespace Sys2Proof

/-- The eight commands (30_encoding.md R82). -/
inductive Instr
  /-- Return all state to its reset value (43_system.md R160). -/
  | clr
  /-- TEXT -> CODE, LZW encode (40_lzw.md R101). -/
  | lzwe
  /-- CODE -> TEXT, LZW decode (40_lzw.md R104). -/
  | lzwd
  /-- CODE -> FREQ, TREE (41_huffman.md R120). -/
  | hbld
  /-- TREE -> TABLE (41_huffman.md R126). -/
  | hgen
  /-- CODE, TABLE -> PACKED, BITLEN (42_bitpack.md R140). -/
  | pack
  /-- PACKED (all bits), TABLE -> CODE (42_bitpack.md R142). -/
  | unpk
  /-- PACKED (first BITLEN bits), TABLE -> CODE (42_bitpack.md R143). -/
  | unpkl
deriving DecidableEq, Repr

end Sys2Proof
end

