-- ==== Sys2Proof/Decode.lean ====
section
/-! DEFINITION. The command word (30_encoding.md R80 to R85): decoding, total on every 32-bit word and
rejecting by name, and encoding. -/

namespace Sys2Proof

/-- Why a word is no command (30_encoding.md R83). -/
inductive DecodeError
  /-- `word[31:8] != 0`. -/
  | nonzeroZeroField
  /-- `word[31:8] = 0` and `word[7:0]` in `0x08 .. 0xFF`. -/
  | reservedOpcode
deriving DecidableEq, Repr

/-- Field `OP`, bits 7:0 (30_encoding.md R80). -/
def opField (w : Word) : BitVec 8 := w.extractLsb' 0 8

/-- Field `ZERO`, bits 31:8 (30_encoding.md R80). -/
def zeroField (w : Word) : BitVec 24 := w.extractLsb' 8 24

/-- The command an opcode selects (30_encoding.md R82); every other opcode is reserved (R83, R84). -/
def decodeOp (op : BitVec 8) : Except DecodeError Instr :=
  match op.toNat with
  | 0x00 => .ok .clr
  | 0x01 => .ok .lzwe
  | 0x02 => .ok .lzwd
  | 0x03 => .ok .hbld
  | 0x04 => .ok .hgen
  | 0x05 => .ok .pack
  | 0x06 => .ok .unpk
  | 0x07 => .ok .unpkl
  | _ => .error .reservedOpcode

/-- The command a word selects: `ZERO` must be 0 (30_encoding.md R80, R82, R83). -/
def decode (w : Word) : Except DecodeError Instr :=
  if zeroField w = 0 then decodeOp (opField w) else .error .nonzeroZeroField

/-- Column `OP` of the command table (30_encoding.md R82). -/
def opcode : Instr → BitVec 8
  | .clr => 0x00
  | .lzwe => 0x01
  | .lzwd => 0x02
  | .hbld => 0x03
  | .hgen => 0x04
  | .pack => 0x05
  | .unpk => 0x06
  | .unpkl => 0x07

/-- The word of a command: `OP` in bits 7:0, zeros above (30_encoding.md R80). -/
def encode (i : Instr) : Word := (0#24) ++ (opcode i)

/-- The command the decoder reads from a table row's bits: bit 0 of `w` is bit 0 of the command word, and
the bits above `nbits` are 0. A value that does not fit one 32-bit word is no command word (30_encoding.md
R85). -/
def decodeTableWord (nbits w : Nat) : Option Instr :=
  if w % 2 ^ nbits < 2 ^ 32 then
    match decode (BitVec.ofNat 32 (w % 2 ^ nbits)) with
    | .ok i => some i
    | .error _ => none
  else none

end Sys2Proof
end

