-- ==== Sys2Proof/Config.lean ====
section
/-! DEFINITION. What an implementation fixes (the parameters of 00_scope.md R6 to R8 and the sizes R9
derives from them) and the free values, which the spec leaves open (93_implementation_defined.md U9 to
U12). The parameters are data that State carries, so a statement about every state holds for every
choice of them (log entry 1). -/

namespace Sys2Proof

/-- The parameters of 00_scope.md R6, R7, R8. Their values are `OPEN`. -/
structure Params where
  codeW     : Nat
  textCap   : Nat
  codeCap   : Nat
  packedCap : Nat
  maxLen    : Nat
deriving DecidableEq, Repr

/-- The values the spec's test vectors use (00_scope.md R6 to R8). DESIGN CHOICE, log entry 1. -/
def Params.vectors : Params :=
  { codeW := 16, textCap := 65536, codeCap := 65536, packedCap := 65536, maxLen := 64 }

/-- The least `w` with `2^w > n`. -/
def leastWidth (n : Nat) : Nat := if n = 0 then 0 else Nat.log2 n + 1

/-- `NSYM_MAX` (00_scope.md R9). -/
def Params.nsymMax (p : Params) : Nat := min p.codeCap (2 ^ p.codeW)

/-- `NODE_CAP` (00_scope.md R9). -/
def Params.nodeCap (p : Params) : Nat := 2 * p.nsymMax - 1

/-- `CNT_W`: the least `w` with `2^w > CODE_CAP` (00_scope.md R9). -/
def Params.cntW (p : Params) : Nat := leastWidth p.codeCap

/-- `NEXT_W` (00_scope.md R9). -/
def Params.nextW (p : Params) : Nat := p.codeW + 1

/-- `LEN_W`: the least `w` with `2^w > MAXLEN` (00_scope.md R9). -/
def Params.lenW (p : Params) : Nat := leastWidth p.maxLen

/-- `IDX_W`: the least `w` with `2^w >= NODE_CAP` (00_scope.md R9). -/
def Params.idxW (p : Params) : Nat := leastWidth (p.nodeCap - 1)

namespace Config

/-- A free value: any number. The argument is the count of values drawn before it. Used for buffer
elements without a defined value and for host reads the spec calls unspecified (U9, U10, U12). -/
opaque freeNat : Nat → Nat

/-- A free byte string, for `W_E`, `W_D` after a fault of their command (60_exceptions.md R173, U11). -/
opaque freeString : Nat → List Byte

/-- A free bitstring, for `CAND` after a fault of its command (60_exceptions.md R173, U11). -/
opaque freeBits : Nat → List Bool

/-- A free encode-side dictionary (60_exceptions.md R173, U11). -/
opaque freeDictE : Nat → List (List Byte × Nat)

/-- A free decode-side dictionary (60_exceptions.md R173, U11). -/
opaque freeDictD : Nat → List (Nat × List Byte)

/-- A free list of (code, LEN, BITS), from which TABLE after a faulting `HGEN` is filled
(60_exceptions.md R173, U11). -/
opaque freeEntries : Nat → List (Nat × Nat × Nat)

end Config

end Sys2Proof
end

