-- ==== Sys2Proof/Machine/State.lean ====
section
/-! DEFINITION. The state of the core (10_state.md R20 and the rules it points to), the host's pending
accesses, the reasons a step can end without a next state, and the state after reset (R47). -/

namespace Sys2Proof.Machine

/-- The element-indexed spaces, numbers 0 to 6 (10_state.md R20). -/
inductive Space
  | csr | text | code | packed | table | freq | tree
deriving DecidableEq, Repr

/-- One act of the host on the core: the accesses of 43_system.md R161, R162, and the reset input of
70_reset_and_hazards.md R190. A value is the element's value as one number (20_memory.md R62, R64). -/
inductive HostEvent
  | read (sp : Space) (i : Nat)
  | write (sp : Space) (i v : Nat)
  | reset
deriving DecidableEq, Repr

/-- The contents of `STATUS.CAUSE` (60_exceptions.md R171); codes 9 to 15 are never set. -/
inductive Cause
  | none | illegalCmd | dictFull | outOverflow | badFirstCode | tableMiss | tableMulti | codeTooLong
  | bitlenRange
deriving DecidableEq, Repr

/-- `csr[STATUS]` by its fields (10_state.md R37); the host cannot write it, and its reserved bits read
0, so they need no storage. -/
structure Status where
  busy   : Bool
  done   : Bool
  fault  : Bool
  resid  : Bool
  desync : Bool
  cause  : Cause
  lastop : BitVec 8
deriving DecidableEq, Repr

/-- A TABLE entry `{LEN, BITS}` (10_state.md R33, 30_encoding.md R88). `LEN = 0`: absent. -/
structure Entry where
  len  : Nat
  bits : Nat
deriving DecidableEq, Repr

/-- A TREE node record (10_state.md R34, 30_encoding.md R92). `KIND = 0` is `leaf`, whose LEFT and RIGHT
are 0; `KIND = 1` is `internal`, whose SYM is 0. -/
inductive Node
  | leaf (weight sym : Nat)
  | internal (weight left right : Nat)
deriving DecidableEq, Repr

/-- The elements of one space that hold a value, by index. What an index not listed reads as is the
space's own: absent in TABLE, 0 in FREQ (10_state.md R47), no defined value in TEXT, CODE and PACKED
(R24). With bytes as values this is a list of `Host.Cell`. -/
abbrev Memory (α : Type) := List (Nat × α)

/-- The one form of a memory: indices strictly rising. -/
abbrev Memory.wf {α : Type} (m : Memory α) : Prop := List.Pairwise (fun a b => a.1 < b.1) m

/-- `DICT_E`, the map from byte strings to codes, oldest entry first (10_state.md R30). -/
abbrev DictE := List (List Byte × Nat)

/-- `init_E` (40_lzw.md R100, 30_encoding.md R86). -/
def initE : DictE := (List.range 256).map fun b => ([BitVec.ofNat 8 b], b)

/-- `init_D` (40_lzw.md R100, 30_encoding.md R86). -/
def initD : Memory (List Byte) := (List.range 256).map fun b => (b, [BitVec.ofNat 8 b])

/-- Everything the spec gives the machine (10_state.md R20), and three fields of the model's own. -/
structure State where
  /-- `CFG_*`, CSR 12 to 16 (10_state.md R43). No step changes it. -/
  cfg : Params
  /-- CSR 1 (10_state.md R37). -/
  status : Status
  /-- CSR 2 (10_state.md R38). -/
  finfo : Word
  /-- CSR 3 (10_state.md R39). -/
  textLen : Word
  /-- CSR 4 (10_state.md R39). -/
  codeLen : Word
  /-- CSR 5 (10_state.md R39). -/
  packedLen : Word
  /-- CSR 6 (10_state.md R40). -/
  bitLen : Word
  /-- Space 1: the elements with a defined value (10_state.md R21, R24). -/
  text : Memory Byte
  /-- Space 2: the elements with a defined value (10_state.md R22, R24). -/
  code : Memory Nat
  /-- Space 3: the elements with a defined value (10_state.md R23, R24). -/
  packed : Memory Byte
  /-- Space 4: the present entries (10_state.md R33). -/
  table : Memory Entry
  /-- Space 5: the counts that are not 0 (10_state.md R32). -/
  freq : Memory Nat
  /-- Space 6: the node records in use, `NODE[0]` first (10_state.md R34). -/
  nodes : List Node
  /-- CSR 8 (10_state.md R41). -/
  nodeCount : Nat
  /-- CSR 9 (10_state.md R41). -/
  root : Nat
  /-- The encode-side dictionary (10_state.md R30). -/
  dictE : DictE
  /-- `NEXT_E`, seen as CSR 10 (10_state.md R25, R42). -/
  nextE : Nat
  /-- `W_E` (10_state.md R25). -/
  wE : List Byte
  /-- The decode-side dictionary (10_state.md R31). -/
  dictD : Memory (List Byte)
  /-- `NEXT_D`, seen as CSR 11 (10_state.md R25, R42). -/
  nextD : Nat
  /-- `W_D` (10_state.md R25). -/
  wD : List Byte
  /-- `CAND`, first bit first (10_state.md R25). -/
  cand : List Bool
  /-- The host's accesses still to come, the next one first. The model's own (log entry 2). -/
  script : List HostEvent
  /-- The element value the host's latest read returned. The model's own (log entry 6). -/
  hostSaw : Option Nat
  /-- How many free values have been drawn. The model's own (log entry 5). -/
  drawn : Nat
deriving DecidableEq, Repr

/-- `STATUS = 0` (10_state.md R47). -/
def Status.reset : Status :=
  { busy := false, done := false, fault := false, resid := false, desync := false, cause := .none,
    lastop := 0 }

/-- The reset values of 10_state.md R47 on a core with parameters `p`. -/
def State.resetWith (p : Params) : State :=
  { cfg := p, status := Status.reset, finfo := 0
    textLen := 0, codeLen := 0, packedLen := 0, bitLen := 0
    text := [], code := [], packed := [], table := [], freq := []
    nodes := [], nodeCount := 0, root := 0
    dictE := initE, nextE := 256, wE := [], dictD := initD, nextD := 256, wD := [], cand := []
    script := [], hostSaw := none, drawn := 0 }

/-- The machine right after reset (10_state.md R47), with the parameters of the spec's vectors (log
entry 1), nothing loaded and no host access pending (log entry 2). -/
def State.reset : State := State.resetWith Params.vectors

/-- The reasons a step stops with no next state. The spec's own faults (60_exceptions.md R171) are not
here: taking one is a next state (R173). -/
inductive Fault
  /-- Raised by `HGEN` in a state whose TREE is no tree: a child index that is not below its parent's, or
  a record below `NODE_COUNT` that is not there. 10_state.md R34 says every tree `HGEN` reads is well
  formed or empty, so no run reaches it. Safe: the model stops (log entry 8). -/
  | treeIllFormed
deriving DecidableEq, Repr

/-- The reasons the model gives an act no meaning. -/
inductive Refusal
  /-- Raised by exec's arm of a command without a meaning. Safe: the model stops. -/
  | notModelled (mnemonic : String)
  /-- Raised by a host access other than a read of `STATUS` while `STATUS.BUSY = 1`, which
  70_reset_and_hazards.md R194 refuses. Safe: the model stops (log entry 7). -/
  | accessWhileBusy
deriving DecidableEq, Repr

end Sys2Proof.Machine
end

