-- ==== Sys2Proof/Machine/Ops.lean ====
section
/-! DEFINITION. The operations the commands and the host accesses share: reading and writing a space,
the loop over a source, accepting and completing a command, taking a fault (60_exceptions.md R173) and
returning from the faulted state (R175). -/

namespace Sys2Proof.Machine

/-- What a step, a command or an access answers. -/
abbrev Result := Host.Outcome State Fault Refusal

/-- One thing after another: `f` goes on from the next state, and a stop stays a stop. -/
def andThen (r : Result) (f : State → Result) : Result :=
  match r with
  | .next s => f s
  | .fault e => .fault e
  | .refused e => .refused e

/-! ## Spaces -/

/-- The value at index `i`, if the memory lists one. -/
def Memory.get? {α : Type} : Memory α → Nat → Option α
  | [], _ => none
  | (j, v) :: m, i => if j = i then some v else Memory.get? m i

/-- `X[i] <- v`. -/
def Memory.set {α : Type} : Memory α → Nat → α → Memory α
  | [], i, v => [(i, v)]
  | (j, u) :: m, i, v =>
    if i < j then (i, v) :: (j, u) :: m
    else if i = j then (i, v) :: m
    else (j, u) :: Memory.set m i v

/-- Make index `i` hold what an unlisted index reads as. -/
def Memory.erase {α : Type} : Memory α → Nat → Memory α
  | [], _ => []
  | (j, u) :: m, i => if j = i then m else (j, u) :: Memory.erase m i

/-- `X[j] <- out[j] for j in 0 .. len(out)-1`, and every other element without a defined value
(10_state.md R24). -/
def Memory.ofList {α : Type} (l : List α) : Memory α := (l.zipIdx).map fun x => (x.2, x.1)

/-- `TABLE[c]`: an entry that is not listed is absent (10_state.md R33, R47). -/
def tableAt (t : Memory Entry) (c : Nat) : Entry := (t.get? c).getD { len := 0, bits := 0 }

/-- `TABLE[c] <- e`: an absent entry is not listed. -/
def tableSet (t : Memory Entry) (c : Nat) (e : Entry) : Memory Entry :=
  if e.len = 0 then t.erase c else t.set c e

/-- The number of codes with `LEN >= 1` (10_state.md R41). -/
def tableCount (t : Memory Entry) : Nat := t.countP fun x => decide (1 ≤ x.2.len)

/-- `FREQ[c]`: a count that is not listed is 0 (10_state.md R32). -/
def freqAt (f : Memory Nat) (c : Nat) : Nat := (f.get? c).getD 0

/-- The code under which `DICT_E` holds the string `w`, if it is a key (00_scope.md R12). -/
def dictCode : DictE → List Byte → Option Nat
  | [], _ => none
  | (k, c) :: d, w => if k = w then some c else dictCode d w

/-! ## The loop over a source -/

/-- What `raise CAUSE(info)` names (00_scope.md R13). -/
structure Raise where
  cause : Cause
  info  : Nat
deriving DecidableEq, Repr

/-- `for i in i0 ..` over a source, in order, ended at once by the first `raise` (00_scope.md R13, R14). -/
def forEach {α σ : Type} (body : Nat → α → σ → Except Raise σ) : Nat → List α → σ → Except Raise σ
  | _, [], r => .ok r
  | i, x :: xs, r =>
    match body i x r with
    | .error e => .error e
    | .ok r' => forEach body (i + 1) xs r'

/-! ## Free values -/

/-- Go past `n` free values (log entry 5). -/
def State.draw (s : State) (n : Nat) : State := { s with drawn := s.drawn + n }

/-- A free value of `w` bits. -/
def freeBelow (w d : Nat) : Nat := Config.freeNat d % 2 ^ w

/-- The elements `0 .. n-1` of a source. An element with no defined value reads as a free value
(10_state.md R24; log entry 3), drawn with number `d` plus its index. -/
def sourceOf {α : Type} (free : Nat → α) (m : Memory α) (n d : Nat) : List α :=
  (List.range n).map fun i => (m.get? i).getD (free (d + i))

/-- The logical content of TEXT (10_state.md R21). -/
def State.textSource (s : State) : List Byte :=
  sourceOf (fun k => BitVec.ofNat 8 (freeBelow 8 k)) s.text s.textLen.toNat s.drawn

/-- The logical content of CODE (10_state.md R22). -/
def State.codeSource (s : State) : List Nat :=
  sourceOf (freeBelow s.cfg.codeW) s.code s.codeLen.toNat s.drawn

/-- The logical content of PACKED (10_state.md R23). -/
def State.packedSource (s : State) : List Byte :=
  sourceOf (fun k => BitVec.ofNat 8 (freeBelow 8 k)) s.packed s.packedLen.toNat s.drawn

/-! ## A command's start and end -/

/-- Acceptance of a command word: `BUSY <- 1`, `DONE <- 0`, `LASTOP <- word[7:0]` (10_state.md R29, R37). -/
def accept (op : BitVec 8) (s : State) : State :=
  { s with status := { s.status with busy := true, done := false, lastop := op } }

/-- Completion without fault: `DONE <- 1`, `BUSY <- 0` (10_state.md R29). -/
def complete (s : State) : State :=
  { s with status := { s.status with busy := false, done := true } }

/-- Fault entry, the part that is the same for every cause (60_exceptions.md R173): `FAULT <- 1`,
`CAUSE <- code`, `FINFO <- info` (its low 32 bits, 10_state.md R38), `DONE <- 0`, `BUSY <- 0`. -/
def raise (r : Raise) (s : State) : State :=
  { s with
    status := { s.status with fault := true, cause := r.cause, done := false, busy := false }
    finfo := BitVec.ofNat 32 r.info }

/-- Return from the faulted state, and `CLR`: every item of state at its reset value (43_system.md R160,
60_exceptions.md R175). The parameters are hardwired (10_state.md R43); the host's own fields stay. -/
def clear (s : State) : State :=
  { State.resetWith s.cfg with script := s.script, hostSaw := s.hostSaw, drawn := s.drawn }

/-- How a word written to `csr[CMD]` is taken: refused while busy (70_reset_and_hazards.md R194), ignored
while faulted (60_exceptions.md R174), else accepted and run by `body`. -/
def command (op : BitVec 8) (body : State → Result) (s : State) : Result :=
  if s.status.busy then .refused .accessWhileBusy
  else if s.status.fault then .next s
  else body (accept op s)

/-! ## What a faulting command leaves of its destination (60_exceptions.md R173) -/

/-- TEXT as the destination of a fault: length 0, elements unspecified. -/
def loseText (s : State) : State := { s with textLen := 0, text := [] }

/-- CODE as the destination of a fault: length 0, elements unspecified. -/
def loseCode (s : State) : State := { s with codeLen := 0, code := [] }

/-- PACKED as the destination of a fault: length 0, `BITLEN` 0, elements unspecified. -/
def losePacked (s : State) : State := { s with packedLen := 0, bitLen := 0, packed := [] }

/-- `LZWE`'s dictionary and working registers after a fault: free (log entry 4). -/
def loseEncoder (s : State) : State :=
  { s with
    dictE := Config.freeDictE s.drawn
    nextE := freeBelow s.cfg.nextW s.drawn
    wE := Config.freeString s.drawn
    drawn := s.drawn + 1 }

/-- `LZWD`'s dictionary and working registers after a fault: free (log entry 4). -/
def loseDecoder (s : State) : State :=
  { s with
    dictD := Config.freeDictD s.drawn
    nextD := freeBelow s.cfg.nextW s.drawn
    wD := Config.freeString s.drawn
    drawn := s.drawn + 1 }

/-- `CAND` after a fault of `UNPK` or `UNPKL`: free (log entry 4). -/
def loseCand (s : State) : State :=
  { s with cand := Config.freeBits s.drawn, drawn := s.drawn + 1 }

end Sys2Proof.Machine
end

