-- ==== Sys2Proof/Machine/Operands.lean ====
section
/-! DEFINITION. The data formats: bitstrings and table entries (30_encoding.md R88, R89), the packed
stream (20_memory.md R60, 30_encoding.md R90), the node record (R92), and each element as one number
(20_memory.md R64). -/

namespace Sys2Proof.Machine

/-! ## Bitstrings and table entries -/

/-- The number a bitstring spells, first bit most significant: `sum of b_i * 2^(L-1-i)` (30_encoding.md
R89). -/
def bitsNumber (bs : List Bool) : Nat := bs.foldl (fun n b => 2 * n + b.toNat) 0

/-- The entry that holds a bitstring (30_encoding.md R89). -/
def Entry.ofBits (bs : List Bool) : Entry := { len := bs.length, bits := bitsNumber bs }

/-- The bitstring an entry holds: bit `i` of the string is bit `L-1-i` of `BITS` (30_encoding.md R89). -/
def Entry.toBits (e : Entry) : List Bool := (List.range e.len).map fun i => e.bits.testBit (e.len - 1 - i)

/-- An entry as one number: `LEN` in the low `LEN_W` bits, `BITS` above (30_encoding.md R88). -/
def Entry.value (p : Params) (e : Entry) : Nat := e.len + e.bits * 2 ^ p.lenW

/-- The entry a written number holds: its `LEN` and `BITS` fields (30_encoding.md R88). -/
def Entry.ofValue (p : Params) (v : Nat) : Entry :=
  { len := v % 2 ^ p.lenW, bits := v / 2 ^ p.lenW % 2 ^ p.maxLen }

/-- A write of an entry to TABLE: ignored when `LEN > MAXLEN`; bits of `BITS` at positions `>= LEN` are
stored as 0 (30_encoding.md R88). -/
def storeEntry (p : Params) (t : Memory Entry) (c : Nat) (e : Entry) : Memory Entry :=
  if e.len ≤ p.maxLen then tableSet t c { len := e.len, bits := e.bits % 2 ^ e.len } else t

/-- TABLE after a faulting `HGEN`: every entry unspecified, present or absent, any bits (60_exceptions.md
R173; log entry 4). Codes of `CODE_W` bits only, each entry in the form a write leaves. -/
def freeTable (p : Params) (d : Nat) : Memory Entry :=
  (Config.freeEntries d).foldl
    (fun t x => storeEntry p t (x.1 % 2 ^ p.codeW) { len := x.2.1, bits := x.2.2 }) []

/-- `TABLE[c]` for the destination of a faulting `HGEN` (60_exceptions.md R173; log entry 4). -/
def loseTable (s : State) : State :=
  { s with table := freeTable s.cfg s.drawn, drawn := s.drawn + 1 }

/-! ## The packed stream -/

/-- The bits of a byte in stream order, position 7 first (20_memory.md R60). -/
def byteBits (b : Byte) : List Bool := (List.range 8).map fun p => b.getLsbD (7 - p)

/-- The bits of a run of bytes in stream order (20_memory.md R60, R61). -/
def streamBits (bytes : List Byte) : List Bool := bytes.flatMap byteBits

/-- Byte `j` of the packed buffer: `sum over p in 0..7 of bit(8*j + p) * 2^(7-p)`, where a bit at or beyond
the end of the sequence is 0 (42_bitpack.md R140). -/
def packedByte (bits : List Bool) (j : Nat) : Byte :=
  BitVec.ofNat 8 (bitsNumber ((List.range 8).map fun p => bits.getD (8 * j + p) false))

/-- `nbytes = ceil(B / 8)`, as `(B + 7) div 8` (42_bitpack.md R140). -/
def bytesFor (nbits : Nat) : Nat := (nbits + 7) / 8

/-- The bytes of a bit sequence, the last one zero-padded (42_bitpack.md R140, 30_encoding.md R90). -/
def packedBytes (bits : List Bool) : List Byte := (List.range (bytesFor bits.length)).map (packedByte bits)

/-! ## Node records and element values -/

/-- `WEIGHT` of a node. -/
def Node.weight : Node → Nat
  | .leaf w _ => w
  | .internal w _ _ => w

/-- A node record as one number, lowest field first: `KIND` at bit 0, `WEIGHT`, `SYM`, `LEFT`, `RIGHT`
(30_encoding.md R92). -/
def Node.value (p : Params) : Node → Nat
  | .leaf w sym => w * 2 + sym * 2 ^ (1 + p.cntW)
  | .internal w l r =>
    1 + w * 2 + l * 2 ^ (1 + p.cntW + p.codeW) + r * 2 ^ (1 + p.cntW + p.codeW + p.idxW)

/-- The width of an element of a space (20_memory.md R64). -/
def elementWidth (p : Params) : Space → Nat
  | .csr => 32
  | .text => 8
  | .code => p.codeW
  | .packed => 8
  | .table => p.lenW + p.maxLen
  | .freq => p.cntW
  | .tree => 1 + p.cntW + p.codeW + p.idxW + p.idxW

/-- The space numbers (10_state.md R20). -/
def Space.number : Space → Nat
  | .csr => 0
  | .text => 1
  | .code => 2
  | .packed => 3
  | .table => 4
  | .freq => 5
  | .tree => 6

/-- The number of elements of a space: its indices are those below (10_state.md R20, R35). -/
def elementCount (p : Params) : Space → Nat
  | .csr => 17
  | .text => p.textCap
  | .code => p.codeCap
  | .packed => p.packedCap
  | .table => 2 ^ p.codeW
  | .freq => 2 ^ p.codeW
  | .tree => p.nodeCap

end Sys2Proof.Machine
end

