-- ==== Sys2Proof/Machine/Flags.lean ====
section
/-! DEFINITION. `STATUS` as the host reads it (10_state.md R37), and the two flags a completing command
computes (R29). -/

namespace Sys2Proof.Machine

/-- The cause codes (60_exceptions.md R171). -/
def Cause.code : Cause → BitVec 4
  | .none => 0
  | .illegalCmd => 1
  | .dictFull => 2
  | .outOverflow => 3
  | .badFirstCode => 4
  | .tableMiss => 5
  | .tableMulti => 6
  | .codeTooLong => 7
  | .bitlenRange => 8

/-- The 32 bits of `STATUS`: `BUSY` 0, `DONE` 1, `FAULT` 2, `RESID` 3, `DESYNC` 4, `CAUSE` 11:8, `LASTOP`
23:16, every other bit 0 (10_state.md R37). -/
def Status.word (st : Status) : Word :=
  (0#8) ++ st.lastop ++ (0#4) ++ st.cause.code ++ (0#3) ++ BitVec.ofBool st.desync ++
    BitVec.ofBool st.resid ++ BitVec.ofBool st.fault ++ BitVec.ofBool st.done ++ BitVec.ofBool st.busy

/-- `STATUS.RESID <- 1 if CAND != ε else 0` (42_bitpack.md R144). -/
def setResid (cand : List Bool) (s : State) : State :=
  { s with status := { s.status with resid := !cand.isEmpty } }

/-- `STATUS.DESYNC <- desync` (40_lzw.md R104). -/
def setDesync (desync : Bool) (s : State) : State :=
  { s with status := { s.status with desync := desync } }

end Sys2Proof.Machine
end

