-- ==== Sys2Proof/Machine/Bitpack.lean ====
section
/-! DEFINITION. The bit-packer and the bit-unpacker: `PACK` (42_bitpack.md R140), `UNPK` (R142) and `UNPKL`
(R143), and the scan the last two share (R144). -/

namespace Sys2Proof.Machine

/-! ## PACK -/

/-- One code of the loop of `PACK` (42_bitpack.md R140). -/
def packCode (p : Params) (t : Memory Entry) (i : Nat) (c : Nat) (bits : List Bool) :
    Except Raise (List Bool) :=
  let e := tableAt t c
  if e.len = 0 then .error ⟨.tableMiss, i⟩
  else if bits.length + e.len > 8 * p.packedCap then .error ⟨.outOverflow, i⟩
  else .ok (bits ++ e.toBits)

/-- The logical bit sequence of `PACK` (42_bitpack.md R140). -/
def packRun (p : Params) (t : Memory Entry) (codes : List Nat) : Except Raise (List Bool) :=
  forEach (packCode p t) 0 codes []

/-- The results of a completed `PACK` (42_bitpack.md R140, 10_state.md R24 (c)). -/
def packStore (bits : List Bool) (s : State) : State :=
  { s with
    packed := Memory.ofList (packedBytes bits)
    packedLen := BitVec.ofNat 32 (bytesFor bits.length)
    bitLen := BitVec.ofNat 32 bits.length }

/-- `PACK` on an accepted command (42_bitpack.md R140; faults: 60_exceptions.md R173). -/
def packBody (s : State) : Result :=
  let s1 := s.draw s.codeLen.toNat
  match packRun s.cfg s.table s.codeSource with
  | .error e => .next (raise e (losePacked s1))
  | .ok bits => .next (complete (packStore bits s1))

/-- The command `PACK` (42_bitpack.md R140). -/
def execPack (s : State) : Result := command 0x05 packBody s

/-! ## The scan of UNPK and UNPKL -/

/-- `CAND` and the output so far (42_bitpack.md R144). -/
structure ScanRegs where
  cand : List Bool
  out  : List Nat
deriving DecidableEq, Repr

/-- `M`, the codes whose entry is present and equal to `CAND` as bitstrings (42_bitpack.md R144). -/
def codesSpelled (t : Memory Entry) (cand : List Bool) : List Nat :=
  (t.filter fun x => decide (x.2.len ≠ 0 ∧ x.2.toBits = cand)).map fun x => x.1

/-- One bit of the scan (42_bitpack.md R144). -/
def scanBit (p : Params) (t : Memory Entry) (i : Nat) (b : Bool) (r : ScanRegs) : Except Raise ScanRegs :=
  let cand := r.cand ++ [b]
  match codesSpelled t cand with
  | [] => .ok { r with cand := cand }
  | [c] =>
    if r.out.length = p.codeCap then .error ⟨.outOverflow, i⟩
    else .ok { cand := [], out := r.out ++ [c] }
  | _ :: _ :: _ => .error ⟨.tableMulti, i⟩

/-- The scan of a run of bits (42_bitpack.md R144). -/
def scanRun (p : Params) (t : Memory Entry) (bits : List Bool) : Except Raise ScanRegs :=
  forEach (scanBit p t) 0 bits { cand := [], out := [] }

/-- The results of a completed scan (42_bitpack.md R144, 10_state.md R24 (c)). -/
def scanStore (r : ScanRegs) (s : State) : State :=
  setResid r.cand
    { s with
      code := Memory.ofList r.out, codeLen := BitVec.ofNat 32 r.out.length, cand := r.cand }

/-- `scan(nbits)` as the end of an accepted command (42_bitpack.md R144; faults: 60_exceptions.md R173). -/
def scan (nbits : Nat) (s : State) : Result :=
  let s1 := s.draw s.packedLen.toNat
  match scanRun s.cfg s.table ((streamBits s.packedSource).take nbits) with
  | .error e => .next (raise e (loseCand (loseCode s1)))
  | .ok r => .next (complete (scanStore r s1))

/-- `UNPK` on an accepted command: the whole buffer, padding included (42_bitpack.md R142). -/
def unpkBody (s : State) : Result := scan (8 * s.packedLen.toNat) s

/-- `UNPKL` on an accepted command: the first `BITLEN` bits (42_bitpack.md R143). -/
def unpklBody (s : State) : Result :=
  if s.bitLen.toNat > 8 * s.packedLen.toNat then
    .next (raise ⟨.bitlenRange, s.bitLen.toNat⟩ (loseCand (loseCode s)))
  else scan s.bitLen.toNat s

/-- The command `UNPK` (42_bitpack.md R142). -/
def execUnpk (s : State) : Result := command 0x06 unpkBody s

/-- The command `UNPKL` (42_bitpack.md R143). -/
def execUnpkl (s : State) : Result := command 0x07 unpklBody s

end Sys2Proof.Machine
end

