-- ==== Sys2Proof/Machine/Huffman.lean ====
section
/-! DEFINITION. The Huffman tree builder and the code generator: `HBLD` (41_huffman.md R120) and `HGEN`
(R126). -/

namespace Sys2Proof.Machine

/-! ## HBLD -/

/-- `FREQ[c] <- FREQ[c] + 1` (41_huffman.md R120). -/
def countCode (f : Memory Nat) (c : Nat) : Memory Nat := f.set c (freqAt f c + 1)

/-- All counts set to 0, then one added for each code of the source (41_huffman.md R120, R121). -/
def countCodes (codes : List Nat) : Memory Nat := codes.foldl countCode []

/-- `key(k) = ( NODE[k].WEIGHT , k )` of a live node (41_huffman.md R120, R123). -/
structure Key where
  weight : Nat
  idx    : Nat
deriving DecidableEq, Repr

/-- The lesser of two keys, compared lexicographically (41_huffman.md R123). -/
def Key.least (a b : Key) : Key :=
  if b.weight < a.weight ∨ b.weight = a.weight ∧ b.idx < a.idx then b else a

/-- The live node of least key, and the others (41_huffman.md R120). -/
def takeLeast : List Key → Option (Key × List Key)
  | [] => none
  | k :: ks =>
    let m := ks.foldl Key.least k
    some (m, (k :: ks).erase m)

/-- The merge loop, `while |live| >= 2`: the nodes it creates, the first with index `cnt`. The first node
extracted is the left child (41_huffman.md R120, R123; log entry 15). Each turn takes one node out of
`live`, so as many turns as there are live nodes are enough (70_reset_and_hazards.md R198). -/
def mergeNodes : Nat → List Key → Nat → List Node
  | 0, _, _ => []
  | turns + 1, live, cnt =>
    match takeLeast live with
    | none => []
    | some (a, live1) =>
      match takeLeast live1 with
      | none => []
      | some (b, live2) =>
        .internal (a.weight + b.weight) a.idx b.idx ::
          mergeNodes turns (⟨a.weight + b.weight, cnt⟩ :: live2) (cnt + 1)

/-- The leaves: one for each code with a count, in ascending order of code, which is the order of the
memory FREQ (41_huffman.md R122). -/
def leavesOf (f : Memory Nat) : List Node := f.map fun x => .leaf x.2 x.1

/-- The keys of the leaves (41_huffman.md R120). -/
def leafKeys (f : Memory Nat) : List Key := f.zipIdx.map fun x => ⟨x.1.2, x.2⟩

/-- The node store `HBLD` builds from the counts (41_huffman.md R120). -/
def buildNodes (f : Memory Nat) : List Node :=
  leavesOf f ++ mergeNodes f.length (leafKeys f) f.length

/-- The results of `HBLD`; `ROOT` is `cnt - 1`, or 0 for an empty tree (41_huffman.md R120). -/
def hbldStore (f : Memory Nat) (s : State) : State :=
  { s with
    freq := f, nodes := buildNodes f
    nodeCount := (buildNodes f).length, root := (buildNodes f).length - 1 }

/-- `HBLD` on an accepted command; it cannot fault (41_huffman.md R120). -/
def hbldBody (s : State) : Result :=
  .next (complete (hbldStore (countCodes s.codeSource) (s.draw s.codeLen.toNat)))

/-- The command `HBLD` (41_huffman.md R120). -/
def execHbld (s : State) : Result := command 0x03 hbldBody s

/-! ## HGEN -/

/-- `walk(k, path)`, left first (41_huffman.md R126). The first argument bounds the depth: children have
smaller indices than their parent (R124), so `NODE_COUNT` is enough; a record that is not there, or a
depth beyond the bound, is a TREE that is no tree (log entry 8). -/
def walk (p : Params) (nodes : List Node) :
    Nat → Nat → List Bool → Memory Entry → Except (Option Raise) (Memory Entry)
  | 0, _, _, _ => .error none
  | depth + 1, k, path, t =>
    match nodes[k]? with
    | none => .error none
    | some (.leaf _ sym) =>
      if path.length > p.maxLen then .error (some ⟨.codeTooLong, sym⟩)
      else .ok (tableSet t sym (Entry.ofBits path))
    | some (.internal _ l r) =>
      match walk p nodes depth l (path ++ [false]) t with
      | .error e => .error e
      | .ok t' => walk p nodes depth r (path ++ [true]) t'

/-- The table of a tree: empty for an empty tree (41_huffman.md R128), the 1-bit bitstring `0` for a single
leaf (R127), else the root-to-leaf paths (R126). -/
def genTable (p : Params) (nodes : List Node) (count root : Nat) : Except (Option Raise) (Memory Entry) :=
  if count = 0 then .ok []
  else
    match nodes[root]? with
    | none => .error none
    | some (.leaf _ sym) => .ok (tableSet [] sym (Entry.ofBits [false]))
    | some (.internal _ _ _) => walk p nodes count root [] []

/-- The result of a completed `HGEN` (41_huffman.md R126). -/
def hgenStore (t : Memory Entry) (s : State) : State := { s with table := t }

/-- `HGEN` on an accepted command (41_huffman.md R126; faults: 60_exceptions.md R173). -/
def hgenBody (s : State) : Result :=
  match genTable s.cfg s.nodes s.nodeCount s.root with
  | .error none => .fault .treeIllFormed
  | .error (some e) => .next (raise e (loseTable s))
  | .ok t => .next (complete (hgenStore t s))

/-- The command `HGEN` (41_huffman.md R126). -/
def execHgen (s : State) : Result := command 0x04 hgenBody s

end Sys2Proof.Machine
end

