-- ==== Sys2Proof/Machine/Lzw.lean ====
section
/-! DEFINITION. The LZW dictionary encoder and decoder: `LZWE` (40_lzw.md R101) and `LZWD` (R104). -/

namespace Sys2Proof.Machine

/-! ## LZWE -/

/-- What `LZWE` works on: `DICT_E`, `NEXT_E`, `W_E` and the output so far (40_lzw.md R101). -/
structure LzweRegs where
  dict : DictE
  next : Nat
  w    : List Byte
  out  : List Nat
deriving DecidableEq, Repr

/-- The start of `LZWE` (40_lzw.md R100). -/
def lzweStart : LzweRegs := { dict := initE, next := 256, w := [], out := [] }

/-- `out <- out ++ [ DICT_E[W_E] ]`. `W_E` is always a key here (40_lzw.md R102 (a); log entry 14). -/
def lzweEmit (r : LzweRegs) : List Nat := r.out ++ (dictCode r.dict r.w).toList

/-- One byte of the loop of `LZWE` (40_lzw.md R101). -/
def lzweByte (p : Params) (i : Nat) (c : Byte) (r : LzweRegs) : Except Raise LzweRegs :=
  let wc := r.w ++ [c]
  if (dictCode r.dict wc).isSome then .ok { r with w := wc }
  else if r.out.length = p.codeCap then .error ⟨.outOverflow, i⟩
  else if r.next = 2 ^ p.codeW then .error ⟨.dictFull, i⟩
  else .ok { dict := r.dict ++ [(wc, r.next)], next := r.next + 1, w := [c], out := lzweEmit r }

/-- The final flush of `LZWE`, after `n` bytes (40_lzw.md R101). -/
def lzweFlush (p : Params) (n : Nat) (r : LzweRegs) : Except Raise LzweRegs :=
  if r.w = [] then .ok r
  else if r.out.length = p.codeCap then .error ⟨.outOverflow, n⟩
  else .ok { r with out := lzweEmit r }

/-- The run of `LZWE` over the bytes of TEXT (40_lzw.md R101). -/
def lzweRun (p : Params) (bytes : List Byte) : Except Raise LzweRegs :=
  match forEach (lzweByte p) 0 bytes lzweStart with
  | .error e => .error e
  | .ok r => lzweFlush p bytes.length r

/-- The results of a completed `LZWE` (40_lzw.md R101, 10_state.md R24 (c)). -/
def lzweStore (r : LzweRegs) (s : State) : State :=
  { s with
    code := Memory.ofList r.out, codeLen := BitVec.ofNat 32 r.out.length
    dictE := r.dict, nextE := r.next, wE := r.w }

/-- `LZWE` on an accepted command (40_lzw.md R101; faults: 60_exceptions.md R173). -/
def lzweBody (s : State) : Result :=
  let s1 := s.draw s.textLen.toNat
  match lzweRun s.cfg s.textSource with
  | .error e => .next (raise e (loseEncoder (loseCode s1)))
  | .ok r => .next (complete (lzweStore r s1))

/-- The command `LZWE` (40_lzw.md R101). -/
def execLzwe (s : State) : Result := command 0x01 lzweBody s

/-! ## LZWD -/

/-- What `LZWD` works on: `DICT_D`, `NEXT_D`, `W_D`, the output so far and `desync` (40_lzw.md R104). -/
structure LzwdRegs where
  dict   : Memory (List Byte)
  next   : Nat
  w      : List Byte
  out    : List Byte
  desync : Bool
deriving DecidableEq, Repr

/-- The string of a code: its dictionary entry, or the fallback `W_D ++ [W_D[0]]` (40_lzw.md R104, R105). -/
def lzwdEntry (r : LzwdRegs) (k : Nat) : List Byte :=
  match r.dict.get? k with
  | some e => e
  | none => r.w ++ r.w.take 1

/-- One code of the loop of `LZWD` (40_lzw.md R104). -/
def lzwdCode (p : Params) (i : Nat) (k : Nat) (r : LzwdRegs) : Except Raise LzwdRegs :=
  let entry := lzwdEntry r k
  if r.out.length + entry.length > p.textCap then .error ⟨.outOverflow, i⟩
  else if r.next = 2 ^ p.codeW then .error ⟨.dictFull, i⟩
  else .ok
    { dict := r.dict.set r.next (r.w ++ entry.take 1)
      next := r.next + 1
      w := entry
      out := r.out ++ entry
      desync := r.desync || ((r.dict.get? k).isNone && k != r.next) }

/-- The run of `LZWD` over the codes of CODE; `w` is `W_D` as it was, which an empty source leaves (40_lzw.md
R104; log entry 11). The seed of a first code `k0 <= 255` is its one-byte string (R100). -/
def lzwdRun (p : Params) (w : List Byte) : List Nat → Except Raise LzwdRegs
  | [] => .ok { dict := initD, next := 256, w := w, out := [], desync := false }
  | k0 :: ks =>
    if k0 > 255 then .error ⟨.badFirstCode, k0⟩
    else
      let seed := [BitVec.ofNat 8 k0]
      forEach (lzwdCode p) 1 ks { dict := initD, next := 256, w := seed, out := seed, desync := false }

/-- The results of a completed `LZWD` (40_lzw.md R104, 10_state.md R24 (c)). -/
def lzwdStore (r : LzwdRegs) (s : State) : State :=
  setDesync r.desync
    { s with
      text := Memory.ofList r.out, textLen := BitVec.ofNat 32 r.out.length
      dictD := r.dict, nextD := r.next, wD := r.w }

/-- `LZWD` on an accepted command (40_lzw.md R104; faults: 60_exceptions.md R173). -/
def lzwdBody (s : State) : Result :=
  let s1 := s.draw s.codeLen.toNat
  match lzwdRun s.cfg s.wD s.codeSource with
  | .error e => .next (raise e (loseDecoder (loseText s1)))
  | .ok r => .next (complete (lzwdStore r s1))

/-- The command `LZWD` (40_lzw.md R104). -/
def execLzwd (s : State) : Result := command 0x02 lzwdBody s

end Sys2Proof.Machine
end

