-- ==== Sys2Proof/Machine/System.lean ====
section
/-! DEFINITION. The system command `CLR` (43_system.md R160) and the word that is no command
(30_encoding.md R83). -/

namespace Sys2Proof.Machine

/-- The command `CLR`: accepted also while faulted; it does not set `DONE` (43_system.md R160, 60_exceptions.md
R174). Refused while busy (70_reset_and_hazards.md R194). -/
def execClr (s : State) : Result :=
  if s.status.busy then .refused .accessWhileBusy else .next (clear s)

/-- A word that is none of the eight, written to `csr[CMD]`: `ILLEGAL_CMD`, with `FINFO` the word and
`LASTOP` its low byte; nothing else changes (30_encoding.md R83, 60_exceptions.md R171, R173). Ignored while
faulted (R174). -/
def illegalCommand (w : Word) (s : State) : Result :=
  command (w.setWidth 8) (fun s1 => .next (raise ⟨.illegalCmd, w.toNat⟩ s1)) s

end Sys2Proof.Machine
end

