-- ==== Sys2Proof/Machine/Dispatch.lean ====
section
/-! DEFINITION. One arm for each command: what writing its word to csr[CMD] does (30_encoding.md R82). -/

namespace Sys2Proof.Machine

def exec (i : Instr) (s : State) : Host.Outcome State Fault Refusal :=
  match i with
  | .clr => Sys2Proof.Machine.execClr s
  | .lzwe => Sys2Proof.Machine.execLzwe s
  | .lzwd => Sys2Proof.Machine.execLzwd s
  | .hbld => Sys2Proof.Machine.execHbld s
  | .hgen => Sys2Proof.Machine.execHgen s
  | .pack => Sys2Proof.Machine.execPack s
  | .unpk => Sys2Proof.Machine.execUnpk s
  | .unpkl => Sys2Proof.Machine.execUnpkl s

end Sys2Proof.Machine
end

