-- ==== Sys2Proof/Machine/HostAccess.lean ====
section
/-! DEFINITION. What the host does to the core: reads (43_system.md R161), writes (R162), the issue of a
command word (10_state.md R36), the reset input (70_reset_and_hazards.md R190). -/

namespace Sys2Proof.Machine

/-- A CSR as the host reads it: zero-extended to 32 bits; `CMD` and reserved numbers read 0 (10_state.md
R35, R36, R44). A view wider than 32 bits shows its low 32 (log entry 9). -/
def csrRead (s : State) (i : Nat) : Word :=
  match i with
  | 0 => 0
  | 1 => s.status.word
  | 2 => s.finfo
  | 3 => s.textLen
  | 4 => s.codeLen
  | 5 => s.packedLen
  | 6 => s.bitLen
  | 7 => BitVec.ofNat 32 (tableCount s.table)
  | 8 => BitVec.ofNat 32 s.nodeCount
  | 9 => BitVec.ofNat 32 s.root
  | 10 => BitVec.ofNat 32 s.nextE
  | 11 => BitVec.ofNat 32 s.nextD
  | 12 => BitVec.ofNat 32 s.cfg.codeW
  | 13 => BitVec.ofNat 32 s.cfg.textCap
  | 14 => BitVec.ofNat 32 s.cfg.codeCap
  | 15 => BitVec.ofNat 32 s.cfg.packedCap
  | 16 => BitVec.ofNat 32 s.cfg.maxLen
  | _ => 0

/-- The element a host read returns, as one number; none where the spec calls it unspecified (43_system.md
R161, 20_memory.md R63). -/
def elementAt (s : State) (sp : Space) (i : Nat) : Option Nat :=
  match sp with
  | .csr => some (csrRead s i).toNat
  | .text => if i < s.cfg.textCap then (s.text.get? i).map BitVec.toNat else none
  | .code => if i < s.cfg.codeCap then s.code.get? i else none
  | .packed => if i < s.cfg.packedCap then (s.packed.get? i).map BitVec.toNat else none
  | .table => if i < 2 ^ s.cfg.codeW then some ((tableAt s.table i).value s.cfg) else none
  | .freq => if i < 2 ^ s.cfg.codeW then some (freqAt s.freq i) else none
  | .tree => if i < s.nodeCount then s.nodes[i]?.map (Node.value s.cfg) else none

/-- `HostRead(space, i)`: the host gets the element; an unspecified one is a free value of the element's
width (43_system.md R161; log entries 3, 6, 10). No state of the core changes (20_memory.md R65). -/
def hostRead (sp : Space) (i : Nat) (s : State) : State :=
  match elementAt s sp i with
  | some v => { s with hostSaw := some v }
  | none => { s with hostSaw := some (freeBelow (elementWidth s.cfg sp) s.drawn), drawn := s.drawn + 1 }

/-- A host write of a CSR other than `CMD` (43_system.md R162, 10_state.md R39, R40, R44). -/
def csrWrite (i : Nat) (v : Word) (s : State) : State :=
  match i with
  | 3 => if v.toNat ≤ s.cfg.textCap then { s with textLen := v } else s
  | 4 => if v.toNat ≤ s.cfg.codeCap then { s with codeLen := v } else s
  | 5 => if v.toNat ≤ s.cfg.packedCap then { s with packedLen := v } else s
  | 6 => { s with bitLen := v }
  | _ => s

/-- `HostWrite(space, i, v)` but for `csr[CMD]` (43_system.md R162): the low bits of `v` that fit the element
are stored; out of range, FREQ and TREE are ignored. -/
def dataWrite (sp : Space) (i v : Nat) (s : State) : State :=
  match sp with
  | .csr => csrWrite i (BitVec.ofNat 32 v) s
  | .text => if i < s.cfg.textCap then { s with text := s.text.set i (BitVec.ofNat 8 v) } else s
  | .code => if i < s.cfg.codeCap then { s with code := s.code.set i (v % 2 ^ s.cfg.codeW) } else s
  | .packed => if i < s.cfg.packedCap then { s with packed := s.packed.set i (BitVec.ofNat 8 v) } else s
  | .table =>
    if i < 2 ^ s.cfg.codeW then { s with table := storeEntry s.cfg s.table i (Entry.ofValue s.cfg v) } else s
  | .freq => s
  | .tree => s

/-- A word written to `csr[CMD]` (10_state.md R36): a command is run, any other word is illegal. -/
def present (w : Word) (s : State) : Result :=
  match decode w with
  | .ok i => exec i s
  | .error _ => illegalCommand w s

/-- One act of the host. While busy, every access but a read of `STATUS` is refused (70_reset_and_hazards.md
R194); the reset input works at any time (R190). -/
def hostEvent (e : HostEvent) (s : State) : Result :=
  match e with
  | .reset => .next (clear s)
  | .read sp i =>
    if s.status.busy = true ∧ ¬(sp = .csr ∧ i = 1) then .refused .accessWhileBusy
    else .next (hostRead sp i s)
  | .write sp i v =>
    if sp = .csr ∧ i = 0 then present (BitVec.ofNat 32 v) s
    else if s.status.busy then .refused .accessWhileBusy
    else .next (dataWrite sp i v s)

end Sys2Proof.Machine
end

