-- ==== Sys2Proof/Machine/Step.lean ====
section
/-! DEFINITION. One step of the machine: the host's next access is performed (20_memory.md R66). -/

namespace Sys2Proof.Machine

/-- The host's next access, performed on the core; with none pending the core stays as it is, since all
state survives idleness (60_exceptions.md R181; log entry 2). -/
def step (s : State) : Host.Outcome State Fault Refusal :=
  match s.script with
  | [] => .next s
  | e :: rest => hostEvent e { s with script := rest }

/-- The word is the host's next write to `csr[CMD]`: what stands here for fetching (10_state.md R28, R36; log
entry 2). -/
def State.withFetchWord (s : State) (nbits w : Nat) : State :=
  { s with script := .write .csr 0 (w % 2 ^ nbits) :: s.script }

end Sys2Proof.Machine
end

