-- ==== Sys2Proof/WellFormed.lean ====
section
/-! DEFINITION. Well-formedness. A command has no operand (30_encoding.md R81), so every command is
well formed; what has checks is the set of parameters (00_scope.md R6 to R9). -/

namespace Sys2Proof

/-- Every command is well formed: there is no operand to check (30_encoding.md R81). -/
def Instr.wf : Instr → Bool
  | .clr => true
  | .lzwe => true
  | .lzwd => true
  | .hbld => true
  | .hgen => true
  | .pack => true
  | .unpk => true
  | .unpkl => true

/-- The bounds the spec puts on the parameters: `CODE_W >= 9` (00_scope.md R6), each capacity `>= 1` and
`< 2^32` (R7), `PACKED_CAP < 2^29` (R9, `BL_W`), `MAXLEN >= 1` (R8). -/
abbrev Params.WF (p : Params) : Prop :=
  9 ≤ p.codeW ∧ 1 ≤ p.textCap ∧ p.textCap < 2 ^ 32 ∧ 1 ≤ p.codeCap ∧ p.codeCap < 2 ^ 32 ∧
    1 ≤ p.packedCap ∧ p.packedCap < 2 ^ 29 ∧ 1 ≤ p.maxLen

end Sys2Proof
end

