-- ==== Sys2Proof/Laws/PerInstr.lean ====
section
/-! SUPPORT. Statements made for each command as syntax, one lemma a constructor. -/

namespace Sys2Proof.Laws

/-- A command is well formed, its word is 32 bits with its opcode in the low byte and zeros above, and the word decodes to it
(30_encoding.md R80 to R82). -/
def EncodedWordDecodes.Statement (i : Instr) : Prop :=
  i.wf = true ∧ opField (encode i) = opcode i ∧ zeroField (encode i) = 0 ∧ decode (encode i) = .ok i

theorem EncodedWordDecodes.clr : EncodedWordDecodes.Statement .clr := by unfold Statement; decide
theorem EncodedWordDecodes.lzwe : EncodedWordDecodes.Statement .lzwe := by unfold Statement; decide
theorem EncodedWordDecodes.lzwd : EncodedWordDecodes.Statement .lzwd := by unfold Statement; decide
theorem EncodedWordDecodes.hbld : EncodedWordDecodes.Statement .hbld := by unfold Statement; decide
theorem EncodedWordDecodes.hgen : EncodedWordDecodes.Statement .hgen := by unfold Statement; decide
theorem EncodedWordDecodes.pack : EncodedWordDecodes.Statement .pack := by unfold Statement; decide
theorem EncodedWordDecodes.unpk : EncodedWordDecodes.Statement .unpk := by unfold Statement; decide
theorem EncodedWordDecodes.unpkl : EncodedWordDecodes.Statement .unpkl := by unfold Statement; decide

end Sys2Proof.Laws
end

