-- ==== Sys2Proof/Machine/Script.lean ====
section
/-! DEFINITION. The lines of a host script (30_encoding.md R94) as the host accesses they stand for, and a run of them. The
waiting for `BUSY = 0` after a command takes no step, because a command is atomic (20_memory.md R66).
`EXPECT` is no action and has no line here. -/

namespace Sys2Proof.Machine

/-- A line of a host script (30_encoding.md R94). -/
inductive Line
  | command (i : Instr)
  | cmd (v : Nat)
  | wr (sp : Space) (i v : Nat)
  | wrTable (c : Nat) (bits : List Bool)
  | set (reg v : Nat)
  | rd (sp : Space) (i : Nat)
  | get (reg : Nat)
  | loadText (bytes : List Byte)
  | loadCode (codes : List Nat)
  | loadPacked (bytes : List Byte)
  | loadTable (entries : List (Nat × List Bool))
  | compress
  | decompress
  | decompressl
deriving DecidableEq, Repr

/-- The write of a command word to `csr[CMD]`. -/
def issue (i : Instr) : HostEvent := .write .csr 0 (encode i).toNat

/-- `WR <SPACE>[j] = b_j` for all `j`, then the length register (30_encoding.md R94). -/
def loadRun (sp : Space) (lenReg : Nat) (vs : List Nat) : List HostEvent :=
  (vs.zipIdx.map fun x => .write sp x.2 x.1) ++ [.write .csr lenReg vs.length]

/-- `WR TABLE[c] = "bits"`: the write of the entry as one number (30_encoding.md R88, R89, R93, R94). A bitstring of
`2^LEN_W` bits or more is longer than `MAXLEN`, so its write is ignored (R88); no element value holds it, so the line
makes no access at all. DESIGN CHOICE, log entry 17. -/
def writeEntry (p : Params) (c : Nat) (bits : List Bool) : List HostEvent :=
  if bits.length < 2 ^ p.lenW then [.write .table c ((Entry.ofBits bits).value p)] else []

/-- The host accesses of a line, in order (30_encoding.md R94, R95). `LOAD TABLE` first makes absent every
present entry that is not listed, so it looks at TABLE. -/
def Line.events (s : State) : Line → List HostEvent
  | .command i => [issue i]
  | .cmd v => [.write .csr 0 v]
  | .wr sp i v => [.write sp i v]
  | .wrTable c bits => writeEntry s.cfg c bits
  | .set reg v => [.write .csr reg v]
  | .rd sp i => [.read sp i]
  | .get reg => [.read .csr reg]
  | .loadText bytes => loadRun .text 3 (bytes.map BitVec.toNat)
  | .loadCode codes => loadRun .code 4 codes
  | .loadPacked bytes => loadRun .packed 5 (bytes.map BitVec.toNat)
  | .loadTable entries =>
    ((s.table.filter fun x => decide (x.1 ∉ entries.map Prod.fst)).flatMap fun x => writeEntry s.cfg x.1 []) ++
      entries.flatMap fun x => writeEntry s.cfg x.1 x.2
  | .compress => [issue .lzwe, issue .hbld, issue .hgen, issue .pack]
  | .decompress => [issue .unpk, issue .lzwd]
  | .decompressl => [issue .unpkl, issue .lzwd]

/-- That many steps, one after another. -/
def runSteps : Nat → State → Result
  | 0, s => .next s
  | n + 1, s => andThen (step s) (runSteps n)

/-- A line: its accesses go before what the host still has to do, and the machine steps through them. -/
def runLine (l : Line) (s : State) : Result :=
  runSteps (l.events s).length { s with script := l.events s ++ s.script }

/-- A host script: its lines in order, each on the state the lines before it left (30_encoding.md R94). -/
def runLines : List Line → State → Result
  | [], s => .next s
  | l :: ls, s => andThen (runLine l s) (runLines ls)

end Sys2Proof.Machine
end

