-- ==== Sys2Proof/Safety.lean ====
section
/-! DEFINITION. The terms the statements use: the premises of 70_reset_and_hazards.md R200, the invariant
of the machine, and the source's unbounded algorithms (60_exceptions.md R172) against which the commands are
held. -/

namespace Sys2Proof.Machine

/-! ## Premises and ends -/

/-- `P_IDLE` and `P_NOFAULT` at launch (70_reset_and_hazards.md R200). -/
def Idle (s : State) : Prop := s.status.busy = false ∧ s.status.fault = false

/-- The command whose word carries `op` completed without fault (10_state.md R29, R37). -/
def Completed (op : BitVec 8) (t : State) : Prop :=
  t.status.busy = false ∧ t.status.done = true ∧ t.status.fault = false ∧ t.status.lastop = op

/-- The command whose word carries `op` ended in the fault `cause(info)` (60_exceptions.md R173). -/
def FaultedWith (op : BitVec 8) (cause : Cause) (info : Nat) (t : State) : Prop :=
  t.status.busy = false ∧ t.status.done = false ∧ t.status.fault = true ∧ t.status.cause = cause ∧
    t.status.lastop = op ∧ t.finfo = BitVec.ofNat 32 info

/-- The memory holds exactly the elements of a list, at indices from 0, and no other index holds a value
(10_state.md R24). -/
def Memory.Holds {α : Type} (m : Memory α) (l : List α) : Prop := ∀ i, m.get? i = l[i]?

/-- Below its length register the memory holds the elements of a list: its logical content, all defined
(10_state.md R21 to R24; `P_SRC_DEFINED` of 70_reset_and_hazards.md R200). -/
def Memory.Begins {α : Type} (m : Memory α) (len : Word) (l : List α) : Prop :=
  len.toNat = l.length ∧ ∀ i, i < l.length → m.get? i = l[i]?

/-! ## What two states have in common (the columns of 20_memory.md R74) -/

/-- TEXT and `TEXT_LEN`. -/
def SameText (s t : State) : Prop := t.text = s.text ∧ t.textLen = s.textLen

/-- CODE and `CODE_LEN`. -/
def SameCode (s t : State) : Prop := t.code = s.code ∧ t.codeLen = s.codeLen

/-- PACKED and `PACKED_LEN`. -/
def SamePacked (s t : State) : Prop := t.packed = s.packed ∧ t.packedLen = s.packedLen

/-- TREE with `NODE_COUNT` and `ROOT`. -/
def SameTree (s t : State) : Prop := t.nodes = s.nodes ∧ t.nodeCount = s.nodeCount ∧ t.root = s.root

/-- `DICT_E`, `NEXT_E`, `W_E`. -/
def SameEncoder (s t : State) : Prop := t.dictE = s.dictE ∧ t.nextE = s.nextE ∧ t.wE = s.wE

/-- `DICT_D`, `NEXT_D`, `W_D`. -/
def SameDecoder (s t : State) : Prop := t.dictD = s.dictD ∧ t.nextD = s.nextD ∧ t.wD = s.wD

/-- What no command touches: the parameters, and the host's own side. -/
def SameOutside (s t : State) : Prop := t.cfg = s.cfg ∧ t.script = s.script ∧ t.hostSaw = s.hostSaw

/-- A completing command leaves `FINFO` and `CAUSE` as they were (10_state.md R38). -/
def FaultRecordKept (s t : State) : Prop :=
  t.status.fault = false → t.finfo = s.finfo ∧ t.status.cause = s.status.cause

/-! ## The invariant -/

/-- TREE is a tree in its node store, or empty (10_state.md R34, 41_huffman.md R124): the records in use are
there, the root is the last one, every internal node's children have smaller indices, leaves carry codes. -/
structure TreeForm (s : State) : Prop where
  count : s.nodes.length = s.nodeCount
  root : s.root = s.nodeCount - 1
  fits : s.nodeCount ≤ s.cfg.nodeCap
  children : ∀ k w l r : Nat, s.nodes[k]? = some (Node.internal w l r) → l < k ∧ r < k
  leaves : ∀ k w c : Nat, s.nodes[k]? = some (Node.leaf w c) → c < 2 ^ s.cfg.codeW

/-- What holds of every state of the machine between steps. -/
structure Inv (s : State) : Prop where
  /-- 00_scope.md R6 to R9. -/
  params : s.cfg.WF
  /-- 20_memory.md R66: `BUSY` is 1 only inside a command. -/
  notBusy : s.status.busy = false
  /-- 10_state.md R37: `CAUSE` is 0 when and only when `FAULT = 0`. -/
  cause : s.status.cause = .none ↔ s.status.fault = false
  /-- 10_state.md R29. -/
  doneNoFault : s.status.done = true → s.status.fault = false
  /-- 10_state.md R38: `FINFO` is written by faults only. -/
  finfo : s.status.fault = false → s.finfo = 0
  /-- 10_state.md R39, `P_LEN_RANGE`. -/
  textLen : s.textLen.toNat ≤ s.cfg.textCap
  codeLen : s.codeLen.toNat ≤ s.cfg.codeCap
  packedLen : s.packedLen.toNat ≤ s.cfg.packedCap
  /-- The spaces keep their form and their range (10_state.md R20, R22, R32, R33). -/
  textForm : Memory.wf s.text
  codeForm : Memory.wf s.code
  packedForm : Memory.wf s.packed
  tableForm : Memory.wf s.table
  freqForm : Memory.wf s.freq
  textRange : ∀ x ∈ s.text, x.1 < s.cfg.textCap
  codeRange : ∀ x ∈ s.code, x.1 < s.cfg.codeCap ∧ x.2 < 2 ^ s.cfg.codeW
  packedRange : ∀ x ∈ s.packed, x.1 < s.cfg.packedCap
  tableRange : ∀ x ∈ s.table,
    x.1 < 2 ^ s.cfg.codeW ∧ 1 ≤ x.2.len ∧ x.2.len ≤ s.cfg.maxLen ∧ x.2.bits < 2 ^ x.2.len
  freqRange : ∀ x ∈ s.freq, x.1 < 2 ^ s.cfg.codeW ∧ 1 ≤ x.2 ∧ x.2 ≤ s.cfg.codeCap
  /-- 10_state.md R34, 41_huffman.md R124. -/
  tree : TreeForm s
  /-- 10_state.md R25: the range of the next-code counters, unless a fault left them unspecified. -/
  nextE : s.status.fault = false → 256 ≤ s.nextE ∧ s.nextE ≤ 2 ^ s.cfg.codeW
  nextD : s.status.fault = false → 256 ≤ s.nextD ∧ s.nextD ≤ 2 ^ s.cfg.codeW

/-! ## Tables and trees -/

/-- No present entry is a prefix of the entry of another code; two codes have no equal entries either
(`P_TABLE_PF`, 70_reset_and_hazards.md R200). -/
def PrefixFree (t : Memory Entry) : Prop :=
  ∀ c d, c ≠ d → (tableAt t c).len ≠ 0 → (tableAt t d).len ≠ 0 →
    ¬ (tableAt t c).toBits <+: (tableAt t d).toBits

/-- The code `c` has an entry, and it is the bitstring `u` (`c` is in the set `M` of 42_bitpack.md R144). -/
def HasEntry (t : Memory Entry) (c : Nat) (u : List Bool) : Prop := (tableAt t c).len ≠ 0 ∧ (tableAt t c).toBits = u

/-- From node `k` the path `path` (`false` a left edge, `true` a right edge) leads to the leaf of code `c`
(41_huffman.md R126). -/
inductive LeadsTo (nodes : List Node) : Nat → List Bool → Nat → Prop
  | leaf {k w c : Nat} : nodes[k]? = some (Node.leaf w c) → LeadsTo nodes k [] c
  | left {k w l r c : Nat} {path : List Bool} : nodes[k]? = some (Node.internal w l r) →
      LeadsTo nodes l path c → LeadsTo nodes k (false :: path) c
  | right {k w l r c : Nat} {path : List Bool} : nodes[k]? = some (Node.internal w l r) →
      LeadsTo nodes r path c → LeadsTo nodes k (true :: path) c

/-- The bits of a code sequence under a table, in sequence order (30_encoding.md R90). -/
def bitsOfCodes (t : Memory Entry) (codes : List Nat) : List Bool := codes.flatMap fun c => (tableAt t c).toBits

/-- A bit sequence cut from the left into table entries, each the shortest that the bits spell and the entry
of one code only, until no beginning of what is left is an entry (42_bitpack.md R144, R146). -/
inductive Spells (t : Memory Entry) : List Bool → List Nat → List Bool → Prop
  | residue {rest : List Bool} : (∀ u, u ≠ [] → u <+: rest → codesSpelled t u = []) → Spells t rest [] rest
  | code {u bits rest : List Bool} {c : Nat} {codes : List Nat} : u ≠ [] → codesSpelled t u = [c] →
      (∀ v, v ≠ [] → v <+: u → v ≠ u → codesSpelled t v = []) → Spells t bits codes rest →
      Spells t (u ++ bits) (c :: codes) rest

/-! ## The source's unbounded dictionary coder -/

namespace Reference

/-- A string is a dictionary entry: it is one byte long, or one of the strings added so far. -/
def known (added : List (List Byte)) (w : List Byte) : Bool := w.length == 1 || added.contains w

/-- The code of a dictionary entry: the byte itself, or 256 plus the place of the string among those added
(30_encoding.md R86, R87). -/
def codeOf (added : List (List Byte)) : List Byte → Nat
  | [b] => b.toNat
  | w => 256 + added.idxOf w

/-- The encoder of 40_lzw.md R101 with no capacity: `w` is the current string. -/
def encodeFrom (added : List (List Byte)) (w : List Byte) : List Byte → List Nat
  | [] => if w = [] then [] else [codeOf added w]
  | c :: cs =>
    if known added (w ++ [c]) then encodeFrom added (w ++ [c]) cs
    else codeOf added w :: encodeFrom (added ++ [w ++ [c]]) [c] cs

/-- The codes of a text. -/
def lzwEncode (text : List Byte) : List Nat := encodeFrom [] [] text

/-- The string of a code, if the dictionary has one. -/
def stringOf (added : List (List Byte)) (k : Nat) : Option (List Byte) :=
  if k < 256 then some [BitVec.ofNat 8 k] else added[k - 256]?

/-- The decoder of 40_lzw.md R104 with no capacity, after the seed. -/
def decodeFrom (added : List (List Byte)) (w : List Byte) : List Nat → List Byte
  | [] => []
  | k :: ks =>
    let entry := (stringOf added k).getD (w ++ w.take 1)
    entry ++ decodeFrom (added ++ [w ++ entry.take 1]) entry ks

/-- The text of a code sequence whose first code, if any, is a single-byte code (40_lzw.md R104). -/
def lzwDecode : List Nat → List Byte
  | [] => []
  | k :: ks => BitVec.ofNat 8 k :: decodeFrom [] [BitVec.ofNat 8 k] ks

end Reference

end Sys2Proof.Machine
end

