-- ==== Sys2Proof/Certificates/Slice0/Obligations.lean ====
section
/-! DEFINITION. The statements for the provers. Each docstring names the rule of the spec it formalises. -/

open Sys2Proof Sys2Proof.Machine

/-! ## Command words -/

/-- The eight words of 30_encoding.md R82, bit for bit, and three words of 95_test_vectors.md V84 to V86 that
are illegal. -/
def Obligations.EightWordsDecodeAndThreeAreIllegal : Prop :=
  decode 0x00000000 = .ok .clr ∧ decode 0x00000001 = .ok .lzwe ∧ decode 0x00000002 = .ok .lzwd ∧
  decode 0x00000003 = .ok .hbld ∧ decode 0x00000004 = .ok .hgen ∧ decode 0x00000005 = .ok .pack ∧
  decode 0x00000006 = .ok .unpk ∧ decode 0x00000007 = .ok .unpkl ∧
  decode 0x00000008 = .error .reservedOpcode ∧ decode 0x00000101 = .error .nonzeroZeroField ∧
  decode 0xFFFFFFFF = .error .nonzeroZeroField

/-- Decoding and encoding agree, both ways: a word decodes to a command exactly when it is that command's word
(30_encoding.md R80, R82). -/
def Obligations.DecodeAndEncodeAgree : Prop :=
  ∀ (w : Word) (i : Instr), i.wf = true → (decode w = .ok i ↔ w = encode i)

/-- A word is rejected exactly when its low byte is 8 or more or a bit above it is set (30_encoding.md R83, R84). -/
def Obligations.DecodeRejectsExactlyTheIllegalWords : Prop :=
  ∀ w : Word, (∃ e, decode w = .error e) ↔ (8 ≤ w.toNat % 2 ^ 8 ∨ w.toNat / 2 ^ 8 ≠ 0)

/-! ## The step, and the issue of a command -/

/-- When the host's next access writes a command's word to `csr[CMD]`, the step is that command's meaning, on the
state with the access taken off the script; `withFetchWord` makes a word the next access (10_state.md R36; the script and that placing are the
model's choice, log entry 2). -/
def Obligations.StepRunsTheDecodedCommand : Prop :=
  ∀ (s : State) (w : Word) (i : Instr), decode w = .ok i →
    (∀ rest, s.script = .write .csr 0 w.toNat :: rest → step s = exec i { s with script := rest }) ∧
    step (s.withFetchWord 32 w.toNat) = exec i s

/-- A step performs the host's next access and takes it off the script; with none pending nothing changes (the
model's form of the event order of 20_memory.md R66; log entry 2). -/
def Obligations.StepPerformsTheNextAccess : Prop :=
  ∀ s : State, (∀ e rest, s.script = e :: rest → step s = hostEvent e { s with script := rest }) ∧
    (s.script = [] → step s = .next s)

/-- An illegal word written while idle and not faulted raises `ILLEGAL_CMD` with `FINFO` the word; nothing but
`STATUS` and `FINFO` changes (30_encoding.md R83). -/
def Obligations.IllegalWordRaisesIllegalCmd : Prop :=
  ∀ (s : State) (w : Word), Idle s → (8 ≤ w.toNat % 2 ^ 8 ∨ w.toNat / 2 ^ 8 ≠ 0) →
    ∃ t, hostEvent (.write .csr 0 w.toNat) s = .next t ∧
      FaultedWith (BitVec.ofNat 8 w.toNat) .illegalCmd w.toNat t ∧
      t.status.resid = s.status.resid ∧ t.status.desync = s.status.desync ∧
      t = { s with status := t.status, finfo := w }

/-- While faulted, a write to `csr[CMD]` of any word but the `CLR` word changes nothing at all; reads and data writes
work, and keep `STATUS` and `FINFO` (60_exceptions.md R174). -/
def Obligations.FaultedCoreIgnoresAllButClr : Prop :=
  ∀ s : State, s.status.busy = false → s.status.fault = true →
    (∀ w : Word, w ≠ 0 → hostEvent (.write .csr 0 w.toNat) s = .next s) ∧
    (∀ sp i, ∃ t, hostEvent (.read sp i) s = .next t ∧ t.status = s.status ∧ t.finfo = s.finfo) ∧
    (∀ sp i v, ¬(sp = .csr ∧ i = 0) →
      ∃ t, hostEvent (.write sp i v) s = .next t ∧ t.status = s.status ∧ t.finfo = s.finfo)

/-- The only ways out of the faulted state are `CLR` and reset, and both return all state to reset values
(60_exceptions.md R175); anything else keeps the one fault on record as it is (R177, which the spec derives from
R174). The script, `hostSaw` and `drawn` are the model's own and stay (log entries 2, 5 and 6). -/
def Obligations.OnlyClrAndResetLeaveTheFaultedState : Prop :=
  ∀ (s t : State) (e : HostEvent), s.status.fault = true → hostEvent e s = .next t →
    ((e = .reset ∨ ∃ v, e = .write .csr 0 v ∧ BitVec.ofNat 32 v = encode .clr) →
      t = { State.resetWith s.cfg with script := s.script, hostSaw := s.hostSaw, drawn := s.drawn }) ∧
    (¬(e = .reset ∨ ∃ v, e = .write .csr 0 v ∧ BitVec.ofNat 32 v = encode .clr) →
      t.status = s.status ∧ t.finfo = s.finfo)

/-- `CLR`, faulted or not, gives every item of state its reset value and does not set `DONE` (43_system.md R160,
10_state.md R47). -/
def Obligations.ClrReturnsAllStateToReset : Prop :=
  ∀ s : State, s.status.busy = false → ∃ t, exec .clr s = .next t ∧
    t.status.word = 0 ∧ t.finfo = 0 ∧ t.textLen = 0 ∧ t.codeLen = 0 ∧ t.packedLen = 0 ∧ t.bitLen = 0 ∧
    (∀ c, tableAt t.table c = { len := 0, bits := 0 }) ∧ tableCount t.table = 0 ∧ (∀ c, freqAt t.freq c = 0) ∧
    t.nodeCount = 0 ∧ t.root = 0 ∧ t.nextE = 256 ∧ t.nextD = 256 ∧
    t.dictE = initE ∧ t.dictD = initD ∧ t.wE = [] ∧ t.wD = [] ∧ t.cand = [] ∧
    (∀ i, t.text.get? i = none) ∧ (∀ i, t.code.get? i = none) ∧ (∀ i, t.packed.get? i = none) ∧ SameOutside s t

/-- The reset input puts every item of state at its reset value at any time, also while busy or faulted
(70_reset_and_hazards.md R190). The model's own fields stay (log entries 2, 5 and 6). -/
def Obligations.ResetInputWorksAtAnyTime : Prop :=
  ∀ s : State, hostEvent .reset s =
    .next { State.resetWith s.cfg with script := s.script, hostSaw := s.hostSaw, drawn := s.drawn }

/-- The registers read at reset as the tables of 10_state.md R35 and R47 say, on a core with any parameters. A `CODE_W` or
`MAXLEN` at or above `2^32` shows its low 32 bits, which is the model's choice (log entry 9). -/
def Obligations.RegistersReadTheirResetValues : Prop :=
  ∀ p : Params, (∀ i, i ≤ 9 → csrRead (State.resetWith p) i = 0) ∧
    csrRead (State.resetWith p) 10 = 256 ∧ csrRead (State.resetWith p) 11 = 256 ∧
    csrRead (State.resetWith p) 12 = BitVec.ofNat 32 p.codeW ∧
    csrRead (State.resetWith p) 13 = BitVec.ofNat 32 p.textCap ∧
    csrRead (State.resetWith p) 14 = BitVec.ofNat 32 p.codeCap ∧
    csrRead (State.resetWith p) 15 = BitVec.ofNat 32 p.packedCap ∧
    csrRead (State.resetWith p) 16 = BitVec.ofNat 32 p.maxLen

/-- After reset the core is idle with empty buffers; every command may be issued at once, gives the result for empty
sources, and does not fault (70_reset_and_hazards.md R191, which the spec derives from R47 and the command rules). -/
def Obligations.EveryCommandRunsFromReset : Prop :=
  ∀ p : Params, Idle (State.resetWith p) ∧ (State.resetWith p).status.word = 0 ∧
    (State.resetWith p).textLen = 0 ∧ (State.resetWith p).codeLen = 0 ∧ (State.resetWith p).packedLen = 0 ∧
    (∃ t, exec .clr (State.resetWith p) = .next t ∧ t.status.fault = false) ∧
    (∃ t, exec .lzwe (State.resetWith p) = .next t ∧ Completed 1 t ∧ t.codeLen = 0 ∧ t.nextE = 256) ∧
    (∃ t, exec .lzwd (State.resetWith p) = .next t ∧ Completed 2 t ∧ t.textLen = 0 ∧ t.nextD = 256) ∧
    (∃ t, exec .hbld (State.resetWith p) = .next t ∧ Completed 3 t ∧ t.nodeCount = 0 ∧ t.root = 0) ∧
    (∃ t, exec .hgen (State.resetWith p) = .next t ∧ Completed 4 t ∧ tableCount t.table = 0) ∧
    (∃ t, exec .pack (State.resetWith p) = .next t ∧ Completed 5 t ∧ t.packedLen = 0 ∧ t.bitLen = 0) ∧
    (∃ t, exec .unpk (State.resetWith p) = .next t ∧ Completed 6 t ∧ t.codeLen = 0 ∧ t.status.resid = false) ∧
    (∃ t, exec .unpkl (State.resetWith p) = .next t ∧ Completed 7 t ∧ t.codeLen = 0 ∧ t.status.resid = false)

/-! ## Whole-machine rules -/

/-- The invariant holds right after reset, whatever the parameters are. -/
def Obligations.InvariantHoldsAtReset : Prop := ∀ p : Params, p.WF → Inv (State.resetWith p)

/-- Every step keeps the invariant: the spaces keep their form and range, the lengths stay within the capacities, the
tree stays a tree, `BUSY` is 0, `CAUSE` and `FINFO` go with `FAULT` (10_state.md R22, R34, R37, R38, R39). That TABLE
keeps its form after a faulting `HGEN` too, where 60_exceptions.md R173 leaves every entry unspecified, is the model's choice
(log entry 4). -/
def Obligations.EveryStepKeepsTheInvariant : Prop := ∀ s t : State, Inv s → step s = .next t → Inv t

/-- `CFG_*` return the parameters and never change (10_state.md R43). A `CODE_W` or `MAXLEN` at or above `2^32` shows its low 32
bits, which is the model's choice (log entry 9). -/
def Obligations.ParametersNeverChange : Prop :=
  (∀ s t : State, step s = .next t → t.cfg = s.cfg) ∧
  (∀ s : State, csrRead s 12 = BitVec.ofNat 32 s.cfg.codeW ∧ csrRead s 13 = BitVec.ofNat 32 s.cfg.textCap ∧
    csrRead s 14 = BitVec.ofNat 32 s.cfg.codeCap ∧ csrRead s 15 = BitVec.ofNat 32 s.cfg.packedCap ∧
    csrRead s 16 = BitVec.ofNat 32 s.cfg.maxLen)

/-- Every command ends: it completes or faults, never both, and leaves the core not busy (70_reset_and_hazards.md
R198, which the spec derives from the pseudocode, 10_state.md R29). -/
def Obligations.EveryCommandEnds : Prop :=
  ∀ (s : State) (i : Instr), Inv s → ∃ t, exec i s = .next t ∧ t.status.busy = false ∧
    (s.status.fault = false → i ≠ .clr →
      t.status.lastop = opcode i ∧ (t.status.done = true ↔ t.status.fault = false))

/-- Fault entry of every command: `FAULT`, a cause, `DONE` and `BUSY` cleared, `LASTOP` the command, `RESID` and `DESYNC`
unchanged, the destination length 0, and no element of the destination buffer with a defined value (60_exceptions.md R173,
10_state.md R24 (c)). -/
def Obligations.FaultEntryOfEveryCommand : Prop :=
  ∀ (s t : State) (i : Instr), Idle s → exec i s = .next t → t.status.fault = true →
    t.status.cause ≠ .none ∧ t.status.done = false ∧ t.status.busy = false ∧ t.status.lastop = opcode i ∧
    t.status.resid = s.status.resid ∧ t.status.desync = s.status.desync ∧
    i ≠ .clr ∧ i ≠ .hbld ∧
    (i = .lzwe ∨ i = .unpk ∨ i = .unpkl → t.codeLen = 0 ∧ ∀ j, t.code.get? j = none) ∧
    (i = .lzwd → t.textLen = 0 ∧ ∀ j, t.text.get? j = none) ∧
    (i = .pack → t.packedLen = 0 ∧ t.bitLen = 0 ∧ ∀ j, t.packed.get? j = none)

/-- `RESID` is written by completing `UNPK` and `UNPKL` only, `DESYNC` by a completing `LZWD` only; `CLR` clears both
(10_state.md R29). -/
def Obligations.ResidAndDesyncHaveOneWriterEach : Prop :=
  ∀ (s t : State) (i : Instr), exec i s = .next t →
    (i ≠ .unpk → i ≠ .unpkl → i ≠ .clr → t.status.resid = s.status.resid) ∧
    (i ≠ .lzwd → i ≠ .clr → t.status.desync = s.status.desync) ∧
    (i = .clr → t.status.resid = false ∧ t.status.desync = false)

/-- No command's result depends on what an earlier command left in the dictionaries, the working strings or `CAND`: two
states that differ in those only give results that differ in those only (10_state.md R45). The next-code counters of
a completing run are among the results. -/
def Obligations.NoResultDependsOnHiddenState : Prop :=
  ∀ (s t : State) (i : Instr) (dE : DictE) (wE : List Byte) (dD : Memory (List Byte)) (wD : List Byte) (cd : List Bool),
    exec i s = .next t →
    ∃ t', exec i { s with dictE := dE, wE := wE, dictD := dD, wD := wD, cand := cd } = .next t' ∧
      t' = { t with dictE := t'.dictE, wE := t'.wE, dictD := t'.dictD, wD := t'.wD, cand := t'.cand }

/-- Issuing a command again on the same, defined, sources gives the same result again (10_state.md R48). Only the count of
free values drawn, the model's own, moves (log entry 5). -/
def Obligations.SameCommandTwiceSameResult : Prop :=
  ∀ (s t : State) (i : Instr), Idle s → i ≠ .clr → (∃ bs, s.text.Begins s.textLen bs) →
    (∃ ks, s.code.Begins s.codeLen ks) → (∃ bs, s.packed.Begins s.packedLen bs) →
    exec i s = .next t → t.status.fault = false → ∃ u, exec i t = .next u ∧ u = { t with drawn := u.drawn }

/-- Raising a parameter never changes the result of a run that completed under the smaller value (60_exceptions.md
R172, which the spec derives); the source codes are defined. -/
def Obligations.RaisingAParameterKeepsTheResult : Prop :=
  ∀ (s t : State) (i : Instr) (p : Params), Idle s → s.cfg.WF → (∃ ks, s.code.Begins s.codeLen ks) →
    s.cfg.codeW ≤ p.codeW → s.cfg.textCap ≤ p.textCap → s.cfg.codeCap ≤ p.codeCap →
    s.cfg.packedCap ≤ p.packedCap → s.cfg.maxLen ≤ p.maxLen → i ≠ .clr →
    exec i s = .next t → t.status.fault = false → exec i { s with cfg := p } = .next { t with cfg := p }

/-! ## LZWE and LZWD -/

/-- `LZWE` on a defined text whose codes fit completes, and CODE is what the source's unbounded encoder gives;
`NEXT_E` counts the insertions (40_lzw.md R101, R102 (e), 60_exceptions.md R172; the
spec derives the last two). -/
def Obligations.LzweWritesTheCodesOfTheText : Prop :=
  ∀ (s : State) (bs : List Byte), Idle s → s.text.Begins s.textLen bs → s.cfg.codeCap < 2 ^ 32 →
    (Reference.lzwEncode bs).length ≤ s.cfg.codeCap →
    256 + ((Reference.lzwEncode bs).length - 1) ≤ 2 ^ s.cfg.codeW →
    ∃ t, exec .lzwe s = .next t ∧ Completed 1 t ∧ t.code.Holds (Reference.lzwEncode bs) ∧
      t.codeLen.toNat = (Reference.lzwEncode bs).length ∧
      t.nextE = 256 + ((Reference.lzwEncode bs).length - 1)

/-- Where `LZWE` faults, exactly: `OUT_OVERFLOW` when a code is due and CODE is full, with the byte's index, or with
`TEXT_LEN` for the final flush; `DICT_FULL` when the insertion after an emission that fits is due and the dictionary is
full (40_lzw.md R101, 60_exceptions.md R171, R178). A byte after the first emits a code exactly when it makes the codes
of the text so far one more. -/
def Obligations.LzweFaultsWhereItsOutputEnds : Prop :=
  ∀ (s : State) (bs : List Byte), Idle s → s.text.Begins s.textLen bs → 8 ≤ s.cfg.codeW →
    (∀ i, 1 ≤ i → i < bs.length →
      (Reference.lzwEncode (bs.take (i + 1))).length = (Reference.lzwEncode (bs.take i)).length + 1 →
      ((Reference.lzwEncode (bs.take i)).length = s.cfg.codeCap + 1 → 256 + s.cfg.codeCap ≤ 2 ^ s.cfg.codeW →
        ∃ t, exec .lzwe s = .next t ∧ FaultedWith 1 .outOverflow i t) ∧
      (255 + (Reference.lzwEncode (bs.take i)).length = 2 ^ s.cfg.codeW →
        (Reference.lzwEncode (bs.take i)).length ≤ s.cfg.codeCap →
        ∃ t, exec .lzwe s = .next t ∧ FaultedWith 1 .dictFull i t)) ∧
    ((Reference.lzwEncode bs).length = s.cfg.codeCap + 1 → 256 + s.cfg.codeCap ≤ 2 ^ s.cfg.codeW →
      ∃ t, exec .lzwe s = .next t ∧ FaultedWith 1 .outOverflow bs.length t)

/-- After a completed `LZWE` the codes of `DICT_E` are exactly `0 .. NEXT_E - 1`, each for one string, no string twice, and
every longer string is a shorter one with a byte added (40_lzw.md R102 (b), (c), which the spec derives
from R101). -/
def Obligations.LzweDictionaryIsInjective : Prop :=
  ∀ s t : State, Idle s → exec .lzwe s = .next t → t.status.fault = false →
    t.dictE.map Prod.snd = List.range t.nextE ∧ (t.dictE.map Prod.fst).Nodup ∧
    (∀ w ∈ t.dictE.map Prod.fst, 2 ≤ w.length → w.dropLast ∈ t.dictE.map Prod.fst)

/-- `LZWD` on defined codes whose text fits completes, and TEXT is what the source's unbounded decoder gives; `NEXT_D`
counts the insertions; `DESYNC` is 1 exactly when some code after the first is above the next code to be created
(40_lzw.md R104, R105, R106 (c), 10_state.md R29). -/
def Obligations.LzwdWritesTheTextOfTheCodes : Prop :=
  ∀ (s : State) (ks : List Nat), Idle s → s.code.Begins s.codeLen ks → s.cfg.textCap < 2 ^ 32 → 1 ≤ s.cfg.textCap →
    (∀ k, ks.head? = some k → k ≤ 255) → (Reference.lzwDecode ks).length ≤ s.cfg.textCap →
    256 + (ks.length - 1) ≤ 2 ^ s.cfg.codeW →
    ∃ t, exec .lzwd s = .next t ∧ Completed 2 t ∧ t.text.Holds (Reference.lzwDecode ks) ∧
      t.textLen.toNat = (Reference.lzwDecode ks).length ∧ t.nextD = 256 + (ks.length - 1) ∧
      (t.status.desync = true ↔ ∃ i k : Nat, 1 ≤ i ∧ ks[i]? = some k ∧ 255 + i < k)

/-- Where `LZWD` faults: `BAD_FIRST_CODE` on a first code above 255, before anything else; then, at the first code that does not
fit, `OUT_OVERFLOW` before `DICT_FULL` (40_lzw.md R104, R108, 60_exceptions.md R171, R178). -/
def Obligations.LzwdFaultsAtTheFirstCodeThatDoesNotFit : Prop :=
  ∀ (s : State) (k0 : Nat) (ks : List Nat), Idle s → s.code.Begins s.codeLen (k0 :: ks) →
    (255 < k0 → ∃ t, exec .lzwd s = .next t ∧ FaultedWith 2 .badFirstCode k0 t) ∧
    (k0 ≤ 255 → 1 ≤ s.cfg.textCap → ∀ i, 1 ≤ i → i < (k0 :: ks).length →
      (Reference.lzwDecode ((k0 :: ks).take i)).length ≤ s.cfg.textCap → 255 + i ≤ 2 ^ s.cfg.codeW →
      (s.cfg.textCap < (Reference.lzwDecode ((k0 :: ks).take (i + 1))).length →
        ∃ t, exec .lzwd s = .next t ∧ FaultedWith 2 .outOverflow i t) ∧
      ((Reference.lzwDecode ((k0 :: ks).take (i + 1))).length ≤ s.cfg.textCap → 255 + i = 2 ^ s.cfg.codeW →
        ∃ t, exec .lzwd s = .next t ∧ FaultedWith 2 .dictFull i t))

/-- The keys of `DICT_D` after a completed `LZWD` are exactly `0 .. NEXT_D - 1` (40_lzw.md R106 (a), which the spec
derives, 10_state.md R31), and `W_D` is not empty after a source that is not (R106 (b)). -/
def Obligations.LzwdDictionaryKeysAreAllBelowNext : Prop :=
  ∀ s t : State, Idle s → exec .lzwd s = .next t → t.status.fault = false →
    (∀ k, (t.dictD.get? k).isSome = true ↔ k < t.nextD) ∧ (s.codeLen ≠ 0 → t.wD ≠ [])

/-- The round trip of the dictionary stage (40_lzw.md R107). -/
def Obligations.LzwdUndoesLzwe : Prop :=
  ∀ (s t : State) (bs : List Byte), Idle s → s.cfg.WF → s.text.Begins s.textLen bs → bs.length ≤ s.cfg.textCap →
    exec .lzwe s = .next t → t.status.fault = false →
    ∃ u, exec .lzwd t = .next u ∧ Completed 2 u ∧ u.text.Holds bs ∧ u.textLen.toNat = bs.length ∧
      u.status.desync = false ∧ u.nextD = t.nextE

/-- What `LZWE` and `LZWD` leave unchanged, completing or faulting (20_memory.md R74, 10_state.md R29, 60_exceptions.md R173):
everything but their destination buffer, their dictionary and working registers, `STATUS` and, on a fault, `FINFO`. -/
def Obligations.LzwCommandsLeaveTheRestUnchanged : Prop :=
  (∀ s t : State, Idle s → exec .lzwe s = .next t →
    SameText s t ∧ SamePacked s t ∧ t.bitLen = s.bitLen ∧ t.table = s.table ∧ t.freq = s.freq ∧ SameTree s t ∧
    SameDecoder s t ∧ t.cand = s.cand ∧ SameOutside s t ∧ FaultRecordKept s t ∧
    t.status.resid = s.status.resid ∧ t.status.desync = s.status.desync) ∧
  (∀ s t : State, Idle s → exec .lzwd s = .next t →
    SameCode s t ∧ SamePacked s t ∧ t.bitLen = s.bitLen ∧ t.table = s.table ∧ t.freq = s.freq ∧ SameTree s t ∧
    SameEncoder s t ∧ t.cand = s.cand ∧ SameOutside s t ∧ FaultRecordKept s t ∧
    t.status.resid = s.status.resid)

/-! ## HBLD and HGEN -/

/-- `HBLD` always completes; `FREQ[c]` is the number of indices with that code, 0 for a code that does not occur, and the
counts add up to the number of codes (41_huffman.md R121). -/
def Obligations.HbldCountsTheCodes : Prop :=
  ∀ (s : State) (ks : List Nat), Idle s → s.code.Begins s.codeLen ks →
    ∃ t, exec .hbld s = .next t ∧ Completed 3 t ∧ (∀ c, freqAt t.freq c = ks.count c) ∧
      (t.freq.map Prod.snd).sum = ks.length

/-- The shape of the tree `HBLD` builds on `n` distinct codes: `2n - 1` nodes, the root last; the leaves first, one for each
distinct code in ascending order, weighted by its count; then internal nodes whose weight is the sum of their
children's, both of smaller index; the root weighs as much as there are codes (41_huffman.md R122, and R124, which the
spec derives from R120). -/
def Obligations.HbldBuildsATreeOverTheDistinctCodes : Prop :=
  ∀ (s t : State) (ks syms : List Nat), Idle s → s.code.Begins s.codeLen ks →
    syms.Pairwise (· < ·) → (∀ c, c ∈ syms ↔ c ∈ ks) → exec .hbld s = .next t →
    t.nodeCount = 2 * syms.length - 1 ∧ t.root = t.nodeCount - 1 ∧ t.nodes.length = t.nodeCount ∧
    (∀ j c : Nat, syms[j]? = some c → t.nodes[j]? = some (Node.leaf (ks.count c) c)) ∧
    (∀ k : Nat, syms.length ≤ k → k < t.nodeCount → ∃ (l r : Nat) (a b : Node), t.nodes[l]? = some a ∧ t.nodes[r]? = some b ∧
      t.nodes[k]? = some (Node.internal (a.weight + b.weight) l r) ∧ l < k ∧ r < k ∧ l ≠ r) ∧
    (ks ≠ [] → ∃ a, t.nodes[t.root]? = some a ∧ a.weight = ks.length)

/-- The merge rule: the left child of an internal node is the lightest of the nodes that stand before it and have no parent
yet, the right child the lightest of the others; among equal weights the lower index goes first (41_huffman.md R123). -/
def Obligations.HbldMergesTheTwoLightestNodes : Prop :=
  ∀ (s t : State) (k w l r : Nat), Idle s → exec .hbld s = .next t → t.nodes[k]? = some (Node.internal w l r) →
    ∀ a b, t.nodes[l]? = some a → t.nodes[r]? = some b →
      (∀ k' w' l' r' : Nat, k' < k → t.nodes[k']? = some (Node.internal w' l' r') → l' ≠ l ∧ r' ≠ l ∧ l' ≠ r ∧ r' ≠ r) ∧
      (a.weight < b.weight ∨ a.weight = b.weight ∧ l < r) ∧
      (∀ (j : Nat) (x : Node), j < k → j ≠ l → j ≠ r → t.nodes[j]? = some x →
        (∀ k' w' l' r' : Nat, k' < k → t.nodes[k']? = some (Node.internal w' l' r') → l' ≠ j ∧ r' ≠ j) →
        b.weight < x.weight ∨ b.weight = x.weight ∧ r < j)

/-- `HBLD` then `HGEN` compute a function of the multiset of codes: the order of the codes does not matter (41_huffman.md
R130, which the spec derives). -/
def Obligations.TreeAndTableDependOnTheCountsOnly : Prop :=
  ∀ (s s' t t' : State) (ks ks' : List Nat), Idle s → Idle s' → s.cfg = s'.cfg → s.code.Begins s.codeLen ks →
    s'.code.Begins s'.codeLen ks' → ks.Perm ks' → exec .hbld s = .next t → exec .hbld s' = .next t' →
    t.freq = t'.freq ∧ t.nodes = t'.nodes ∧ t.nodeCount = t'.nodeCount ∧ t.root = t'.root ∧
    (∀ u u', exec .hgen t = .next u → exec .hgen t' = .next u' →
      u.status.fault = u'.status.fault ∧ (u.status.fault = false → u.table = u'.table))

/-- `HGEN` on the empty tree makes every entry absent and completes (41_huffman.md R128). -/
def Obligations.HgenOfTheEmptyTreeIsEmpty : Prop :=
  ∀ s : State, Idle s → s.nodeCount = 0 → ∃ t, exec .hgen s = .next t ∧ Completed 4 t ∧
    (∀ c, (tableAt t.table c).len = 0) ∧ tableCount t.table = 0

/-- `HGEN` on a single leaf gives its code the 1-bit bitstring `0`, every other code none (41_huffman.md R127). -/
def Obligations.HgenOfASingleLeafIsOneBit : Prop :=
  ∀ (s : State) (w c : Nat), Idle s → s.nodeCount ≠ 0 → s.nodes[s.root]? = some (Node.leaf w c) →
    ∃ t, exec .hgen s = .next t ∧ Completed 4 t ∧ tableAt t.table c = { len := 1, bits := 0 } ∧
      (∀ d, d ≠ c → (tableAt t.table d).len = 0) ∧ tableCount t.table = 1

/-- `HGEN` on a tree with an internal root and no path beyond `MAXLEN` completes: a present entry is the bitstring of a path from
the root to a leaf of that code, and every leaf's code has an entry (41_huffman.md R126). -/
def Obligations.HgenWritesTheRootToLeafPaths : Prop :=
  ∀ (s : State) (w l r : Nat), Idle s → TreeForm s → s.nodes[s.root]? = some (Node.internal w l r) →
    (∀ path c, LeadsTo s.nodes s.root path c → path.length ≤ s.cfg.maxLen) →
    ∃ t, exec .hgen s = .next t ∧ Completed 4 t ∧
      (∀ c, (tableAt t.table c).len ≠ 0 →
        ∃ path, LeadsTo s.nodes s.root path c ∧ tableAt t.table c = Entry.ofBits path) ∧
      (∀ path c, LeadsTo s.nodes s.root path c → (tableAt t.table c).len ≠ 0)

/-- `HGEN` on a tree with a path beyond `MAXLEN` raises `CODE_TOO_LONG` with the code of the first such leaf in left-first
order (41_huffman.md R126, 60_exceptions.md R171). -/
def Obligations.HgenFaultsAtTheFirstLongPath : Prop :=
  ∀ (s : State) (w l r : Nat), Idle s → TreeForm s → s.nodes[s.root]? = some (Node.internal w l r) →
    (∃ path c, LeadsTo s.nodes s.root path c ∧ s.cfg.maxLen < path.length) →
    ∃ t path c, exec .hgen s = .next t ∧ FaultedWith 4 .codeTooLong c t ∧ LeadsTo s.nodes s.root path c ∧
      s.cfg.maxLen < path.length ∧
      (∀ path' c', LeadsTo s.nodes s.root path' c' → s.cfg.maxLen < path'.length →
        path' = path ∨ List.Lex (fun a b => a = false ∧ b = true) path path')

/-- The table of a tree `HBLD` built: exactly the distinct codes have an entry, and no entry is a prefix of another
(41_huffman.md R129 (a), (b), (c); the spec derives (c) from R126). -/
def Obligations.BuiltTablesArePrefixFree : Prop :=
  ∀ (s t u : State) (ks : List Nat), Idle s → s.code.Begins s.codeLen ks → exec .hbld s = .next t →
    exec .hgen t = .next u → u.status.fault = false →
    PrefixFree u.table ∧ (∀ c, (tableAt u.table c).len ≠ 0 ↔ c ∈ ks) ∧ tableCount u.table = ks.dedup.length

/-- What `HBLD` and `HGEN` leave unchanged, completing or faulting (20_memory.md R74, 10_state.md R29, 60_exceptions.md R173). -/
def Obligations.HuffmanCommandsLeaveTheRestUnchanged : Prop :=
  (∀ s t : State, Idle s → exec .hbld s = .next t →
    SameText s t ∧ SameCode s t ∧ SamePacked s t ∧ t.bitLen = s.bitLen ∧ t.table = s.table ∧ SameEncoder s t ∧
    SameDecoder s t ∧ t.cand = s.cand ∧ SameOutside s t ∧ FaultRecordKept s t ∧
    t.status.resid = s.status.resid ∧ t.status.desync = s.status.desync) ∧
  (∀ s t : State, Idle s → exec .hgen s = .next t →
    SameText s t ∧ SameCode s t ∧ SamePacked s t ∧ t.bitLen = s.bitLen ∧ t.freq = s.freq ∧ SameTree s t ∧
    SameEncoder s t ∧ SameDecoder s t ∧ t.cand = s.cand ∧ SameOutside s t ∧ FaultRecordKept s t ∧
    t.status.resid = s.status.resid ∧ t.status.desync = s.status.desync)

/-! ## PACK, UNPK and UNPKL -/

/-- `PACK` on defined codes that all have an entry and whose bits fit completes. `BITLEN` is the sum of the entries' lengths,
`PACKED_LEN` its eighth rounded up, and bit `8j + p` of the concatenated bitstrings is bit `7 - p` of byte `j`, with zeros
beyond the last (42_bitpack.md R140, R141, 30_encoding.md R90). -/
def Obligations.PackWritesTheConcatenatedBits : Prop :=
  ∀ (s : State) (ks : List Nat), Idle s → s.code.Begins s.codeLen ks → s.cfg.packedCap < 2 ^ 29 →
    (∀ k ∈ ks, (tableAt s.table k).len ≠ 0) → (ks.map fun k => (tableAt s.table k).len).sum ≤ 8 * s.cfg.packedCap →
    ∃ t, exec .pack s = .next t ∧ Completed 5 t ∧
      t.bitLen.toNat = (ks.map fun k => (tableAt s.table k).len).sum ∧
      t.packedLen.toNat = (t.bitLen.toNat + 7) / 8 ∧
      (∀ j, j < t.packedLen.toNat → ∃ byte : Byte, t.packed.get? j = some byte ∧
        ∀ p, p < 8 → byte.getLsbD (7 - p) = (bitsOfCodes s.table ks).getD (8 * j + p) false) ∧
      (∀ j, t.packedLen.toNat ≤ j → t.packed.get? j = none)

/-- Where `PACK` faults: at the first code without an entry (`TABLE_MISS`) or whose bits no longer fit (`OUT_OVERFLOW`), with its
index, the first before the second (42_bitpack.md R140, 60_exceptions.md R171, R178). -/
def Obligations.PackFaultsAtTheFirstBadCode : Prop :=
  ∀ (s : State) (ks : List Nat) (i k : Nat), Idle s → s.code.Begins s.codeLen ks → ks[i]? = some k →
    (∀ j ∈ ks.take i, (tableAt s.table j).len ≠ 0) →
    ((ks.take i).map fun j => (tableAt s.table j).len).sum ≤ 8 * s.cfg.packedCap →
    ((tableAt s.table k).len = 0 → ∃ t, exec .pack s = .next t ∧ FaultedWith 5 .tableMiss i t) ∧
    ((tableAt s.table k).len ≠ 0 →
      8 * s.cfg.packedCap < ((ks.take (i + 1)).map fun j => (tableAt s.table j).len).sum →
      ∃ t, exec .pack s = .next t ∧ FaultedWith 5 .outOverflow i t)

/-- Bit number `n` of the stream lies in byte `n div 8` at position `7 - (n mod 8)` (20_memory.md R60). -/
def Obligations.StreamBitsAreMostSignificantFirst : Prop :=
  ∀ (bytes : List Byte) (n : Nat), (streamBits bytes)[n]? = bytes[n / 8]?.map fun b => b.getLsbD (7 - n % 8)

/-- `UNPK` on a defined buffer whose whole bit stream the table cuts into codes that fit completes with those codes; what is
left over is dropped and shows in `RESID` (42_bitpack.md R142, R144, R146). -/
def Obligations.UnpkCutsTheWholeStream : Prop :=
  ∀ (s : State) (bytes : List Byte) (codes : List Nat) (rest : List Bool), Idle s →
    s.packed.Begins s.packedLen bytes → s.cfg.codeCap < 2 ^ 32 → Spells s.table (streamBits bytes) codes rest →
    codes.length ≤ s.cfg.codeCap →
    ∃ t, exec .unpk s = .next t ∧ Completed 6 t ∧ t.code.Holds codes ∧ t.codeLen.toNat = codes.length ∧
      t.cand = rest ∧ (t.status.resid = true ↔ rest ≠ [])

/-- `UNPKL` does the same on the first `BITLEN` bits, and raises `BITLEN_RANGE` before anything else when there are not that
many (42_bitpack.md R143, R144, 60_exceptions.md R178). -/
def Obligations.UnpklCutsTheFirstBitlenBits : Prop :=
  (∀ (s : State) (bytes : List Byte) (codes : List Nat) (rest : List Bool), Idle s →
    s.packed.Begins s.packedLen bytes → s.cfg.codeCap < 2 ^ 32 → s.bitLen.toNat ≤ 8 * s.packedLen.toNat →
    Spells s.table ((streamBits bytes).take s.bitLen.toNat) codes rest → codes.length ≤ s.cfg.codeCap →
    ∃ t, exec .unpkl s = .next t ∧ Completed 7 t ∧ t.code.Holds codes ∧ t.codeLen.toNat = codes.length ∧
      t.cand = rest ∧ (t.status.resid = true ↔ rest ≠ [])) ∧
  (∀ s : State, Idle s → 8 * s.packedLen.toNat < s.bitLen.toNat →
    ∃ t, exec .unpkl s = .next t ∧ FaultedWith 7 .bitlenRange s.bitLen.toNat t ∧ t.codeLen = 0)

/-- With `BITLEN = 8 * PACKED_LEN`, `UNPKL` gives the result `UNPK` gives, but for `LASTOP` (42_bitpack.md R143). -/
def Obligations.UnpklOnAFullBufferIsUnpk : Prop :=
  ∀ s t : State, Idle s → s.bitLen.toNat = 8 * s.packedLen.toNat → exec .unpk s = .next t →
    exec .unpkl s = .next { t with status := { t.status with lastop := 0x07 } }

/-- The codes a candidate is held against are the set `M` of 42_bitpack.md R144, each code once. Where the scan faults: at the bit that completes a bitstring two codes share (`TABLE_MULTI`), or a code when CODE is full
(`OUT_OVERFLOW`), with the bit's index, in `UNPK` and in `UNPKL` alike (42_bitpack.md R144, 60_exceptions.md R171). -/
def Obligations.ScanFaultsAtTheCompletingBit : Prop :=
  (∀ (m : Memory Entry) (u : List Bool), Memory.wf m →
    (∀ c, c ∈ codesSpelled m u ↔ HasEntry m c u) ∧ (codesSpelled m u).Nodup ∧
    (2 ≤ (codesSpelled m u).length ↔ ∃ c d, c ≠ d ∧ HasEntry m c u ∧ HasEntry m d u)) ∧
  (∀ (s : State) (bytes : List Byte) (codes : List Nat) (rest : List Bool) (n : Nat) (b : Bool), Idle s →
    s.packed.Begins s.packedLen bytes → (streamBits bytes)[n]? = some b →
    Spells s.table ((streamBits bytes).take n) codes rest → codes.length ≤ s.cfg.codeCap →
    (2 ≤ (codesSpelled s.table (rest ++ [b])).length →
      (∃ t, exec .unpk s = .next t ∧ FaultedWith 6 .tableMulti n t) ∧
      (n < s.bitLen.toNat → s.bitLen.toNat ≤ 8 * s.packedLen.toNat →
        ∃ t, exec .unpkl s = .next t ∧ FaultedWith 7 .tableMulti n t)) ∧
    (∀ c, codesSpelled s.table (rest ++ [b]) = [c] → codes.length = s.cfg.codeCap →
      (∃ t, exec .unpk s = .next t ∧ FaultedWith 6 .outOverflow n t) ∧
      (n < s.bitLen.toNat → s.bitLen.toNat ≤ 8 * s.packedLen.toNat →
        ∃ t, exec .unpkl s = .next t ∧ FaultedWith 7 .outOverflow n t)))

/-- `UNPKL` undoes `PACK` under a prefix-free table (42_bitpack.md R145 (a), which the spec derives). -/
def Obligations.UnpklUndoesPack : Prop :=
  ∀ (s t : State) (ks : List Nat), Inv s → Idle s → s.code.Begins s.codeLen ks → PrefixFree s.table →
    exec .pack s = .next t → t.status.fault = false →
    ∃ u, exec .unpkl t = .next u ∧ Completed 7 u ∧ u.code.Holds ks ∧ u.codeLen.toNat = ks.length ∧
      u.status.resid = false

/-- What `UNPK` makes of the padding after `PACK` under a prefix-free table: with an all-zero entry of `d` bits it adds
`p div d` copies of its code and leaves residue exactly when `p mod d` is not 0; with none of at most `p` bits it adds
nothing (42_bitpack.md R145 (b), which the spec derives). -/
def Obligations.UnpkReadsThePadding : Prop :=
  ∀ (s t : State) (ks : List Nat) (p : Nat), Inv s → Idle s → s.code.Begins s.codeLen ks → PrefixFree s.table →
    exec .pack s = .next t → t.status.fault = false → p = 8 * t.packedLen.toNat - t.bitLen.toNat →
    (∀ z d, d ≠ 0 → tableAt s.table z = { len := d, bits := 0 } → ks.length + p / d ≤ s.cfg.codeCap →
      ∃ u, exec .unpk t = .next u ∧ Completed 6 u ∧ u.code.Holds (ks ++ List.replicate (p / d) z) ∧
        u.codeLen.toNat = ks.length + p / d ∧ (u.status.resid = true ↔ p % d ≠ 0)) ∧
    ((∀ z d, d ≠ 0 → d ≤ p → tableAt s.table z ≠ { len := d, bits := 0 }) →
      ∃ u, exec .unpk t = .next u ∧ Completed 6 u ∧ u.code.Holds ks ∧ u.codeLen.toNat = ks.length ∧
        (u.status.resid = true ↔ p ≠ 0))

/-- The full round trip: `COMPRESS` on a text, then `DECOMPRESSL`, returns the text (70_reset_and_hazards.md R200,
which the spec derives, 30_encoding.md R94). -/
def Obligations.CompressThenDecompresslReturnsTheText : Prop :=
  ∀ (s s1 s2 s3 s4 : State) (bs : List Byte), Inv s → Idle s → s.text.Begins s.textLen bs →
    exec .lzwe s = .next s1 → exec .hbld s1 = .next s2 → exec .hgen s2 = .next s3 → exec .pack s3 = .next s4 →
    s4.status.fault = false →
    ∃ s5 s6, exec .unpkl s4 = .next s5 ∧ exec .lzwd s5 = .next s6 ∧ Completed 2 s6 ∧ s6.text.Holds bs ∧
      s6.textLen.toNat = bs.length ∧ s6.status.desync = false ∧ s6.status.resid = false

/-- What `PACK`, `UNPK` and `UNPKL` leave unchanged, completing or faulting (20_memory.md R74, 10_state.md R29, 60_exceptions.md
R173). -/
def Obligations.PackCommandsLeaveTheRestUnchanged : Prop :=
  (∀ s t : State, Idle s → exec .pack s = .next t →
    SameText s t ∧ SameCode s t ∧ t.table = s.table ∧ t.freq = s.freq ∧ SameTree s t ∧ SameEncoder s t ∧
    SameDecoder s t ∧ t.cand = s.cand ∧ SameOutside s t ∧ FaultRecordKept s t ∧
    t.status.resid = s.status.resid ∧ t.status.desync = s.status.desync) ∧
  (∀ (s t : State) (i : Instr), Idle s → i = .unpk ∨ i = .unpkl → exec i s = .next t →
    SameText s t ∧ SamePacked s t ∧ t.bitLen = s.bitLen ∧ t.table = s.table ∧ t.freq = s.freq ∧ SameTree s t ∧
    SameEncoder s t ∧ SameDecoder s t ∧ SameOutside s t ∧ FaultRecordKept s t ∧
    t.status.desync = s.status.desync)

/-! ## Data formats -/

/-- An entry and the bitstring it holds are one to one (30_encoding.md R88, R89): the first bit of the string is the most
significant of the low `LEN` bits of `BITS`. -/
def Obligations.EntryAndBitstringAreOneToOne : Prop :=
  (∀ bs : List Bool, (Entry.ofBits bs).toBits = bs ∧ (Entry.ofBits bs).bits < 2 ^ bs.length) ∧
  (∀ e : Entry, e.bits < 2 ^ e.len → Entry.ofBits e.toBits = e) ∧
  (∀ (e : Entry) (i : Nat), i < e.len → e.toBits[i]? = some (e.bits.testBit (e.len - 1 - i)))

/-- `STATUS` as the host reads it (10_state.md R37): each field in its place, the reserved bits 0 (R44), and the cause codes of
60_exceptions.md R171. -/
def Obligations.StatusWordHasEachFieldInItsPlace : Prop :=
  (Cause.code .none = 0 ∧ Cause.code .illegalCmd = 1 ∧ Cause.code .dictFull = 2 ∧ Cause.code .outOverflow = 3 ∧
    Cause.code .badFirstCode = 4 ∧ Cause.code .tableMiss = 5 ∧ Cause.code .tableMulti = 6 ∧ Cause.code .codeTooLong = 7 ∧
    Cause.code .bitlenRange = 8) ∧
  ∀ st : Status, st.word.getLsbD 0 = st.busy ∧ st.word.getLsbD 1 = st.done ∧ st.word.getLsbD 2 = st.fault ∧
    st.word.getLsbD 3 = st.resid ∧ st.word.getLsbD 4 = st.desync ∧ st.word.extractLsb' 5 3 = 0 ∧
    st.word.extractLsb' 8 4 = st.cause.code ∧ st.word.extractLsb' 12 4 = 0 ∧
    st.word.extractLsb' 16 8 = st.lastop ∧ st.word.extractLsb' 24 8 = 0

/-! ## Host accesses -/

/-- A host read changes no state of the core (20_memory.md R65, 43_system.md R161): only the value the host got and the count of
free values, the model's own, move (log entries 5 and 6), and a register or an element with a value reads as that value
(10_state.md R35, R37 to R43; a number at or above `2^32` in a register shows its low 32 bits, log entry 9). A TABLE entry and a
node record have each field in its place (30_encoding.md R88, R92; log entry 10). -/
def Obligations.HostReadsChangeNothing : Prop :=
  (∀ (p : Params) (e : Entry), e.len < 2 ^ p.lenW → e.value p % 2 ^ p.lenW = e.len ∧ e.value p / 2 ^ p.lenW = e.bits) ∧
  (∀ (p : Params) (w sym v : Nat), w < 2 ^ p.cntW → sym < 2 ^ p.codeW → v = (Node.leaf w sym).value p →
    v % 2 = 0 ∧ v / 2 % 2 ^ p.cntW = w ∧ v / 2 ^ (1 + p.cntW) % 2 ^ p.codeW = sym ∧
    v / 2 ^ (1 + p.cntW + p.codeW) = 0) ∧
  (∀ (p : Params) (w l r v : Nat), w < 2 ^ p.cntW → l < 2 ^ p.idxW → v = (Node.internal w l r).value p →
    v % 2 = 1 ∧ v / 2 % 2 ^ p.cntW = w ∧ v / 2 ^ (1 + p.cntW) % 2 ^ p.codeW = 0 ∧
    v / 2 ^ (1 + p.cntW + p.codeW) % 2 ^ p.idxW = l ∧ v / 2 ^ (1 + p.cntW + p.codeW + p.idxW) = r) ∧
  ∀ (s : State) (sp : Space) (i : Nat), s.status.busy = false →
    ∃ t, hostEvent (.read sp i) s = .next t ∧ t = { s with hostSaw := t.hostSaw, drawn := t.drawn } ∧
      (sp = .csr → t.hostSaw = some (csrRead s i).toNat) ∧
      (sp = .csr → (i = 0 ∨ 17 ≤ i → t.hostSaw = some 0) ∧ (i = 1 → t.hostSaw = some s.status.word.toNat) ∧
        (i = 2 → t.hostSaw = some s.finfo.toNat) ∧ (i = 3 → t.hostSaw = some s.textLen.toNat) ∧
        (i = 4 → t.hostSaw = some s.codeLen.toNat) ∧ (i = 5 → t.hostSaw = some s.packedLen.toNat) ∧
        (i = 6 → t.hostSaw = some s.bitLen.toNat) ∧ (i = 7 → t.hostSaw = some (tableCount s.table % 2 ^ 32)) ∧
        (i = 8 → t.hostSaw = some (s.nodeCount % 2 ^ 32)) ∧ (i = 9 → t.hostSaw = some (s.root % 2 ^ 32)) ∧
        (i = 10 → t.hostSaw = some (s.nextE % 2 ^ 32)) ∧ (i = 11 → t.hostSaw = some (s.nextD % 2 ^ 32)) ∧
        (i = 12 → t.hostSaw = some (s.cfg.codeW % 2 ^ 32)) ∧ (i = 13 → t.hostSaw = some (s.cfg.textCap % 2 ^ 32)) ∧
        (i = 14 → t.hostSaw = some (s.cfg.codeCap % 2 ^ 32)) ∧ (i = 15 → t.hostSaw = some (s.cfg.packedCap % 2 ^ 32)) ∧
        (i = 16 → t.hostSaw = some (s.cfg.maxLen % 2 ^ 32))) ∧
      (∀ b, sp = .text → i < s.cfg.textCap → s.text.get? i = some b → t.hostSaw = some b.toNat) ∧
      (∀ c, sp = .code → i < s.cfg.codeCap → s.code.get? i = some c → t.hostSaw = some c) ∧
      (∀ b, sp = .packed → i < s.cfg.packedCap → s.packed.get? i = some b → t.hostSaw = some b.toNat) ∧
      (sp = .table → i < 2 ^ s.cfg.codeW → t.hostSaw = some ((tableAt s.table i).value s.cfg)) ∧
      (sp = .freq → i < 2 ^ s.cfg.codeW → t.hostSaw = some (freqAt s.freq i)) ∧
      (∀ n, sp = .tree → i < s.nodeCount → s.nodes[i]? = some n → t.hostSaw = some (n.value s.cfg))

/-- CSR numbers 17 and above read 0 and ignore writes; the reserved fields of `STATUS` read 0 (10_state.md R44). -/
def Obligations.ReservedCsrsReadZeroAndIgnoreWrites : Prop :=
  ∀ (s : State) (i v : Nat), s.status.busy = false → 17 ≤ i →
    (∃ t, hostEvent (.read .csr i) s = .next t ∧ t.hostSaw = some 0) ∧ hostEvent (.write .csr i v) s = .next s ∧
    s.status.word.extractLsb' 5 3 = 0 ∧ s.status.word.extractLsb' 12 4 = 0 ∧ s.status.word.extractLsb' 24 8 = 0

/-- A length above the capacity is ignored, a legal one changes only the register (10_state.md R39); `BITLEN` takes any 32-bit
value (R40, 43_system.md R162). -/
def Obligations.LengthWritesAreCheckedAgainstTheCapacity : Prop :=
  ∀ (s : State) (v : Word), s.status.busy = false →
    hostEvent (.write .csr 3 v.toNat) s =
      .next (if v.toNat ≤ s.cfg.textCap then { s with textLen := v } else s) ∧
    hostEvent (.write .csr 4 v.toNat) s =
      .next (if v.toNat ≤ s.cfg.codeCap then { s with codeLen := v } else s) ∧
    hostEvent (.write .csr 5 v.toNat) s =
      .next (if v.toNat ≤ s.cfg.packedCap then { s with packedLen := v } else s) ∧
    hostEvent (.write .csr 6 v.toNat) s = .next { s with bitLen := v }

/-- A write of a TABLE entry: ignored when `LEN > MAXLEN`; else the entry holds `LEN` and the bits of `BITS` below `LEN`, absent
when `LEN = 0`, and no other entry changes (30_encoding.md R88, 43_system.md R162). -/
def Obligations.TableWritesClearTheBitsAboveLen : Prop :=
  ∀ (s : State) (c len bits : Nat), s.status.busy = false → Memory.wf s.table → c < 2 ^ s.cfg.codeW →
    len < 2 ^ s.cfg.lenW → bits < 2 ^ s.cfg.maxLen →
    (s.cfg.maxLen < len → hostEvent (.write .table c (len + bits * 2 ^ s.cfg.lenW)) s = .next s) ∧
    (len ≤ s.cfg.maxLen → ∃ t, hostEvent (.write .table c (len + bits * 2 ^ s.cfg.lenW)) s = .next t ∧
      t = { s with table := t.table } ∧ tableAt t.table c = { len := len, bits := bits % 2 ^ len } ∧
      (∀ d, d ≠ c → tableAt t.table d = tableAt s.table d))

/-- A write to TEXT, CODE or PACKED in range stores the low bits of the value at that index and changes nothing else
(43_system.md R162). -/
def Obligations.BufferWritesStoreOneElement : Prop :=
  ∀ (s : State) (i v : Nat), s.status.busy = false →
    (i < s.cfg.textCap → ∃ t, hostEvent (.write .text i v) s = .next t ∧ t = { s with text := t.text } ∧
      t.text.get? i = some (BitVec.ofNat 8 v) ∧ (∀ j, j ≠ i → t.text.get? j = s.text.get? j)) ∧
    (i < s.cfg.codeCap → ∃ t, hostEvent (.write .code i v) s = .next t ∧ t = { s with code := t.code } ∧
      t.code.get? i = some (v % 2 ^ s.cfg.codeW) ∧ (∀ j, j ≠ i → t.code.get? j = s.code.get? j)) ∧
    (i < s.cfg.packedCap → ∃ t, hostEvent (.write .packed i v) s = .next t ∧ t = { s with packed := t.packed } ∧
      t.packed.get? i = some (BitVec.ofNat 8 v) ∧ (∀ j, j ≠ i → t.packed.get? j = s.packed.get? j))

/-- The writes that are ignored: FREQ and TREE, the read-only registers, and any index out of range (20_memory.md R63, R73,
10_state.md R35, 43_system.md R162). -/
def Obligations.ReadOnlyAndOutOfRangeWritesAreIgnored : Prop :=
  ∀ (s : State) (sp : Space) (i v : Nat), s.status.busy = false →
    (sp = .freq ∨ sp = .tree ∨ (sp = .csr ∧ (i = 1 ∨ i = 2 ∨ 7 ≤ i)) ∨ (sp ≠ .csr ∧ elementCount s.cfg sp ≤ i)) →
    hostEvent (.write sp i v) s = .next s

/-- While busy every access but a read of `STATUS` and the reset input is refused (70_reset_and_hazards.md R194, 10_state.md
R36). -/
def Obligations.AccessWhileBusyIsRefused : Prop :=
  ∀ s : State, s.status.busy = true →
    (∀ sp i v, hostEvent (.write sp i v) s = .refused .accessWhileBusy) ∧
    (∀ sp i, ¬(sp = .csr ∧ i = 1) → hostEvent (.read sp i) s = .refused .accessWhileBusy) ∧
    (hostEvent (.read .csr 1) s = .next { s with hostSaw := some s.status.word.toNat })

/-! ## Host scripts -/

/-- The lines of a host script that are more than one access (30_encoding.md R94, R95). `LOAD TEXT`, `LOAD CODE` and
`LOAD PACKED` put a source in place and its length, and change nothing else, no element past the source either; after `LOAD TABLE` the table holds exactly the
listed entries; a bitstring longer than `MAXLEN` is ignored (R88; where no element value holds it, that is the model's
choice, log entry 17); `COMPRESS`, `DECOMPRESS` and `DECOMPRESSL` are their commands in order. That lines run through the
script is the model's choice (log entries 2, 16). -/
def Obligations.HostScriptLinesActAsGiven : Prop :=
  (∀ (s : State) (bytes : List Byte), s.status.busy = false → s.cfg.textCap < 2 ^ 32 → bytes.length ≤ s.cfg.textCap →
    ∃ t, runLines [.loadText bytes] s = .next t ∧ t = { s with text := t.text, textLen := t.textLen } ∧
      t.text.Begins t.textLen bytes ∧ ∀ j, bytes.length ≤ j → t.text.get? j = s.text.get? j) ∧
  (∀ (s : State) (ks : List Nat), s.status.busy = false → s.cfg.codeCap < 2 ^ 32 → ks.length ≤ s.cfg.codeCap →
    (∀ k ∈ ks, k < 2 ^ s.cfg.codeW) →
    ∃ t, runLines [.loadCode ks] s = .next t ∧ t = { s with code := t.code, codeLen := t.codeLen } ∧
      t.code.Begins t.codeLen ks ∧ ∀ j, ks.length ≤ j → t.code.get? j = s.code.get? j) ∧
  (∀ (s : State) (bytes : List Byte), s.status.busy = false → s.cfg.packedCap < 2 ^ 32 → bytes.length ≤ s.cfg.packedCap →
    ∃ t, runLines [.loadPacked bytes] s = .next t ∧ t = { s with packed := t.packed, packedLen := t.packedLen } ∧
      t.packed.Begins t.packedLen bytes ∧ ∀ j, bytes.length ≤ j → t.packed.get? j = s.packed.get? j) ∧
  (∀ (s : State) (l : List (Nat × List Bool)), s.status.busy = false → Memory.wf s.table →
    (∀ x ∈ s.table, x.1 < 2 ^ s.cfg.codeW) → (l.map Prod.fst).Nodup →
    (∀ x ∈ l, x.1 < 2 ^ s.cfg.codeW ∧ x.2.length ≤ s.cfg.maxLen) →
    ∃ t, runLines [.loadTable l] s = .next t ∧ t = { s with table := t.table } ∧
      (∀ x ∈ l, tableAt t.table x.1 = Entry.ofBits x.2) ∧
      (∀ c, c ∉ l.map Prod.fst → (tableAt t.table c).len = 0)) ∧
  (∀ (s : State) (c : Nat) (bits : List Bool), s.status.busy = false → s.cfg.maxLen < bits.length →
    runLines [.wrTable c bits] s = .next s) ∧
  (∀ s : State, runLines [.compress] s =
      andThen (andThen (andThen (exec .lzwe s) (exec .hbld)) (exec .hgen)) (exec .pack) ∧
    runLines [.decompress] s = andThen (exec .unpk s) (exec .lzwd) ∧
    runLines [.decompressl] s = andThen (exec .unpkl s) (exec .lzwd))
end

