-- ==== Sys2Proof/Laws/State.lean ====
section
/-! SUPPORT. One lemma for each field of State (and of STATUS) and each named update: what the field is after it. All true
by rfl, so that no later proof unfolds a record update. -/

namespace Sys2Proof.Machine

section
variable (s : State)

/-! ### `State.draw` -/

@[simp] theorem State.draw_cfg (n : Nat) : (s.draw n).cfg = s.cfg := rfl
@[simp] theorem State.draw_status (n : Nat) : (s.draw n).status = s.status := rfl
@[simp] theorem State.draw_finfo (n : Nat) : (s.draw n).finfo = s.finfo := rfl
@[simp] theorem State.draw_textLen (n : Nat) : (s.draw n).textLen = s.textLen := rfl
@[simp] theorem State.draw_codeLen (n : Nat) : (s.draw n).codeLen = s.codeLen := rfl
@[simp] theorem State.draw_packedLen (n : Nat) : (s.draw n).packedLen = s.packedLen := rfl
@[simp] theorem State.draw_bitLen (n : Nat) : (s.draw n).bitLen = s.bitLen := rfl
@[simp] theorem State.draw_text (n : Nat) : (s.draw n).text = s.text := rfl
@[simp] theorem State.draw_code (n : Nat) : (s.draw n).code = s.code := rfl
@[simp] theorem State.draw_packed (n : Nat) : (s.draw n).packed = s.packed := rfl
@[simp] theorem State.draw_table (n : Nat) : (s.draw n).table = s.table := rfl
@[simp] theorem State.draw_freq (n : Nat) : (s.draw n).freq = s.freq := rfl
@[simp] theorem State.draw_nodes (n : Nat) : (s.draw n).nodes = s.nodes := rfl
@[simp] theorem State.draw_nodeCount (n : Nat) : (s.draw n).nodeCount = s.nodeCount := rfl
@[simp] theorem State.draw_root (n : Nat) : (s.draw n).root = s.root := rfl
@[simp] theorem State.draw_dictE (n : Nat) : (s.draw n).dictE = s.dictE := rfl
@[simp] theorem State.draw_nextE (n : Nat) : (s.draw n).nextE = s.nextE := rfl
@[simp] theorem State.draw_wE (n : Nat) : (s.draw n).wE = s.wE := rfl
@[simp] theorem State.draw_dictD (n : Nat) : (s.draw n).dictD = s.dictD := rfl
@[simp] theorem State.draw_nextD (n : Nat) : (s.draw n).nextD = s.nextD := rfl
@[simp] theorem State.draw_wD (n : Nat) : (s.draw n).wD = s.wD := rfl
@[simp] theorem State.draw_cand (n : Nat) : (s.draw n).cand = s.cand := rfl
@[simp] theorem State.draw_script (n : Nat) : (s.draw n).script = s.script := rfl
@[simp] theorem State.draw_hostSaw (n : Nat) : (s.draw n).hostSaw = s.hostSaw := rfl
@[simp] theorem State.draw_drawn (n : Nat) : (s.draw n).drawn = s.drawn + n := rfl

/-! ### `accept` -/

@[simp] theorem accept_cfg (op : BitVec 8) : (accept op s).cfg = s.cfg := rfl
@[simp] theorem accept_busy (op : BitVec 8) : (accept op s).status.busy = true := rfl
@[simp] theorem accept_done (op : BitVec 8) : (accept op s).status.done = false := rfl
@[simp] theorem accept_fault (op : BitVec 8) : (accept op s).status.fault = s.status.fault := rfl
@[simp] theorem accept_resid (op : BitVec 8) : (accept op s).status.resid = s.status.resid := rfl
@[simp] theorem accept_desync (op : BitVec 8) : (accept op s).status.desync = s.status.desync := rfl
@[simp] theorem accept_cause (op : BitVec 8) : (accept op s).status.cause = s.status.cause := rfl
@[simp] theorem accept_lastop (op : BitVec 8) : (accept op s).status.lastop = op := rfl
@[simp] theorem accept_finfo (op : BitVec 8) : (accept op s).finfo = s.finfo := rfl
@[simp] theorem accept_textLen (op : BitVec 8) : (accept op s).textLen = s.textLen := rfl
@[simp] theorem accept_codeLen (op : BitVec 8) : (accept op s).codeLen = s.codeLen := rfl
@[simp] theorem accept_packedLen (op : BitVec 8) : (accept op s).packedLen = s.packedLen := rfl
@[simp] theorem accept_bitLen (op : BitVec 8) : (accept op s).bitLen = s.bitLen := rfl
@[simp] theorem accept_text (op : BitVec 8) : (accept op s).text = s.text := rfl
@[simp] theorem accept_code (op : BitVec 8) : (accept op s).code = s.code := rfl
@[simp] theorem accept_packed (op : BitVec 8) : (accept op s).packed = s.packed := rfl
@[simp] theorem accept_table (op : BitVec 8) : (accept op s).table = s.table := rfl
@[simp] theorem accept_freq (op : BitVec 8) : (accept op s).freq = s.freq := rfl
@[simp] theorem accept_nodes (op : BitVec 8) : (accept op s).nodes = s.nodes := rfl
@[simp] theorem accept_nodeCount (op : BitVec 8) : (accept op s).nodeCount = s.nodeCount := rfl
@[simp] theorem accept_root (op : BitVec 8) : (accept op s).root = s.root := rfl
@[simp] theorem accept_dictE (op : BitVec 8) : (accept op s).dictE = s.dictE := rfl
@[simp] theorem accept_nextE (op : BitVec 8) : (accept op s).nextE = s.nextE := rfl
@[simp] theorem accept_wE (op : BitVec 8) : (accept op s).wE = s.wE := rfl
@[simp] theorem accept_dictD (op : BitVec 8) : (accept op s).dictD = s.dictD := rfl
@[simp] theorem accept_nextD (op : BitVec 8) : (accept op s).nextD = s.nextD := rfl
@[simp] theorem accept_wD (op : BitVec 8) : (accept op s).wD = s.wD := rfl
@[simp] theorem accept_cand (op : BitVec 8) : (accept op s).cand = s.cand := rfl
@[simp] theorem accept_script (op : BitVec 8) : (accept op s).script = s.script := rfl
@[simp] theorem accept_hostSaw (op : BitVec 8) : (accept op s).hostSaw = s.hostSaw := rfl
@[simp] theorem accept_drawn (op : BitVec 8) : (accept op s).drawn = s.drawn := rfl

/-! ### `complete` -/

@[simp] theorem complete_cfg : (complete s).cfg = s.cfg := rfl
@[simp] theorem complete_busy : (complete s).status.busy = false := rfl
@[simp] theorem complete_done : (complete s).status.done = true := rfl
@[simp] theorem complete_fault : (complete s).status.fault = s.status.fault := rfl
@[simp] theorem complete_resid : (complete s).status.resid = s.status.resid := rfl
@[simp] theorem complete_desync : (complete s).status.desync = s.status.desync := rfl
@[simp] theorem complete_cause : (complete s).status.cause = s.status.cause := rfl
@[simp] theorem complete_lastop : (complete s).status.lastop = s.status.lastop := rfl
@[simp] theorem complete_finfo : (complete s).finfo = s.finfo := rfl
@[simp] theorem complete_textLen : (complete s).textLen = s.textLen := rfl
@[simp] theorem complete_codeLen : (complete s).codeLen = s.codeLen := rfl
@[simp] theorem complete_packedLen : (complete s).packedLen = s.packedLen := rfl
@[simp] theorem complete_bitLen : (complete s).bitLen = s.bitLen := rfl
@[simp] theorem complete_text : (complete s).text = s.text := rfl
@[simp] theorem complete_code : (complete s).code = s.code := rfl
@[simp] theorem complete_packed : (complete s).packed = s.packed := rfl
@[simp] theorem complete_table : (complete s).table = s.table := rfl
@[simp] theorem complete_freq : (complete s).freq = s.freq := rfl
@[simp] theorem complete_nodes : (complete s).nodes = s.nodes := rfl
@[simp] theorem complete_nodeCount : (complete s).nodeCount = s.nodeCount := rfl
@[simp] theorem complete_root : (complete s).root = s.root := rfl
@[simp] theorem complete_dictE : (complete s).dictE = s.dictE := rfl
@[simp] theorem complete_nextE : (complete s).nextE = s.nextE := rfl
@[simp] theorem complete_wE : (complete s).wE = s.wE := rfl
@[simp] theorem complete_dictD : (complete s).dictD = s.dictD := rfl
@[simp] theorem complete_nextD : (complete s).nextD = s.nextD := rfl
@[simp] theorem complete_wD : (complete s).wD = s.wD := rfl
@[simp] theorem complete_cand : (complete s).cand = s.cand := rfl
@[simp] theorem complete_script : (complete s).script = s.script := rfl
@[simp] theorem complete_hostSaw : (complete s).hostSaw = s.hostSaw := rfl
@[simp] theorem complete_drawn : (complete s).drawn = s.drawn := rfl

/-! ### `raise` -/

@[simp] theorem raise_cfg (r : Raise) : (raise r s).cfg = s.cfg := rfl
@[simp] theorem raise_busy (r : Raise) : (raise r s).status.busy = false := rfl
@[simp] theorem raise_done (r : Raise) : (raise r s).status.done = false := rfl
@[simp] theorem raise_fault (r : Raise) : (raise r s).status.fault = true := rfl
@[simp] theorem raise_resid (r : Raise) : (raise r s).status.resid = s.status.resid := rfl
@[simp] theorem raise_desync (r : Raise) : (raise r s).status.desync = s.status.desync := rfl
@[simp] theorem raise_cause (r : Raise) : (raise r s).status.cause = r.cause := rfl
@[simp] theorem raise_lastop (r : Raise) : (raise r s).status.lastop = s.status.lastop := rfl
@[simp] theorem raise_finfo (r : Raise) : (raise r s).finfo = BitVec.ofNat 32 r.info := rfl
@[simp] theorem raise_textLen (r : Raise) : (raise r s).textLen = s.textLen := rfl
@[simp] theorem raise_codeLen (r : Raise) : (raise r s).codeLen = s.codeLen := rfl
@[simp] theorem raise_packedLen (r : Raise) : (raise r s).packedLen = s.packedLen := rfl
@[simp] theorem raise_bitLen (r : Raise) : (raise r s).bitLen = s.bitLen := rfl
@[simp] theorem raise_text (r : Raise) : (raise r s).text = s.text := rfl
@[simp] theorem raise_code (r : Raise) : (raise r s).code = s.code := rfl
@[simp] theorem raise_packed (r : Raise) : (raise r s).packed = s.packed := rfl
@[simp] theorem raise_table (r : Raise) : (raise r s).table = s.table := rfl
@[simp] theorem raise_freq (r : Raise) : (raise r s).freq = s.freq := rfl
@[simp] theorem raise_nodes (r : Raise) : (raise r s).nodes = s.nodes := rfl
@[simp] theorem raise_nodeCount (r : Raise) : (raise r s).nodeCount = s.nodeCount := rfl
@[simp] theorem raise_root (r : Raise) : (raise r s).root = s.root := rfl
@[simp] theorem raise_dictE (r : Raise) : (raise r s).dictE = s.dictE := rfl
@[simp] theorem raise_nextE (r : Raise) : (raise r s).nextE = s.nextE := rfl
@[simp] theorem raise_wE (r : Raise) : (raise r s).wE = s.wE := rfl
@[simp] theorem raise_dictD (r : Raise) : (raise r s).dictD = s.dictD := rfl
@[simp] theorem raise_nextD (r : Raise) : (raise r s).nextD = s.nextD := rfl
@[simp] theorem raise_wD (r : Raise) : (raise r s).wD = s.wD := rfl
@[simp] theorem raise_cand (r : Raise) : (raise r s).cand = s.cand := rfl
@[simp] theorem raise_script (r : Raise) : (raise r s).script = s.script := rfl
@[simp] theorem raise_hostSaw (r : Raise) : (raise r s).hostSaw = s.hostSaw := rfl
@[simp] theorem raise_drawn (r : Raise) : (raise r s).drawn = s.drawn := rfl

/-! ### `loseText` -/

@[simp] theorem loseText_cfg : (loseText s).cfg = s.cfg := rfl
@[simp] theorem loseText_status : (loseText s).status = s.status := rfl
@[simp] theorem loseText_finfo : (loseText s).finfo = s.finfo := rfl
@[simp] theorem loseText_textLen : (loseText s).textLen = 0 := rfl
@[simp] theorem loseText_codeLen : (loseText s).codeLen = s.codeLen := rfl
@[simp] theorem loseText_packedLen : (loseText s).packedLen = s.packedLen := rfl
@[simp] theorem loseText_bitLen : (loseText s).bitLen = s.bitLen := rfl
@[simp] theorem loseText_text : (loseText s).text = [] := rfl
@[simp] theorem loseText_code : (loseText s).code = s.code := rfl
@[simp] theorem loseText_packed : (loseText s).packed = s.packed := rfl
@[simp] theorem loseText_table : (loseText s).table = s.table := rfl
@[simp] theorem loseText_freq : (loseText s).freq = s.freq := rfl
@[simp] theorem loseText_nodes : (loseText s).nodes = s.nodes := rfl
@[simp] theorem loseText_nodeCount : (loseText s).nodeCount = s.nodeCount := rfl
@[simp] theorem loseText_root : (loseText s).root = s.root := rfl
@[simp] theorem loseText_dictE : (loseText s).dictE = s.dictE := rfl
@[simp] theorem loseText_nextE : (loseText s).nextE = s.nextE := rfl
@[simp] theorem loseText_wE : (loseText s).wE = s.wE := rfl
@[simp] theorem loseText_dictD : (loseText s).dictD = s.dictD := rfl
@[simp] theorem loseText_nextD : (loseText s).nextD = s.nextD := rfl
@[simp] theorem loseText_wD : (loseText s).wD = s.wD := rfl
@[simp] theorem loseText_cand : (loseText s).cand = s.cand := rfl
@[simp] theorem loseText_script : (loseText s).script = s.script := rfl
@[simp] theorem loseText_hostSaw : (loseText s).hostSaw = s.hostSaw := rfl
@[simp] theorem loseText_drawn : (loseText s).drawn = s.drawn := rfl

/-! ### `loseCode` -/

@[simp] theorem loseCode_cfg : (loseCode s).cfg = s.cfg := rfl
@[simp] theorem loseCode_status : (loseCode s).status = s.status := rfl
@[simp] theorem loseCode_finfo : (loseCode s).finfo = s.finfo := rfl
@[simp] theorem loseCode_textLen : (loseCode s).textLen = s.textLen := rfl
@[simp] theorem loseCode_codeLen : (loseCode s).codeLen = 0 := rfl
@[simp] theorem loseCode_packedLen : (loseCode s).packedLen = s.packedLen := rfl
@[simp] theorem loseCode_bitLen : (loseCode s).bitLen = s.bitLen := rfl
@[simp] theorem loseCode_text : (loseCode s).text = s.text := rfl
@[simp] theorem loseCode_code : (loseCode s).code = [] := rfl
@[simp] theorem loseCode_packed : (loseCode s).packed = s.packed := rfl
@[simp] theorem loseCode_table : (loseCode s).table = s.table := rfl
@[simp] theorem loseCode_freq : (loseCode s).freq = s.freq := rfl
@[simp] theorem loseCode_nodes : (loseCode s).nodes = s.nodes := rfl
@[simp] theorem loseCode_nodeCount : (loseCode s).nodeCount = s.nodeCount := rfl
@[simp] theorem loseCode_root : (loseCode s).root = s.root := rfl
@[simp] theorem loseCode_dictE : (loseCode s).dictE = s.dictE := rfl
@[simp] theorem loseCode_nextE : (loseCode s).nextE = s.nextE := rfl
@[simp] theorem loseCode_wE : (loseCode s).wE = s.wE := rfl
@[simp] theorem loseCode_dictD : (loseCode s).dictD = s.dictD := rfl
@[simp] theorem loseCode_nextD : (loseCode s).nextD = s.nextD := rfl
@[simp] theorem loseCode_wD : (loseCode s).wD = s.wD := rfl
@[simp] theorem loseCode_cand : (loseCode s).cand = s.cand := rfl
@[simp] theorem loseCode_script : (loseCode s).script = s.script := rfl
@[simp] theorem loseCode_hostSaw : (loseCode s).hostSaw = s.hostSaw := rfl
@[simp] theorem loseCode_drawn : (loseCode s).drawn = s.drawn := rfl

/-! ### `losePacked` -/

@[simp] theorem losePacked_cfg : (losePacked s).cfg = s.cfg := rfl
@[simp] theorem losePacked_status : (losePacked s).status = s.status := rfl
@[simp] theorem losePacked_finfo : (losePacked s).finfo = s.finfo := rfl
@[simp] theorem losePacked_textLen : (losePacked s).textLen = s.textLen := rfl
@[simp] theorem losePacked_codeLen : (losePacked s).codeLen = s.codeLen := rfl
@[simp] theorem losePacked_packedLen : (losePacked s).packedLen = 0 := rfl
@[simp] theorem losePacked_bitLen : (losePacked s).bitLen = 0 := rfl
@[simp] theorem losePacked_text : (losePacked s).text = s.text := rfl
@[simp] theorem losePacked_code : (losePacked s).code = s.code := rfl
@[simp] theorem losePacked_packed : (losePacked s).packed = [] := rfl
@[simp] theorem losePacked_table : (losePacked s).table = s.table := rfl
@[simp] theorem losePacked_freq : (losePacked s).freq = s.freq := rfl
@[simp] theorem losePacked_nodes : (losePacked s).nodes = s.nodes := rfl
@[simp] theorem losePacked_nodeCount : (losePacked s).nodeCount = s.nodeCount := rfl
@[simp] theorem losePacked_root : (losePacked s).root = s.root := rfl
@[simp] theorem losePacked_dictE : (losePacked s).dictE = s.dictE := rfl
@[simp] theorem losePacked_nextE : (losePacked s).nextE = s.nextE := rfl
@[simp] theorem losePacked_wE : (losePacked s).wE = s.wE := rfl
@[simp] theorem losePacked_dictD : (losePacked s).dictD = s.dictD := rfl
@[simp] theorem losePacked_nextD : (losePacked s).nextD = s.nextD := rfl
@[simp] theorem losePacked_wD : (losePacked s).wD = s.wD := rfl
@[simp] theorem losePacked_cand : (losePacked s).cand = s.cand := rfl
@[simp] theorem losePacked_script : (losePacked s).script = s.script := rfl
@[simp] theorem losePacked_hostSaw : (losePacked s).hostSaw = s.hostSaw := rfl
@[simp] theorem losePacked_drawn : (losePacked s).drawn = s.drawn := rfl

/-! ### `loseTable` -/

@[simp] theorem loseTable_cfg : (loseTable s).cfg = s.cfg := rfl
@[simp] theorem loseTable_status : (loseTable s).status = s.status := rfl
@[simp] theorem loseTable_finfo : (loseTable s).finfo = s.finfo := rfl
@[simp] theorem loseTable_textLen : (loseTable s).textLen = s.textLen := rfl
@[simp] theorem loseTable_codeLen : (loseTable s).codeLen = s.codeLen := rfl
@[simp] theorem loseTable_packedLen : (loseTable s).packedLen = s.packedLen := rfl
@[simp] theorem loseTable_bitLen : (loseTable s).bitLen = s.bitLen := rfl
@[simp] theorem loseTable_text : (loseTable s).text = s.text := rfl
@[simp] theorem loseTable_code : (loseTable s).code = s.code := rfl
@[simp] theorem loseTable_packed : (loseTable s).packed = s.packed := rfl
@[simp] theorem loseTable_table : (loseTable s).table = freeTable s.cfg s.drawn := rfl
@[simp] theorem loseTable_freq : (loseTable s).freq = s.freq := rfl
@[simp] theorem loseTable_nodes : (loseTable s).nodes = s.nodes := rfl
@[simp] theorem loseTable_nodeCount : (loseTable s).nodeCount = s.nodeCount := rfl
@[simp] theorem loseTable_root : (loseTable s).root = s.root := rfl
@[simp] theorem loseTable_dictE : (loseTable s).dictE = s.dictE := rfl
@[simp] theorem loseTable_nextE : (loseTable s).nextE = s.nextE := rfl
@[simp] theorem loseTable_wE : (loseTable s).wE = s.wE := rfl
@[simp] theorem loseTable_dictD : (loseTable s).dictD = s.dictD := rfl
@[simp] theorem loseTable_nextD : (loseTable s).nextD = s.nextD := rfl
@[simp] theorem loseTable_wD : (loseTable s).wD = s.wD := rfl
@[simp] theorem loseTable_cand : (loseTable s).cand = s.cand := rfl
@[simp] theorem loseTable_script : (loseTable s).script = s.script := rfl
@[simp] theorem loseTable_hostSaw : (loseTable s).hostSaw = s.hostSaw := rfl
@[simp] theorem loseTable_drawn : (loseTable s).drawn = s.drawn + 1 := rfl

/-! ### `loseEncoder` -/

@[simp] theorem loseEncoder_cfg : (loseEncoder s).cfg = s.cfg := rfl
@[simp] theorem loseEncoder_status : (loseEncoder s).status = s.status := rfl
@[simp] theorem loseEncoder_finfo : (loseEncoder s).finfo = s.finfo := rfl
@[simp] theorem loseEncoder_textLen : (loseEncoder s).textLen = s.textLen := rfl
@[simp] theorem loseEncoder_codeLen : (loseEncoder s).codeLen = s.codeLen := rfl
@[simp] theorem loseEncoder_packedLen : (loseEncoder s).packedLen = s.packedLen := rfl
@[simp] theorem loseEncoder_bitLen : (loseEncoder s).bitLen = s.bitLen := rfl
@[simp] theorem loseEncoder_text : (loseEncoder s).text = s.text := rfl
@[simp] theorem loseEncoder_code : (loseEncoder s).code = s.code := rfl
@[simp] theorem loseEncoder_packed : (loseEncoder s).packed = s.packed := rfl
@[simp] theorem loseEncoder_table : (loseEncoder s).table = s.table := rfl
@[simp] theorem loseEncoder_freq : (loseEncoder s).freq = s.freq := rfl
@[simp] theorem loseEncoder_nodes : (loseEncoder s).nodes = s.nodes := rfl
@[simp] theorem loseEncoder_nodeCount : (loseEncoder s).nodeCount = s.nodeCount := rfl
@[simp] theorem loseEncoder_root : (loseEncoder s).root = s.root := rfl
@[simp] theorem loseEncoder_dictE : (loseEncoder s).dictE = Config.freeDictE s.drawn := rfl
@[simp] theorem loseEncoder_nextE : (loseEncoder s).nextE = freeBelow s.cfg.nextW s.drawn := rfl
@[simp] theorem loseEncoder_wE : (loseEncoder s).wE = Config.freeString s.drawn := rfl
@[simp] theorem loseEncoder_dictD : (loseEncoder s).dictD = s.dictD := rfl
@[simp] theorem loseEncoder_nextD : (loseEncoder s).nextD = s.nextD := rfl
@[simp] theorem loseEncoder_wD : (loseEncoder s).wD = s.wD := rfl
@[simp] theorem loseEncoder_cand : (loseEncoder s).cand = s.cand := rfl
@[simp] theorem loseEncoder_script : (loseEncoder s).script = s.script := rfl
@[simp] theorem loseEncoder_hostSaw : (loseEncoder s).hostSaw = s.hostSaw := rfl
@[simp] theorem loseEncoder_drawn : (loseEncoder s).drawn = s.drawn + 1 := rfl

/-! ### `loseDecoder` -/

@[simp] theorem loseDecoder_cfg : (loseDecoder s).cfg = s.cfg := rfl
@[simp] theorem loseDecoder_status : (loseDecoder s).status = s.status := rfl
@[simp] theorem loseDecoder_finfo : (loseDecoder s).finfo = s.finfo := rfl
@[simp] theorem loseDecoder_textLen : (loseDecoder s).textLen = s.textLen := rfl
@[simp] theorem loseDecoder_codeLen : (loseDecoder s).codeLen = s.codeLen := rfl
@[simp] theorem loseDecoder_packedLen : (loseDecoder s).packedLen = s.packedLen := rfl
@[simp] theorem loseDecoder_bitLen : (loseDecoder s).bitLen = s.bitLen := rfl
@[simp] theorem loseDecoder_text : (loseDecoder s).text = s.text := rfl
@[simp] theorem loseDecoder_code : (loseDecoder s).code = s.code := rfl
@[simp] theorem loseDecoder_packed : (loseDecoder s).packed = s.packed := rfl
@[simp] theorem loseDecoder_table : (loseDecoder s).table = s.table := rfl
@[simp] theorem loseDecoder_freq : (loseDecoder s).freq = s.freq := rfl
@[simp] theorem loseDecoder_nodes : (loseDecoder s).nodes = s.nodes := rfl
@[simp] theorem loseDecoder_nodeCount : (loseDecoder s).nodeCount = s.nodeCount := rfl
@[simp] theorem loseDecoder_root : (loseDecoder s).root = s.root := rfl
@[simp] theorem loseDecoder_dictE : (loseDecoder s).dictE = s.dictE := rfl
@[simp] theorem loseDecoder_nextE : (loseDecoder s).nextE = s.nextE := rfl
@[simp] theorem loseDecoder_wE : (loseDecoder s).wE = s.wE := rfl
@[simp] theorem loseDecoder_dictD : (loseDecoder s).dictD = Config.freeDictD s.drawn := rfl
@[simp] theorem loseDecoder_nextD : (loseDecoder s).nextD = freeBelow s.cfg.nextW s.drawn := rfl
@[simp] theorem loseDecoder_wD : (loseDecoder s).wD = Config.freeString s.drawn := rfl
@[simp] theorem loseDecoder_cand : (loseDecoder s).cand = s.cand := rfl
@[simp] theorem loseDecoder_script : (loseDecoder s).script = s.script := rfl
@[simp] theorem loseDecoder_hostSaw : (loseDecoder s).hostSaw = s.hostSaw := rfl
@[simp] theorem loseDecoder_drawn : (loseDecoder s).drawn = s.drawn + 1 := rfl

/-! ### `loseCand` -/

@[simp] theorem loseCand_cfg : (loseCand s).cfg = s.cfg := rfl
@[simp] theorem loseCand_status : (loseCand s).status = s.status := rfl
@[simp] theorem loseCand_finfo : (loseCand s).finfo = s.finfo := rfl
@[simp] theorem loseCand_textLen : (loseCand s).textLen = s.textLen := rfl
@[simp] theorem loseCand_codeLen : (loseCand s).codeLen = s.codeLen := rfl
@[simp] theorem loseCand_packedLen : (loseCand s).packedLen = s.packedLen := rfl
@[simp] theorem loseCand_bitLen : (loseCand s).bitLen = s.bitLen := rfl
@[simp] theorem loseCand_text : (loseCand s).text = s.text := rfl
@[simp] theorem loseCand_code : (loseCand s).code = s.code := rfl
@[simp] theorem loseCand_packed : (loseCand s).packed = s.packed := rfl
@[simp] theorem loseCand_table : (loseCand s).table = s.table := rfl
@[simp] theorem loseCand_freq : (loseCand s).freq = s.freq := rfl
@[simp] theorem loseCand_nodes : (loseCand s).nodes = s.nodes := rfl
@[simp] theorem loseCand_nodeCount : (loseCand s).nodeCount = s.nodeCount := rfl
@[simp] theorem loseCand_root : (loseCand s).root = s.root := rfl
@[simp] theorem loseCand_dictE : (loseCand s).dictE = s.dictE := rfl
@[simp] theorem loseCand_nextE : (loseCand s).nextE = s.nextE := rfl
@[simp] theorem loseCand_wE : (loseCand s).wE = s.wE := rfl
@[simp] theorem loseCand_dictD : (loseCand s).dictD = s.dictD := rfl
@[simp] theorem loseCand_nextD : (loseCand s).nextD = s.nextD := rfl
@[simp] theorem loseCand_wD : (loseCand s).wD = s.wD := rfl
@[simp] theorem loseCand_cand : (loseCand s).cand = Config.freeBits s.drawn := rfl
@[simp] theorem loseCand_script : (loseCand s).script = s.script := rfl
@[simp] theorem loseCand_hostSaw : (loseCand s).hostSaw = s.hostSaw := rfl
@[simp] theorem loseCand_drawn : (loseCand s).drawn = s.drawn + 1 := rfl

/-! ### `setResid` -/

@[simp] theorem setResid_cfg (cand : List Bool) : (setResid cand s).cfg = s.cfg := rfl
@[simp] theorem setResid_busy (cand : List Bool) : (setResid cand s).status.busy = s.status.busy := rfl
@[simp] theorem setResid_done (cand : List Bool) : (setResid cand s).status.done = s.status.done := rfl
@[simp] theorem setResid_fault (cand : List Bool) : (setResid cand s).status.fault = s.status.fault := rfl
@[simp] theorem setResid_resid (cand : List Bool) : (setResid cand s).status.resid = !cand.isEmpty := rfl
@[simp] theorem setResid_desync (cand : List Bool) : (setResid cand s).status.desync = s.status.desync := rfl
@[simp] theorem setResid_cause (cand : List Bool) : (setResid cand s).status.cause = s.status.cause := rfl
@[simp] theorem setResid_lastop (cand : List Bool) : (setResid cand s).status.lastop = s.status.lastop := rfl
@[simp] theorem setResid_finfo (cand : List Bool) : (setResid cand s).finfo = s.finfo := rfl
@[simp] theorem setResid_textLen (cand : List Bool) : (setResid cand s).textLen = s.textLen := rfl
@[simp] theorem setResid_codeLen (cand : List Bool) : (setResid cand s).codeLen = s.codeLen := rfl
@[simp] theorem setResid_packedLen (cand : List Bool) : (setResid cand s).packedLen = s.packedLen := rfl
@[simp] theorem setResid_bitLen (cand : List Bool) : (setResid cand s).bitLen = s.bitLen := rfl
@[simp] theorem setResid_text (cand : List Bool) : (setResid cand s).text = s.text := rfl
@[simp] theorem setResid_code (cand : List Bool) : (setResid cand s).code = s.code := rfl
@[simp] theorem setResid_packed (cand : List Bool) : (setResid cand s).packed = s.packed := rfl
@[simp] theorem setResid_table (cand : List Bool) : (setResid cand s).table = s.table := rfl
@[simp] theorem setResid_freq (cand : List Bool) : (setResid cand s).freq = s.freq := rfl
@[simp] theorem setResid_nodes (cand : List Bool) : (setResid cand s).nodes = s.nodes := rfl
@[simp] theorem setResid_nodeCount (cand : List Bool) : (setResid cand s).nodeCount = s.nodeCount := rfl
@[simp] theorem setResid_root (cand : List Bool) : (setResid cand s).root = s.root := rfl
@[simp] theorem setResid_dictE (cand : List Bool) : (setResid cand s).dictE = s.dictE := rfl
@[simp] theorem setResid_nextE (cand : List Bool) : (setResid cand s).nextE = s.nextE := rfl
@[simp] theorem setResid_wE (cand : List Bool) : (setResid cand s).wE = s.wE := rfl
@[simp] theorem setResid_dictD (cand : List Bool) : (setResid cand s).dictD = s.dictD := rfl
@[simp] theorem setResid_nextD (cand : List Bool) : (setResid cand s).nextD = s.nextD := rfl
@[simp] theorem setResid_wD (cand : List Bool) : (setResid cand s).wD = s.wD := rfl
@[simp] theorem setResid_cand (cand : List Bool) : (setResid cand s).cand = s.cand := rfl
@[simp] theorem setResid_script (cand : List Bool) : (setResid cand s).script = s.script := rfl
@[simp] theorem setResid_hostSaw (cand : List Bool) : (setResid cand s).hostSaw = s.hostSaw := rfl
@[simp] theorem setResid_drawn (cand : List Bool) : (setResid cand s).drawn = s.drawn := rfl

/-! ### `setDesync` -/

@[simp] theorem setDesync_cfg (d : Bool) : (setDesync d s).cfg = s.cfg := rfl
@[simp] theorem setDesync_busy (d : Bool) : (setDesync d s).status.busy = s.status.busy := rfl
@[simp] theorem setDesync_done (d : Bool) : (setDesync d s).status.done = s.status.done := rfl
@[simp] theorem setDesync_fault (d : Bool) : (setDesync d s).status.fault = s.status.fault := rfl
@[simp] theorem setDesync_resid (d : Bool) : (setDesync d s).status.resid = s.status.resid := rfl
@[simp] theorem setDesync_desync (d : Bool) : (setDesync d s).status.desync = d := rfl
@[simp] theorem setDesync_cause (d : Bool) : (setDesync d s).status.cause = s.status.cause := rfl
@[simp] theorem setDesync_lastop (d : Bool) : (setDesync d s).status.lastop = s.status.lastop := rfl
@[simp] theorem setDesync_finfo (d : Bool) : (setDesync d s).finfo = s.finfo := rfl
@[simp] theorem setDesync_textLen (d : Bool) : (setDesync d s).textLen = s.textLen := rfl
@[simp] theorem setDesync_codeLen (d : Bool) : (setDesync d s).codeLen = s.codeLen := rfl
@[simp] theorem setDesync_packedLen (d : Bool) : (setDesync d s).packedLen = s.packedLen := rfl
@[simp] theorem setDesync_bitLen (d : Bool) : (setDesync d s).bitLen = s.bitLen := rfl
@[simp] theorem setDesync_text (d : Bool) : (setDesync d s).text = s.text := rfl
@[simp] theorem setDesync_code (d : Bool) : (setDesync d s).code = s.code := rfl
@[simp] theorem setDesync_packed (d : Bool) : (setDesync d s).packed = s.packed := rfl
@[simp] theorem setDesync_table (d : Bool) : (setDesync d s).table = s.table := rfl
@[simp] theorem setDesync_freq (d : Bool) : (setDesync d s).freq = s.freq := rfl
@[simp] theorem setDesync_nodes (d : Bool) : (setDesync d s).nodes = s.nodes := rfl
@[simp] theorem setDesync_nodeCount (d : Bool) : (setDesync d s).nodeCount = s.nodeCount := rfl
@[simp] theorem setDesync_root (d : Bool) : (setDesync d s).root = s.root := rfl
@[simp] theorem setDesync_dictE (d : Bool) : (setDesync d s).dictE = s.dictE := rfl
@[simp] theorem setDesync_nextE (d : Bool) : (setDesync d s).nextE = s.nextE := rfl
@[simp] theorem setDesync_wE (d : Bool) : (setDesync d s).wE = s.wE := rfl
@[simp] theorem setDesync_dictD (d : Bool) : (setDesync d s).dictD = s.dictD := rfl
@[simp] theorem setDesync_nextD (d : Bool) : (setDesync d s).nextD = s.nextD := rfl
@[simp] theorem setDesync_wD (d : Bool) : (setDesync d s).wD = s.wD := rfl
@[simp] theorem setDesync_cand (d : Bool) : (setDesync d s).cand = s.cand := rfl
@[simp] theorem setDesync_script (d : Bool) : (setDesync d s).script = s.script := rfl
@[simp] theorem setDesync_hostSaw (d : Bool) : (setDesync d s).hostSaw = s.hostSaw := rfl
@[simp] theorem setDesync_drawn (d : Bool) : (setDesync d s).drawn = s.drawn := rfl

/-! ### `lzweStore` -/

@[simp] theorem lzweStore_cfg (r : LzweRegs) : (lzweStore r s).cfg = s.cfg := rfl
@[simp] theorem lzweStore_status (r : LzweRegs) : (lzweStore r s).status = s.status := rfl
@[simp] theorem lzweStore_finfo (r : LzweRegs) : (lzweStore r s).finfo = s.finfo := rfl
@[simp] theorem lzweStore_textLen (r : LzweRegs) : (lzweStore r s).textLen = s.textLen := rfl
@[simp] theorem lzweStore_codeLen (r : LzweRegs) : (lzweStore r s).codeLen = BitVec.ofNat 32 r.out.length := rfl
@[simp] theorem lzweStore_packedLen (r : LzweRegs) : (lzweStore r s).packedLen = s.packedLen := rfl
@[simp] theorem lzweStore_bitLen (r : LzweRegs) : (lzweStore r s).bitLen = s.bitLen := rfl
@[simp] theorem lzweStore_text (r : LzweRegs) : (lzweStore r s).text = s.text := rfl
@[simp] theorem lzweStore_code (r : LzweRegs) : (lzweStore r s).code = Memory.ofList r.out := rfl
@[simp] theorem lzweStore_packed (r : LzweRegs) : (lzweStore r s).packed = s.packed := rfl
@[simp] theorem lzweStore_table (r : LzweRegs) : (lzweStore r s).table = s.table := rfl
@[simp] theorem lzweStore_freq (r : LzweRegs) : (lzweStore r s).freq = s.freq := rfl
@[simp] theorem lzweStore_nodes (r : LzweRegs) : (lzweStore r s).nodes = s.nodes := rfl
@[simp] theorem lzweStore_nodeCount (r : LzweRegs) : (lzweStore r s).nodeCount = s.nodeCount := rfl
@[simp] theorem lzweStore_root (r : LzweRegs) : (lzweStore r s).root = s.root := rfl
@[simp] theorem lzweStore_dictE (r : LzweRegs) : (lzweStore r s).dictE = r.dict := rfl
@[simp] theorem lzweStore_nextE (r : LzweRegs) : (lzweStore r s).nextE = r.next := rfl
@[simp] theorem lzweStore_wE (r : LzweRegs) : (lzweStore r s).wE = r.w := rfl
@[simp] theorem lzweStore_dictD (r : LzweRegs) : (lzweStore r s).dictD = s.dictD := rfl
@[simp] theorem lzweStore_nextD (r : LzweRegs) : (lzweStore r s).nextD = s.nextD := rfl
@[simp] theorem lzweStore_wD (r : LzweRegs) : (lzweStore r s).wD = s.wD := rfl
@[simp] theorem lzweStore_cand (r : LzweRegs) : (lzweStore r s).cand = s.cand := rfl
@[simp] theorem lzweStore_script (r : LzweRegs) : (lzweStore r s).script = s.script := rfl
@[simp] theorem lzweStore_hostSaw (r : LzweRegs) : (lzweStore r s).hostSaw = s.hostSaw := rfl
@[simp] theorem lzweStore_drawn (r : LzweRegs) : (lzweStore r s).drawn = s.drawn := rfl

/-! ### `lzwdStore` -/

@[simp] theorem lzwdStore_cfg (r : LzwdRegs) : (lzwdStore r s).cfg = s.cfg := rfl
@[simp] theorem lzwdStore_busy (r : LzwdRegs) : (lzwdStore r s).status.busy = s.status.busy := rfl
@[simp] theorem lzwdStore_done (r : LzwdRegs) : (lzwdStore r s).status.done = s.status.done := rfl
@[simp] theorem lzwdStore_fault (r : LzwdRegs) : (lzwdStore r s).status.fault = s.status.fault := rfl
@[simp] theorem lzwdStore_resid (r : LzwdRegs) : (lzwdStore r s).status.resid = s.status.resid := rfl
@[simp] theorem lzwdStore_desync (r : LzwdRegs) : (lzwdStore r s).status.desync = r.desync := rfl
@[simp] theorem lzwdStore_cause (r : LzwdRegs) : (lzwdStore r s).status.cause = s.status.cause := rfl
@[simp] theorem lzwdStore_lastop (r : LzwdRegs) : (lzwdStore r s).status.lastop = s.status.lastop := rfl
@[simp] theorem lzwdStore_finfo (r : LzwdRegs) : (lzwdStore r s).finfo = s.finfo := rfl
@[simp] theorem lzwdStore_textLen (r : LzwdRegs) : (lzwdStore r s).textLen = BitVec.ofNat 32 r.out.length := rfl
@[simp] theorem lzwdStore_codeLen (r : LzwdRegs) : (lzwdStore r s).codeLen = s.codeLen := rfl
@[simp] theorem lzwdStore_packedLen (r : LzwdRegs) : (lzwdStore r s).packedLen = s.packedLen := rfl
@[simp] theorem lzwdStore_bitLen (r : LzwdRegs) : (lzwdStore r s).bitLen = s.bitLen := rfl
@[simp] theorem lzwdStore_text (r : LzwdRegs) : (lzwdStore r s).text = Memory.ofList r.out := rfl
@[simp] theorem lzwdStore_code (r : LzwdRegs) : (lzwdStore r s).code = s.code := rfl
@[simp] theorem lzwdStore_packed (r : LzwdRegs) : (lzwdStore r s).packed = s.packed := rfl
@[simp] theorem lzwdStore_table (r : LzwdRegs) : (lzwdStore r s).table = s.table := rfl
@[simp] theorem lzwdStore_freq (r : LzwdRegs) : (lzwdStore r s).freq = s.freq := rfl
@[simp] theorem lzwdStore_nodes (r : LzwdRegs) : (lzwdStore r s).nodes = s.nodes := rfl
@[simp] theorem lzwdStore_nodeCount (r : LzwdRegs) : (lzwdStore r s).nodeCount = s.nodeCount := rfl
@[simp] theorem lzwdStore_root (r : LzwdRegs) : (lzwdStore r s).root = s.root := rfl
@[simp] theorem lzwdStore_dictE (r : LzwdRegs) : (lzwdStore r s).dictE = s.dictE := rfl
@[simp] theorem lzwdStore_nextE (r : LzwdRegs) : (lzwdStore r s).nextE = s.nextE := rfl
@[simp] theorem lzwdStore_wE (r : LzwdRegs) : (lzwdStore r s).wE = s.wE := rfl
@[simp] theorem lzwdStore_dictD (r : LzwdRegs) : (lzwdStore r s).dictD = r.dict := rfl
@[simp] theorem lzwdStore_nextD (r : LzwdRegs) : (lzwdStore r s).nextD = r.next := rfl
@[simp] theorem lzwdStore_wD (r : LzwdRegs) : (lzwdStore r s).wD = r.w := rfl
@[simp] theorem lzwdStore_cand (r : LzwdRegs) : (lzwdStore r s).cand = s.cand := rfl
@[simp] theorem lzwdStore_script (r : LzwdRegs) : (lzwdStore r s).script = s.script := rfl
@[simp] theorem lzwdStore_hostSaw (r : LzwdRegs) : (lzwdStore r s).hostSaw = s.hostSaw := rfl
@[simp] theorem lzwdStore_drawn (r : LzwdRegs) : (lzwdStore r s).drawn = s.drawn := rfl

/-! ### `hbldStore` -/

@[simp] theorem hbldStore_cfg (f : Memory Nat) : (hbldStore f s).cfg = s.cfg := rfl
@[simp] theorem hbldStore_status (f : Memory Nat) : (hbldStore f s).status = s.status := rfl
@[simp] theorem hbldStore_finfo (f : Memory Nat) : (hbldStore f s).finfo = s.finfo := rfl
@[simp] theorem hbldStore_textLen (f : Memory Nat) : (hbldStore f s).textLen = s.textLen := rfl
@[simp] theorem hbldStore_codeLen (f : Memory Nat) : (hbldStore f s).codeLen = s.codeLen := rfl
@[simp] theorem hbldStore_packedLen (f : Memory Nat) : (hbldStore f s).packedLen = s.packedLen := rfl
@[simp] theorem hbldStore_bitLen (f : Memory Nat) : (hbldStore f s).bitLen = s.bitLen := rfl
@[simp] theorem hbldStore_text (f : Memory Nat) : (hbldStore f s).text = s.text := rfl
@[simp] theorem hbldStore_code (f : Memory Nat) : (hbldStore f s).code = s.code := rfl
@[simp] theorem hbldStore_packed (f : Memory Nat) : (hbldStore f s).packed = s.packed := rfl
@[simp] theorem hbldStore_table (f : Memory Nat) : (hbldStore f s).table = s.table := rfl
@[simp] theorem hbldStore_freq (f : Memory Nat) : (hbldStore f s).freq = f := rfl
@[simp] theorem hbldStore_nodes (f : Memory Nat) : (hbldStore f s).nodes = buildNodes f := rfl
@[simp] theorem hbldStore_nodeCount (f : Memory Nat) : (hbldStore f s).nodeCount = (buildNodes f).length := rfl
@[simp] theorem hbldStore_root (f : Memory Nat) : (hbldStore f s).root = (buildNodes f).length - 1 := rfl
@[simp] theorem hbldStore_dictE (f : Memory Nat) : (hbldStore f s).dictE = s.dictE := rfl
@[simp] theorem hbldStore_nextE (f : Memory Nat) : (hbldStore f s).nextE = s.nextE := rfl
@[simp] theorem hbldStore_wE (f : Memory Nat) : (hbldStore f s).wE = s.wE := rfl
@[simp] theorem hbldStore_dictD (f : Memory Nat) : (hbldStore f s).dictD = s.dictD := rfl
@[simp] theorem hbldStore_nextD (f : Memory Nat) : (hbldStore f s).nextD = s.nextD := rfl
@[simp] theorem hbldStore_wD (f : Memory Nat) : (hbldStore f s).wD = s.wD := rfl
@[simp] theorem hbldStore_cand (f : Memory Nat) : (hbldStore f s).cand = s.cand := rfl
@[simp] theorem hbldStore_script (f : Memory Nat) : (hbldStore f s).script = s.script := rfl
@[simp] theorem hbldStore_hostSaw (f : Memory Nat) : (hbldStore f s).hostSaw = s.hostSaw := rfl
@[simp] theorem hbldStore_drawn (f : Memory Nat) : (hbldStore f s).drawn = s.drawn := rfl

/-! ### `hgenStore` -/

@[simp] theorem hgenStore_cfg (t : Memory Entry) : (hgenStore t s).cfg = s.cfg := rfl
@[simp] theorem hgenStore_status (t : Memory Entry) : (hgenStore t s).status = s.status := rfl
@[simp] theorem hgenStore_finfo (t : Memory Entry) : (hgenStore t s).finfo = s.finfo := rfl
@[simp] theorem hgenStore_textLen (t : Memory Entry) : (hgenStore t s).textLen = s.textLen := rfl
@[simp] theorem hgenStore_codeLen (t : Memory Entry) : (hgenStore t s).codeLen = s.codeLen := rfl
@[simp] theorem hgenStore_packedLen (t : Memory Entry) : (hgenStore t s).packedLen = s.packedLen := rfl
@[simp] theorem hgenStore_bitLen (t : Memory Entry) : (hgenStore t s).bitLen = s.bitLen := rfl
@[simp] theorem hgenStore_text (t : Memory Entry) : (hgenStore t s).text = s.text := rfl
@[simp] theorem hgenStore_code (t : Memory Entry) : (hgenStore t s).code = s.code := rfl
@[simp] theorem hgenStore_packed (t : Memory Entry) : (hgenStore t s).packed = s.packed := rfl
@[simp] theorem hgenStore_table (t : Memory Entry) : (hgenStore t s).table = t := rfl
@[simp] theorem hgenStore_freq (t : Memory Entry) : (hgenStore t s).freq = s.freq := rfl
@[simp] theorem hgenStore_nodes (t : Memory Entry) : (hgenStore t s).nodes = s.nodes := rfl
@[simp] theorem hgenStore_nodeCount (t : Memory Entry) : (hgenStore t s).nodeCount = s.nodeCount := rfl
@[simp] theorem hgenStore_root (t : Memory Entry) : (hgenStore t s).root = s.root := rfl
@[simp] theorem hgenStore_dictE (t : Memory Entry) : (hgenStore t s).dictE = s.dictE := rfl
@[simp] theorem hgenStore_nextE (t : Memory Entry) : (hgenStore t s).nextE = s.nextE := rfl
@[simp] theorem hgenStore_wE (t : Memory Entry) : (hgenStore t s).wE = s.wE := rfl
@[simp] theorem hgenStore_dictD (t : Memory Entry) : (hgenStore t s).dictD = s.dictD := rfl
@[simp] theorem hgenStore_nextD (t : Memory Entry) : (hgenStore t s).nextD = s.nextD := rfl
@[simp] theorem hgenStore_wD (t : Memory Entry) : (hgenStore t s).wD = s.wD := rfl
@[simp] theorem hgenStore_cand (t : Memory Entry) : (hgenStore t s).cand = s.cand := rfl
@[simp] theorem hgenStore_script (t : Memory Entry) : (hgenStore t s).script = s.script := rfl
@[simp] theorem hgenStore_hostSaw (t : Memory Entry) : (hgenStore t s).hostSaw = s.hostSaw := rfl
@[simp] theorem hgenStore_drawn (t : Memory Entry) : (hgenStore t s).drawn = s.drawn := rfl

/-! ### `packStore` -/

@[simp] theorem packStore_cfg (bits : List Bool) : (packStore bits s).cfg = s.cfg := rfl
@[simp] theorem packStore_status (bits : List Bool) : (packStore bits s).status = s.status := rfl
@[simp] theorem packStore_finfo (bits : List Bool) : (packStore bits s).finfo = s.finfo := rfl
@[simp] theorem packStore_textLen (bits : List Bool) : (packStore bits s).textLen = s.textLen := rfl
@[simp] theorem packStore_codeLen (bits : List Bool) : (packStore bits s).codeLen = s.codeLen := rfl
@[simp] theorem packStore_packedLen (bits : List Bool) : (packStore bits s).packedLen = BitVec.ofNat 32 (bytesFor bits.length) := rfl
@[simp] theorem packStore_bitLen (bits : List Bool) : (packStore bits s).bitLen = BitVec.ofNat 32 bits.length := rfl
@[simp] theorem packStore_text (bits : List Bool) : (packStore bits s).text = s.text := rfl
@[simp] theorem packStore_code (bits : List Bool) : (packStore bits s).code = s.code := rfl
@[simp] theorem packStore_packed (bits : List Bool) : (packStore bits s).packed = Memory.ofList (packedBytes bits) := rfl
@[simp] theorem packStore_table (bits : List Bool) : (packStore bits s).table = s.table := rfl
@[simp] theorem packStore_freq (bits : List Bool) : (packStore bits s).freq = s.freq := rfl
@[simp] theorem packStore_nodes (bits : List Bool) : (packStore bits s).nodes = s.nodes := rfl
@[simp] theorem packStore_nodeCount (bits : List Bool) : (packStore bits s).nodeCount = s.nodeCount := rfl
@[simp] theorem packStore_root (bits : List Bool) : (packStore bits s).root = s.root := rfl
@[simp] theorem packStore_dictE (bits : List Bool) : (packStore bits s).dictE = s.dictE := rfl
@[simp] theorem packStore_nextE (bits : List Bool) : (packStore bits s).nextE = s.nextE := rfl
@[simp] theorem packStore_wE (bits : List Bool) : (packStore bits s).wE = s.wE := rfl
@[simp] theorem packStore_dictD (bits : List Bool) : (packStore bits s).dictD = s.dictD := rfl
@[simp] theorem packStore_nextD (bits : List Bool) : (packStore bits s).nextD = s.nextD := rfl
@[simp] theorem packStore_wD (bits : List Bool) : (packStore bits s).wD = s.wD := rfl
@[simp] theorem packStore_cand (bits : List Bool) : (packStore bits s).cand = s.cand := rfl
@[simp] theorem packStore_script (bits : List Bool) : (packStore bits s).script = s.script := rfl
@[simp] theorem packStore_hostSaw (bits : List Bool) : (packStore bits s).hostSaw = s.hostSaw := rfl
@[simp] theorem packStore_drawn (bits : List Bool) : (packStore bits s).drawn = s.drawn := rfl

/-! ### `scanStore` -/

@[simp] theorem scanStore_cfg (r : ScanRegs) : (scanStore r s).cfg = s.cfg := rfl
@[simp] theorem scanStore_busy (r : ScanRegs) : (scanStore r s).status.busy = s.status.busy := rfl
@[simp] theorem scanStore_done (r : ScanRegs) : (scanStore r s).status.done = s.status.done := rfl
@[simp] theorem scanStore_fault (r : ScanRegs) : (scanStore r s).status.fault = s.status.fault := rfl
@[simp] theorem scanStore_resid (r : ScanRegs) : (scanStore r s).status.resid = !r.cand.isEmpty := rfl
@[simp] theorem scanStore_desync (r : ScanRegs) : (scanStore r s).status.desync = s.status.desync := rfl
@[simp] theorem scanStore_cause (r : ScanRegs) : (scanStore r s).status.cause = s.status.cause := rfl
@[simp] theorem scanStore_lastop (r : ScanRegs) : (scanStore r s).status.lastop = s.status.lastop := rfl
@[simp] theorem scanStore_finfo (r : ScanRegs) : (scanStore r s).finfo = s.finfo := rfl
@[simp] theorem scanStore_textLen (r : ScanRegs) : (scanStore r s).textLen = s.textLen := rfl
@[simp] theorem scanStore_codeLen (r : ScanRegs) : (scanStore r s).codeLen = BitVec.ofNat 32 r.out.length := rfl
@[simp] theorem scanStore_packedLen (r : ScanRegs) : (scanStore r s).packedLen = s.packedLen := rfl
@[simp] theorem scanStore_bitLen (r : ScanRegs) : (scanStore r s).bitLen = s.bitLen := rfl
@[simp] theorem scanStore_text (r : ScanRegs) : (scanStore r s).text = s.text := rfl
@[simp] theorem scanStore_code (r : ScanRegs) : (scanStore r s).code = Memory.ofList r.out := rfl
@[simp] theorem scanStore_packed (r : ScanRegs) : (scanStore r s).packed = s.packed := rfl
@[simp] theorem scanStore_table (r : ScanRegs) : (scanStore r s).table = s.table := rfl
@[simp] theorem scanStore_freq (r : ScanRegs) : (scanStore r s).freq = s.freq := rfl
@[simp] theorem scanStore_nodes (r : ScanRegs) : (scanStore r s).nodes = s.nodes := rfl
@[simp] theorem scanStore_nodeCount (r : ScanRegs) : (scanStore r s).nodeCount = s.nodeCount := rfl
@[simp] theorem scanStore_root (r : ScanRegs) : (scanStore r s).root = s.root := rfl
@[simp] theorem scanStore_dictE (r : ScanRegs) : (scanStore r s).dictE = s.dictE := rfl
@[simp] theorem scanStore_nextE (r : ScanRegs) : (scanStore r s).nextE = s.nextE := rfl
@[simp] theorem scanStore_wE (r : ScanRegs) : (scanStore r s).wE = s.wE := rfl
@[simp] theorem scanStore_dictD (r : ScanRegs) : (scanStore r s).dictD = s.dictD := rfl
@[simp] theorem scanStore_nextD (r : ScanRegs) : (scanStore r s).nextD = s.nextD := rfl
@[simp] theorem scanStore_wD (r : ScanRegs) : (scanStore r s).wD = s.wD := rfl
@[simp] theorem scanStore_cand (r : ScanRegs) : (scanStore r s).cand = r.cand := rfl
@[simp] theorem scanStore_script (r : ScanRegs) : (scanStore r s).script = s.script := rfl
@[simp] theorem scanStore_hostSaw (r : ScanRegs) : (scanStore r s).hostSaw = s.hostSaw := rfl
@[simp] theorem scanStore_drawn (r : ScanRegs) : (scanStore r s).drawn = s.drawn := rfl

/-! ### `clear` -/

@[simp] theorem clear_cfg : (clear s).cfg = s.cfg := rfl
@[simp] theorem clear_status : (clear s).status = Status.reset := rfl
@[simp] theorem clear_finfo : (clear s).finfo = 0 := rfl
@[simp] theorem clear_textLen : (clear s).textLen = 0 := rfl
@[simp] theorem clear_codeLen : (clear s).codeLen = 0 := rfl
@[simp] theorem clear_packedLen : (clear s).packedLen = 0 := rfl
@[simp] theorem clear_bitLen : (clear s).bitLen = 0 := rfl
@[simp] theorem clear_text : (clear s).text = [] := rfl
@[simp] theorem clear_code : (clear s).code = [] := rfl
@[simp] theorem clear_packed : (clear s).packed = [] := rfl
@[simp] theorem clear_table : (clear s).table = [] := rfl
@[simp] theorem clear_freq : (clear s).freq = [] := rfl
@[simp] theorem clear_nodes : (clear s).nodes = [] := rfl
@[simp] theorem clear_nodeCount : (clear s).nodeCount = 0 := rfl
@[simp] theorem clear_root : (clear s).root = 0 := rfl
@[simp] theorem clear_dictE : (clear s).dictE = initE := rfl
@[simp] theorem clear_nextE : (clear s).nextE = 256 := rfl
@[simp] theorem clear_wE : (clear s).wE = [] := rfl
@[simp] theorem clear_dictD : (clear s).dictD = initD := rfl
@[simp] theorem clear_nextD : (clear s).nextD = 256 := rfl
@[simp] theorem clear_wD : (clear s).wD = [] := rfl
@[simp] theorem clear_cand : (clear s).cand = [] := rfl
@[simp] theorem clear_script : (clear s).script = s.script := rfl
@[simp] theorem clear_hostSaw : (clear s).hostSaw = s.hostSaw := rfl
@[simp] theorem clear_drawn : (clear s).drawn = s.drawn := rfl

end

end Sys2Proof.Machine
end

