-- ==== Sys2Proof/Laws/Loops.lean ====
section
/-! SUPPORT. The shared loop, the source of a command, and what taking a command word can do. -/

namespace Sys2Proof.Machine

variable {α σ : Type}

/-! ## `forEach` -/

@[simp] theorem forEach_nil (body : Nat → α → σ → Except Raise σ) (i : Nat) (r : σ) :
    forEach body i [] r = .ok r := rfl

theorem forEach_cons (body : Nat → α → σ → Except Raise σ) (i : Nat) (x : α) (xs : List α) (r : σ) :
    forEach body i (x :: xs) r =
      match body i x r with
      | .error e => .error e
      | .ok r' => forEach body (i + 1) xs r' := rfl

theorem forEach_append (body : Nat → α → σ → Except Raise σ) (i : Nat) (xs ys : List α) (r : σ) :
    forEach body i (xs ++ ys) r =
      match forEach body i xs r with
      | .error e => .error e
      | .ok r' => forEach body (i + xs.length) ys r' := by
  induction xs generalizing i r with
  | nil => rfl
  | cons x xs ih =>
    simp only [List.cons_append, forEach_cons]
    cases body i x r with
    | error e => rfl
    | ok r' => simp only [ih, List.length_cons]; rw [show i + 1 + xs.length = i + (xs.length + 1) by omega]

/-- What every turn of a loop keeps holds at its end, if it held at its start. -/
theorem forEach_keeps {body : Nat → α → σ → Except Raise σ} (P : Nat → σ → Prop) {xs : List α} {i : Nat} {r r' : σ}
    (step : ∀ j x q q', x ∈ xs → P j q → body j x q = .ok q' → P (j + 1) q') (h0 : P i r)
    (h : forEach body i xs r = .ok r') : P (i + xs.length) r' := by
  induction xs generalizing i r with
  | nil => cases h; exact h0
  | cons x xs ih =>
    rw [forEach_cons] at h
    cases hb : body i x r with
    | error e => rw [hb] at h; cases h
    | ok q =>
      rw [hb] at h
      have := ih (i := i + 1) (r := q) (fun j y q q' hy => step j y q q' (List.mem_cons_of_mem _ hy))
        (step i x r q List.mem_cons_self h0 hb) h
      rwa [List.length_cons, show i + (xs.length + 1) = i + 1 + xs.length by omega]

/-- A loop that ends in a `raise` ran without one up to some element, and that element raised it. -/
theorem forEach_error_cases {body : Nat → α → σ → Except Raise σ} {xs : List α} {i : Nat} {r : σ} {e : Raise}
    (h : forEach body i xs r = .error e) :
    ∃ ys x zs q, xs = ys ++ x :: zs ∧ forEach body i ys r = .ok q ∧ body (i + ys.length) x q = .error e := by
  induction xs generalizing i r with
  | nil => cases h
  | cons x xs ih =>
    rw [forEach_cons] at h
    cases hb : body i x r with
    | error e' => rw [hb] at h; cases h; exact ⟨[], x, xs, r, rfl, rfl, hb⟩
    | ok q =>
      rw [hb] at h
      obtain ⟨ys, y, zs, q', rfl, h1, h2⟩ := ih h
      refine ⟨x :: ys, y, zs, q', rfl, ?_, ?_⟩
      · rw [forEach_cons, hb]; exact h1
      · rwa [List.length_cons, show i + (ys.length + 1) = i + 1 + ys.length by omega]

/-- A loop that ends without a raise ends the same with another body that agrees on every turn that does not raise. -/
theorem forEach_congr_ok {body body' : Nat → α → σ → Except Raise σ} (P : σ → Prop)
    (step : ∀ i x r q, P r → body i x r = .ok q → body' i x r = .ok q ∧ P q) {xs : List α} {i : Nat} {r q : σ} (h0 : P r)
    (h : forEach body i xs r = .ok q) : forEach body' i xs r = .ok q ∧ P q := by
  induction xs generalizing i r with
  | nil => cases h; exact ⟨rfl, h0⟩
  | cons x xs ih =>
    rw [forEach_cons] at h
    split at h
    · cases h
    · rename_i r' hr
      obtain ⟨h1, h2⟩ := step _ _ _ _ h0 hr
      rw [forEach_cons, h1]
      exact ih h2 h

/-! ## Sources -/

@[simp] theorem length_sourceOf (free : Nat → α) (m : Memory α) (n d : Nat) : (sourceOf free m n d).length = n := by
  simp [sourceOf]

/-- A source whose elements all have a value is those elements. -/
theorem sourceOf_eq {free : Nat → α} {m : Memory α} {n d : Nat} {l : List α} (hn : n = l.length)
    (h : ∀ i, i < l.length → m.get? i = l[i]?) : sourceOf free m n d = l := by
  subst hn
  refine List.ext_getElem (by simp) fun i h1 h2 => ?_
  simp [sourceOf, h i h2, h2]

theorem mem_sourceOf {free : Nat → α} {m : Memory α} {n d : Nat} {x : α} (h : x ∈ sourceOf free m n d) :
    (∃ i, m.get? i = some x) ∨ ∃ k, x = free k := by
  obtain ⟨i, -, rfl⟩ := List.mem_map.1 h
  cases hg : m.get? i with
  | none => exact .inr ⟨d + i, rfl⟩
  | some v => exact .inl ⟨i, hg⟩

/-! ## Taking a command word -/

/-- What a word written to `csr[CMD]` can lead to when the answer is a next state: while faulted nothing, else what the
command does once accepted. -/
theorem command_next_cases {op : BitVec 8} {body : State → Result} {s t : State} (h : command op body s = .next t) :
    s.status.busy = false ∧
      ((s.status.fault = true ∧ t = s) ∨ (s.status.fault = false ∧ body (accept op s) = .next t)) := by
  unfold command at h
  cases hb : s.status.busy with
  | true => simp [hb] at h
  | false =>
    cases hf : s.status.fault with
    | true => simp [hb, hf] at h; exact ⟨rfl, .inl ⟨rfl, h.symm⟩⟩
    | false => simp [hb, hf] at h; exact ⟨rfl, .inr ⟨rfl, h⟩⟩

theorem command_of_idle {op : BitVec 8} {body : State → Result} {s : State} (hb : s.status.busy = false)
    (hf : s.status.fault = false) : command op body s = body (accept op s) := by
  simp [command, hb, hf]

theorem command_of_faulted {op : BitVec 8} {body : State → Result} {s : State} (hb : s.status.busy = false)
    (hf : s.status.fault = true) : command op body s = .next s := by
  simp [command, hb, hf]

theorem command_of_busy {op : BitVec 8} {body : State → Result} {s : State} (hb : s.status.busy = true) :
    command op body s = .refused .accessWhileBusy := by
  simp [command, hb]

@[simp] theorem textSource_accept (op : BitVec 8) (s : State) : (accept op s).textSource = s.textSource := rfl
@[simp] theorem codeSource_accept (op : BitVec 8) (s : State) : (accept op s).codeSource = s.codeSource := rfl
@[simp] theorem packedSource_accept (op : BitVec 8) (s : State) : (accept op s).packedSource = s.packedSource := rfl

end Sys2Proof.Machine
end

