-- ==== Sys2Proof/Laws/Memory.lean ====
section
/-! SUPPORT. The laws of the element-indexed spaces: a read after a write, the canonical form, and what TABLE and FREQ read
as. -/

namespace Sys2Proof.Machine

variable {α : Type}

/-! ## Reads and writes -/

@[simp] theorem Memory.get?_nil (i : Nat) : Memory.get? ([] : Memory α) i = none := rfl

theorem Memory.get?_cons (j : Nat) (u : α) (m : Memory α) (i : Nat) :
    Memory.get? ((j, u) :: m) i = if j = i then some u else m.get? i := rfl

@[simp] theorem Memory.get?_set_same (m : Memory α) (i : Nat) (v : α) : (m.set i v).get? i = some v := by
  induction m with
  | nil => simp [Memory.set, Memory.get?]
  | cons x m ih =>
    obtain ⟨j, u⟩ := x
    simp only [Memory.set]
    split
    · simp [Memory.get?]
    · split
      · simp [Memory.get?]
      · rename_i h; simp [Memory.get?, Ne.symm h, ih]

theorem Memory.get?_set_other (m : Memory α) {i j : Nat} (v : α) (h : j ≠ i) :
    (m.set i v).get? j = m.get? j := by
  induction m with
  | nil => simp [Memory.set, Memory.get?, h.symm]
  | cons x m ih =>
    obtain ⟨k, u⟩ := x
    simp only [Memory.set]
    split
    · simp [Memory.get?, h.symm]
    · split
      · rename_i hk; subst hk; simp [Memory.get?, h.symm]
      · simp [Memory.get?, ih]

theorem Memory.get?_erase_other (m : Memory α) {i j : Nat} (h : j ≠ i) : (m.erase i).get? j = m.get? j := by
  induction m with
  | nil => rfl
  | cons x m ih =>
    obtain ⟨k, u⟩ := x
    simp only [Memory.erase]
    split
    · rename_i hk; subst hk; simp [Memory.get?, h.symm]
    · simp [Memory.get?, ih]

theorem Memory.mem_of_get? {m : Memory α} {i : Nat} {v : α} (h : m.get? i = some v) : (i, v) ∈ m := by
  induction m with
  | nil => simp at h
  | cons x m ih =>
    obtain ⟨j, u⟩ := x
    rw [Memory.get?_cons] at h
    split at h
    · rename_i hj; subst hj; cases h; simp
    · exact List.mem_cons_of_mem _ (ih h)

theorem Memory.get?_eq_none_of_not_mem {m : Memory α} {i : Nat} (h : ∀ x ∈ m, x.1 ≠ i) : m.get? i = none := by
  cases hg : m.get? i with
  | none => rfl
  | some v => exact absurd rfl (h _ (Memory.mem_of_get? hg))

theorem Memory.get?_eq_some_iff {m : Memory α} (hm : Memory.wf m) {i : Nat} {v : α} :
    m.get? i = some v ↔ (i, v) ∈ m := by
  refine ⟨Memory.mem_of_get?, fun h => ?_⟩
  induction m with
  | nil => simp at h
  | cons x m ih =>
    obtain ⟨j, u⟩ := x
    rw [Memory.wf, List.pairwise_cons] at hm
    rw [Memory.get?_cons]
    rcases List.mem_cons.1 h with h | h
    · cases h; simp
    · have := hm.1 _ h
      simp only at this
      rw [if_neg (by omega)]
      exact ih hm.2 h

@[simp] theorem Memory.get?_erase_same {m : Memory α} (hm : Memory.wf m) (i : Nat) : (m.erase i).get? i = none := by
  induction m with
  | nil => rfl
  | cons x m ih =>
    obtain ⟨j, u⟩ := x
    rw [Memory.wf, List.pairwise_cons] at hm
    simp only [Memory.erase]
    split
    · rename_i hj
      exact Memory.get?_eq_none_of_not_mem fun x hx => by have := hm.1 x hx; simp only at this; omega
    · rename_i hj; rw [Memory.get?_cons, if_neg hj]; exact ih hm.2

/-! ## The canonical form -/

theorem Memory.mem_set {m : Memory α} {i : Nat} {v : α} {x : Nat × α} (h : x ∈ m.set i v) : x = (i, v) ∨ x ∈ m := by
  induction m with
  | nil => simpa [Memory.set] using h
  | cons y m ih =>
    obtain ⟨j, u⟩ := y
    simp only [Memory.set] at h
    split at h
    · simpa using h
    · split at h
      · rcases List.mem_cons.1 h with h | h
        · exact .inl h
        · exact .inr (List.mem_cons_of_mem _ h)
      · rcases List.mem_cons.1 h with h | h
        · exact .inr (h ▸ List.mem_cons_self)
        · exact (ih h).imp_right (List.mem_cons_of_mem _)

theorem Memory.mem_erase {m : Memory α} {i : Nat} {x : Nat × α} (h : x ∈ m.erase i) : x ∈ m := by
  induction m with
  | nil => exact h
  | cons y m ih =>
    obtain ⟨j, u⟩ := y
    simp only [Memory.erase] at h
    split at h
    · exact List.mem_cons_of_mem _ h
    · rcases List.mem_cons.1 h with h | h
      · exact h ▸ List.mem_cons_self
      · exact List.mem_cons_of_mem _ (ih h)

/-- A write keeps the canonical form. -/
theorem Memory.wf_set {m : Memory α} (hm : Memory.wf m) (i : Nat) (v : α) : Memory.wf (m.set i v) := by
  induction m with
  | nil => simp [Memory.set, Memory.wf]
  | cons y m ih =>
    obtain ⟨j, u⟩ := y
    rw [Memory.wf, List.pairwise_cons] at hm
    simp only [Memory.set]
    split
    · rename_i hij
      refine List.pairwise_cons.2 ⟨fun x hx => ?_, List.pairwise_cons.2 hm⟩
      rcases List.mem_cons.1 hx with rfl | hx
      · exact hij
      · exact Nat.lt_trans hij (hm.1 x hx)
    · split
      · rename_i hij; subst hij; exact List.pairwise_cons.2 hm
      · refine List.pairwise_cons.2 ⟨fun x hx => ?_, ih hm.2⟩
        rcases Memory.mem_set hx with rfl | hx
        · simp only; omega
        · exact hm.1 x hx

/-- Removing an element keeps the canonical form. -/
theorem Memory.wf_erase {m : Memory α} (hm : Memory.wf m) (i : Nat) : Memory.wf (m.erase i) := by
  induction m with
  | nil => exact hm
  | cons y m ih =>
    obtain ⟨j, u⟩ := y
    rw [Memory.wf, List.pairwise_cons] at hm
    simp only [Memory.erase]
    split
    · exact hm.2
    · exact List.pairwise_cons.2 ⟨fun x hx => hm.1 x (Memory.mem_erase hx), ih hm.2⟩

/-- A memory filled from a list has the canonical form. -/
theorem Memory.wf_ofList (l : List α) : Memory.wf (Memory.ofList l) := by
  have key : ∀ (l : List α) (n : Nat), Memory.wf ((l.zipIdx n).map fun x => (x.2, x.1)) ∧
      ∀ x ∈ (l.zipIdx n).map (fun x : α × Nat => (x.2, x.1)), n ≤ x.1 := by
    intro l
    induction l with
    | nil => intro n; simp [Memory.wf]
    | cons a l ih =>
      intro n
      obtain ⟨h1, h2⟩ := ih (n + 1)
      simp only [List.zipIdx_cons, List.map_cons]
      refine ⟨List.pairwise_cons.2 ⟨fun x hx => h2 x hx, h1⟩, fun x hx => ?_⟩
      rcases List.mem_cons.1 hx with rfl | hx
      · exact Nat.le_refl _
      · exact Nat.le_of_succ_le (h2 x hx)
  exact (key l 0).1

theorem Memory.get?_ofList (l : List α) (i : Nat) : (Memory.ofList l).get? i = l[i]? := by
  have key : ∀ (l : List α) (n : Nat),
      Memory.get? ((l.zipIdx n).map fun x => (x.2, x.1)) i = if n ≤ i then l[i - n]? else none := by
    intro l
    induction l with
    | nil => intro n; simp
    | cons a l ih =>
      intro n
      simp only [List.zipIdx_cons, List.map_cons, Memory.get?_cons, ih]
      by_cases h : n = i
      · subst h; simp
      · rw [if_neg h]
        by_cases h' : n ≤ i
        · rw [if_pos h', if_pos (by omega), show i - n = (i - (n + 1)) + 1 by omega]; simp
        · rw [if_neg h', if_neg (by omega)]
  simpa [Memory.ofList] using key l 0

theorem Memory.mem_ofList {l : List α} {x : Nat × α} (h : x ∈ Memory.ofList l) : l[x.1]? = some x.2 := by
  rw [← Memory.get?_ofList]
  exact (Memory.get?_eq_some_iff (Memory.wf_ofList l)).2 h

/-- Memories of canonical form that read alike are equal. -/
theorem Memory.ext_of_get? {m n : Memory α} (hm : Memory.wf m) (hn : Memory.wf n) (h : ∀ i, m.get? i = n.get? i) :
    m = n := by
  induction m generalizing n with
  | nil =>
    cases n with
    | nil => rfl
    | cons y n => have := h y.1; simp [Memory.get?] at this
  | cons x m ih =>
    cases n with
    | nil => have := h x.1; simp [Memory.get?] at this
    | cons y n =>
      obtain ⟨i, u⟩ := x
      obtain ⟨j, v⟩ := y
      rw [Memory.wf, List.pairwise_cons] at hm hn
      have hij : i = j := by
        rcases Nat.lt_trichotomy i j with hlt | heq | hgt
        · have h1 := h i
          rw [Memory.get?_cons, if_pos rfl, Memory.get?_cons, if_neg (by omega)] at h1
          have := hn.1 _ (Memory.mem_of_get? h1.symm)
          simp only at this; omega
        · exact heq
        · have h1 := h j
          rw [Memory.get?_cons, if_neg (by omega), Memory.get?_cons, if_pos rfl] at h1
          have := hm.1 _ (Memory.mem_of_get? h1)
          simp only at this; omega
      subst hij
      have huv := h i
      simp only [Memory.get?_cons, if_true] at huv
      cases huv
      congr 1
      refine ih hm.2 hn.2 fun k => ?_
      by_cases hk : i = k
      · subst hk
        rw [Memory.get?_eq_none_of_not_mem fun x hx => ?_, Memory.get?_eq_none_of_not_mem fun x hx => ?_]
        · have := hn.1 x hx; simp only at this; omega
        · have := hm.1 x hx; simp only at this; omega
      · have := h k
        rwa [Memory.get?_cons, if_neg hk, Memory.get?_cons, if_neg hk] at this

/-! ## TABLE and FREQ -/

@[simp] theorem tableAt_nil (c : Nat) : tableAt [] c = { len := 0, bits := 0 } := rfl

theorem tableAt_tableSet_same {t : Memory Entry} (ht : Memory.wf t) (c : Nat) (e : Entry) (he : e.len = 0 → e.bits = 0) :
    tableAt (tableSet t c e) c = e := by
  unfold tableSet
  split
  · rename_i h
    rw [tableAt, Memory.get?_erase_same ht]
    obtain ⟨l, b⟩ := e
    simp_all
  · simp [tableAt]

theorem tableAt_tableSet_other (t : Memory Entry) {c d : Nat} (e : Entry) (h : d ≠ c) :
    tableAt (tableSet t c e) d = tableAt t d := by
  unfold tableSet
  split
  · rw [tableAt, Memory.get?_erase_other _ h, tableAt]
  · rw [tableAt, Memory.get?_set_other _ _ h, tableAt]

theorem wf_tableSet {t : Memory Entry} (ht : Memory.wf t) (c : Nat) (e : Entry) : Memory.wf (tableSet t c e) := by
  unfold tableSet
  split
  · exact Memory.wf_erase ht c
  · exact Memory.wf_set ht c e

theorem mem_tableSet {t : Memory Entry} {c : Nat} {e : Entry} {x : Nat × Entry} (h : x ∈ tableSet t c e) :
    (x = (c, e) ∧ e.len ≠ 0) ∨ x ∈ t := by
  unfold tableSet at h
  split at h
  · exact .inr (Memory.mem_erase h)
  · rename_i hl; exact (Memory.mem_set h).imp_left fun h => ⟨h, hl⟩

/-- A write of an entry keeps the form and the range of TABLE. -/
theorem storeEntry_keeps {p : Params} {t : Memory Entry} {c : Nat} {e : Entry} (ht : Memory.wf t) (hc : c < 2 ^ p.codeW)
    (hr : ∀ x ∈ t, x.1 < 2 ^ p.codeW ∧ 1 ≤ x.2.len ∧ x.2.len ≤ p.maxLen ∧ x.2.bits < 2 ^ x.2.len) :
    Memory.wf (storeEntry p t c e) ∧
      ∀ x ∈ storeEntry p t c e, x.1 < 2 ^ p.codeW ∧ 1 ≤ x.2.len ∧ x.2.len ≤ p.maxLen ∧ x.2.bits < 2 ^ x.2.len := by
  unfold storeEntry
  split
  · rename_i hl
    refine ⟨wf_tableSet ht _ _, fun x hx => ?_⟩
    rcases mem_tableSet hx with ⟨rfl, h0⟩ | hx
    · exact ⟨hc, Nat.one_le_iff_ne_zero.2 h0, hl, Nat.mod_lt _ (Nat.two_pow_pos _)⟩
    · exact hr x hx
  · exact ⟨ht, hr⟩

/-- TABLE after a faulting `HGEN` has the form and the range of a table. -/
theorem freeTable_keeps (p : Params) (d : Nat) :
    Memory.wf (freeTable p d) ∧
      ∀ x ∈ freeTable p d, x.1 < 2 ^ p.codeW ∧ 1 ≤ x.2.len ∧ x.2.len ≤ p.maxLen ∧ x.2.bits < 2 ^ x.2.len := by
  have key : ∀ (l : List (Nat × Nat × Nat)) (t : Memory Entry), Memory.wf t →
      (∀ x ∈ t, x.1 < 2 ^ p.codeW ∧ 1 ≤ x.2.len ∧ x.2.len ≤ p.maxLen ∧ x.2.bits < 2 ^ x.2.len) →
      Memory.wf (l.foldl (fun t x => storeEntry p t (x.1 % 2 ^ p.codeW) { len := x.2.1, bits := x.2.2 }) t) ∧
      ∀ x ∈ l.foldl (fun t x => storeEntry p t (x.1 % 2 ^ p.codeW) { len := x.2.1, bits := x.2.2 }) t,
        x.1 < 2 ^ p.codeW ∧ 1 ≤ x.2.len ∧ x.2.len ≤ p.maxLen ∧ x.2.bits < 2 ^ x.2.len := by
    intro l
    induction l with
    | nil => intro t ht hr; exact ⟨ht, hr⟩
    | cons a l ih =>
      intro t ht hr
      obtain ⟨h1, h2⟩ := storeEntry_keeps (e := { len := a.2.1, bits := a.2.2 }) ht
        (Nat.mod_lt a.1 (Nat.two_pow_pos p.codeW)) hr
      exact ih _ h1 h2
  exact key _ [] List.Pairwise.nil (by simp)

theorem freqAt_countSame (f : Memory Nat) (c : Nat) (n : Nat) : freqAt (f.set c n) c = n := by simp [freqAt]

theorem freqAt_countOther (f : Memory Nat) {c d : Nat} (n : Nat) (h : d ≠ c) : freqAt (f.set c n) d = freqAt f d := by
  rw [freqAt, Memory.get?_set_other _ _ h, freqAt]

end Sys2Proof.Machine
end

