-- ==== Sys2Proof/Laws/Commands.lean ====
section
/-! SUPPORT. For each command, once: everything its meaning and one turn of its loop can answer. Proofs about a command cite
these and never unfold its meaning again. -/

namespace Sys2Proof.Machine

/-! ## One turn of each loop -/

/-- A byte of `LZWE`: extend the match, or emit and insert. -/
theorem lzweByte_ok_cases {p : Params} {i : Nat} {c : Byte} {r r' : LzweRegs} (h : lzweByte p i c r = .ok r') :
    ((dictCode r.dict (r.w ++ [c])).isSome = true ∧ r' = { r with w := r.w ++ [c] }) ∨
    ((dictCode r.dict (r.w ++ [c])) = none ∧ r.out.length ≠ p.codeCap ∧ r.next ≠ 2 ^ p.codeW ∧
      r' = { dict := r.dict ++ [(r.w ++ [c], r.next)], next := r.next + 1, w := [c], out := lzweEmit r }) := by
  simp only [lzweByte] at h
  split at h
  · rename_i hs; cases h; exact .inl ⟨hs, rfl⟩
  · rename_i hs
    split at h
    · cases h
    · rename_i ho
      split at h
      · cases h
      · rename_i hn
        cases h
        exact .inr ⟨by simpa using hs, ho, hn, rfl⟩

theorem lzweByte_error_cases {p : Params} {i : Nat} {c : Byte} {r : LzweRegs} {e : Raise} (h : lzweByte p i c r = .error e) :
    (dictCode r.dict (r.w ++ [c])) = none ∧
    ((r.out.length = p.codeCap ∧ e = ⟨.outOverflow, i⟩) ∨
      (r.out.length ≠ p.codeCap ∧ r.next = 2 ^ p.codeW ∧ e = ⟨.dictFull, i⟩)) := by
  simp only [lzweByte] at h
  split at h
  · cases h
  · rename_i hs
    refine ⟨by simpa using hs, ?_⟩
    split at h
    · rename_i ho; cases h; exact .inl ⟨ho, rfl⟩
    · rename_i ho
      split at h
      · rename_i hn; cases h; exact .inr ⟨ho, hn, rfl⟩
      · cases h

/-- The flush of `LZWE`: nothing to emit, or the code of the last string. -/
theorem lzweFlush_ok_cases {p : Params} {n : Nat} {r r' : LzweRegs} (h : lzweFlush p n r = .ok r') :
    (r.w = [] ∧ r' = r) ∨ (r.w ≠ [] ∧ r.out.length ≠ p.codeCap ∧ r' = { r with out := lzweEmit r }) := by
  unfold lzweFlush at h
  split at h
  · rename_i hw; cases h; exact .inl ⟨hw, rfl⟩
  · rename_i hw
    split at h
    · cases h
    · rename_i ho; cases h; exact .inr ⟨hw, ho, rfl⟩

theorem lzweFlush_error_cases {p : Params} {n : Nat} {r : LzweRegs} {e : Raise} (h : lzweFlush p n r = .error e) :
    r.w ≠ [] ∧ r.out.length = p.codeCap ∧ e = ⟨.outOverflow, n⟩ := by
  unfold lzweFlush at h
  split at h
  · cases h
  · rename_i hw
    split at h
    · rename_i ho; cases h; exact ⟨hw, ho, rfl⟩
    · cases h

/-- The run of `LZWE`: the loop, then the flush. -/
theorem lzweRun_ok_cases {p : Params} {bs : List Byte} {r : LzweRegs} (h : lzweRun p bs = .ok r) :
    ∃ q, forEach (lzweByte p) 0 bs lzweStart = .ok q ∧ lzweFlush p bs.length q = .ok r := by
  unfold lzweRun at h
  split at h
  · cases h
  · rename_i q hq; exact ⟨q, hq, h⟩

/-- A code of `LZWD`. -/
theorem lzwdCode_ok_cases {p : Params} {i k : Nat} {r r' : LzwdRegs} (h : lzwdCode p i k r = .ok r') :
    r.out.length + (lzwdEntry r k).length ≤ p.textCap ∧ r.next ≠ 2 ^ p.codeW ∧
    r' = { dict := r.dict.set r.next (r.w ++ (lzwdEntry r k).take 1), next := r.next + 1, w := lzwdEntry r k,
           out := r.out ++ lzwdEntry r k, desync := r.desync || ((r.dict.get? k).isNone && k != r.next) } := by
  simp only [lzwdCode] at h
  split at h
  · cases h
  · rename_i ho
    split at h
    · cases h
    · rename_i hn; cases h; exact ⟨by omega, hn, rfl⟩

theorem lzwdCode_error_cases {p : Params} {i k : Nat} {r : LzwdRegs} {e : Raise} (h : lzwdCode p i k r = .error e) :
    (p.textCap < r.out.length + (lzwdEntry r k).length ∧ e = ⟨.outOverflow, i⟩) ∨
    (r.out.length + (lzwdEntry r k).length ≤ p.textCap ∧ r.next = 2 ^ p.codeW ∧ e = ⟨.dictFull, i⟩) := by
  simp only [lzwdCode] at h
  split at h
  · rename_i ho; cases h; exact .inl ⟨ho, rfl⟩
  · rename_i ho
    split at h
    · rename_i hn; cases h; exact .inr ⟨by omega, hn, rfl⟩
    · cases h

/-- The run of `LZWD`. -/
theorem lzwdRun_ok_cases {p : Params} {w : List Byte} {ks : List Nat} {r : LzwdRegs} (h : lzwdRun p w ks = .ok r) :
    (ks = [] ∧ r = { dict := initD, next := 256, w := w, out := [], desync := false }) ∨
    ∃ k0 ks', ks = k0 :: ks' ∧ k0 ≤ 255 ∧
      forEach (lzwdCode p) 1 ks'
        { dict := initD, next := 256, w := [BitVec.ofNat 8 k0], out := [BitVec.ofNat 8 k0], desync := false } = .ok r := by
  cases ks with
  | nil => cases h; exact .inl ⟨rfl, rfl⟩
  | cons k0 ks =>
    simp only [lzwdRun] at h
    split at h
    · cases h
    · rename_i hk; exact .inr ⟨k0, ks, rfl, by omega, h⟩

/-- A code of `PACK`. -/
theorem packCode_ok_cases {p : Params} {t : Memory Entry} {i c : Nat} {bits bits' : List Bool}
    (h : packCode p t i c bits = .ok bits') :
    (tableAt t c).len ≠ 0 ∧ bits.length + (tableAt t c).len ≤ 8 * p.packedCap ∧ bits' = bits ++ (tableAt t c).toBits := by
  simp only [packCode] at h
  split at h
  · cases h
  · rename_i hl
    split at h
    · cases h
    · rename_i ho; cases h; exact ⟨hl, by omega, rfl⟩

theorem packCode_error_cases {p : Params} {t : Memory Entry} {i c : Nat} {bits : List Bool} {e : Raise}
    (h : packCode p t i c bits = .error e) :
    ((tableAt t c).len = 0 ∧ e = ⟨.tableMiss, i⟩) ∨
    ((tableAt t c).len ≠ 0 ∧ 8 * p.packedCap < bits.length + (tableAt t c).len ∧ e = ⟨.outOverflow, i⟩) := by
  simp only [packCode] at h
  split at h
  · rename_i hl; cases h; exact .inl ⟨hl, rfl⟩
  · rename_i hl
    split at h
    · rename_i ho; cases h; exact .inr ⟨hl, by omega, rfl⟩
    · cases h

/-- A bit of the scan. -/
theorem scanBit_ok_cases {p : Params} {t : Memory Entry} {i : Nat} {b : Bool} {r r' : ScanRegs}
    (h : scanBit p t i b r = .ok r') :
    (codesSpelled t (r.cand ++ [b]) = [] ∧ r' = { r with cand := r.cand ++ [b] }) ∨
    ∃ c, codesSpelled t (r.cand ++ [b]) = [c] ∧ r.out.length ≠ p.codeCap ∧ r' = { cand := [], out := r.out ++ [c] } := by
  simp only [scanBit] at h
  split at h
  · rename_i hm; cases h; exact .inl ⟨hm, rfl⟩
  · rename_i c hm
    split at h
    · cases h
    · rename_i ho; cases h; exact .inr ⟨c, hm, ho, rfl⟩
  · cases h

theorem scanBit_error_cases {p : Params} {t : Memory Entry} {i : Nat} {b : Bool} {r : ScanRegs} {e : Raise}
    (h : scanBit p t i b r = .error e) :
    (2 ≤ (codesSpelled t (r.cand ++ [b])).length ∧ e = ⟨.tableMulti, i⟩) ∨
    ∃ c, codesSpelled t (r.cand ++ [b]) = [c] ∧ r.out.length = p.codeCap ∧ e = ⟨.outOverflow, i⟩ := by
  simp only [scanBit] at h
  split at h
  · cases h
  · rename_i c hm
    split at h
    · rename_i ho; cases h; exact .inr ⟨c, hm, ho, rfl⟩
    · cases h
  · rename_i hm; cases h; rw [hm]; exact .inl ⟨by simp, rfl⟩

/-! ## Each command on an accepted word -/

/-- `LZWE`, accepted: it completes with its run's registers, or faults with its run's cause. -/
theorem lzweBody_next_cases {s t : State} (h : lzweBody s = .next t) :
    (∃ e, lzweRun s.cfg s.textSource = .error e ∧
      t = raise e (loseEncoder (loseCode (s.draw s.textLen.toNat)))) ∨
    (∃ r, lzweRun s.cfg s.textSource = .ok r ∧ t = complete (lzweStore r (s.draw s.textLen.toNat))) := by
  simp only [lzweBody] at h
  split at h
  · rename_i e he; cases h; exact .inl ⟨e, he, rfl⟩
  · rename_i r hr; cases h; exact .inr ⟨r, hr, rfl⟩

theorem lzweBody_of_ok {s : State} {r : LzweRegs} (h : lzweRun s.cfg s.textSource = .ok r) :
    lzweBody s = .next (complete (lzweStore r (s.draw s.textLen.toNat))) := by
  simp only [lzweBody, h]

theorem lzweBody_of_error {s : State} {e : Raise} (h : lzweRun s.cfg s.textSource = .error e) :
    lzweBody s = .next (raise e (loseEncoder (loseCode (s.draw s.textLen.toNat)))) := by
  simp only [lzweBody, h]

/-- `LZWD`, accepted. -/
theorem lzwdBody_next_cases {s t : State} (h : lzwdBody s = .next t) :
    (∃ e, lzwdRun s.cfg s.wD s.codeSource = .error e ∧
      t = raise e (loseDecoder (loseText (s.draw s.codeLen.toNat)))) ∨
    (∃ r, lzwdRun s.cfg s.wD s.codeSource = .ok r ∧ t = complete (lzwdStore r (s.draw s.codeLen.toNat))) := by
  simp only [lzwdBody] at h
  split at h
  · rename_i e he; cases h; exact .inl ⟨e, he, rfl⟩
  · rename_i r hr; cases h; exact .inr ⟨r, hr, rfl⟩

theorem lzwdBody_of_ok {s : State} {r : LzwdRegs} (h : lzwdRun s.cfg s.wD s.codeSource = .ok r) :
    lzwdBody s = .next (complete (lzwdStore r (s.draw s.codeLen.toNat))) := by
  simp only [lzwdBody, h]

theorem lzwdBody_of_error {s : State} {e : Raise} (h : lzwdRun s.cfg s.wD s.codeSource = .error e) :
    lzwdBody s = .next (raise e (loseDecoder (loseText (s.draw s.codeLen.toNat)))) := by
  simp only [lzwdBody, h]

/-- `HGEN`, accepted. -/
theorem hgenBody_next_cases {s t : State} (h : hgenBody s = .next t) :
    (∃ e, genTable s.cfg s.nodes s.nodeCount s.root = .error (some e) ∧ t = raise e (loseTable s)) ∨
    (∃ m, genTable s.cfg s.nodes s.nodeCount s.root = .ok m ∧ t = complete (hgenStore m s)) := by
  simp only [hgenBody] at h
  split at h
  · cases h
  · rename_i e he; cases h; exact .inl ⟨e, he, rfl⟩
  · rename_i m hm; cases h; exact .inr ⟨m, hm, rfl⟩

theorem hgenBody_of_ok {s : State} {m : Memory Entry} (h : genTable s.cfg s.nodes s.nodeCount s.root = .ok m) :
    hgenBody s = .next (complete (hgenStore m s)) := by
  simp only [hgenBody, h]

theorem hgenBody_of_error {s : State} {e : Raise} (h : genTable s.cfg s.nodes s.nodeCount s.root = .error (some e)) :
    hgenBody s = .next (raise e (loseTable s)) := by
  simp only [hgenBody, h]

/-- `PACK`, accepted. -/
theorem packBody_next_cases {s t : State} (h : packBody s = .next t) :
    (∃ e, packRun s.cfg s.table s.codeSource = .error e ∧ t = raise e (losePacked (s.draw s.codeLen.toNat))) ∨
    (∃ bits, packRun s.cfg s.table s.codeSource = .ok bits ∧
      t = complete (packStore bits (s.draw s.codeLen.toNat))) := by
  simp only [packBody] at h
  split at h
  · rename_i e he; cases h; exact .inl ⟨e, he, rfl⟩
  · rename_i r hr; cases h; exact .inr ⟨r, hr, rfl⟩

theorem packBody_of_ok {s : State} {bits : List Bool} (h : packRun s.cfg s.table s.codeSource = .ok bits) :
    packBody s = .next (complete (packStore bits (s.draw s.codeLen.toNat))) := by
  simp only [packBody, h]

theorem packBody_of_error {s : State} {e : Raise} (h : packRun s.cfg s.table s.codeSource = .error e) :
    packBody s = .next (raise e (losePacked (s.draw s.codeLen.toNat))) := by
  simp only [packBody, h]

/-- The scan, at the end of an accepted `UNPK` or `UNPKL`. -/
theorem scan_next_cases {n : Nat} {s t : State} (h : scan n s = .next t) :
    (∃ e, scanRun s.cfg s.table ((streamBits s.packedSource).take n) = .error e ∧
      t = raise e (loseCand (loseCode (s.draw s.packedLen.toNat)))) ∨
    (∃ r, scanRun s.cfg s.table ((streamBits s.packedSource).take n) = .ok r ∧
      t = complete (scanStore r (s.draw s.packedLen.toNat))) := by
  simp only [scan] at h
  split at h
  · rename_i e he; cases h; exact .inl ⟨e, he, rfl⟩
  · rename_i r hr; cases h; exact .inr ⟨r, hr, rfl⟩

theorem scan_of_ok {n : Nat} {s : State} {r : ScanRegs}
    (h : scanRun s.cfg s.table ((streamBits s.packedSource).take n) = .ok r) :
    scan n s = .next (complete (scanStore r (s.draw s.packedLen.toNat))) := by
  simp only [scan, h]

theorem scan_of_error {n : Nat} {s : State} {e : Raise}
    (h : scanRun s.cfg s.table ((streamBits s.packedSource).take n) = .error e) :
    scan n s = .next (raise e (loseCand (loseCode (s.draw s.packedLen.toNat)))) := by
  simp only [scan, h]

/-- `UNPKL`, accepted: the range check, then the scan. -/
theorem unpklBody_next_cases {s t : State} (h : unpklBody s = .next t) :
    (8 * s.packedLen.toNat < s.bitLen.toNat ∧
      t = raise ⟨.bitlenRange, s.bitLen.toNat⟩ (loseCand (loseCode s))) ∨
    (s.bitLen.toNat ≤ 8 * s.packedLen.toNat ∧ scan s.bitLen.toNat s = .next t) := by
  unfold unpklBody at h
  split at h
  · rename_i hr; cases h; exact .inl ⟨hr, rfl⟩
  · rename_i hr; exact .inr ⟨by omega, h⟩

/-! ## A run that raises names a cause -/

theorem cause_of_lzweRun {p : Params} {bs : List Byte} {e : Raise} (h : lzweRun p bs = .error e) : e.cause ≠ .none := by
  unfold lzweRun at h
  split at h
  · rename_i e' he
    cases h
    obtain ⟨_, _, _, _, -, -, hb⟩ := forEach_error_cases he
    obtain ⟨-, ⟨-, rfl⟩ | ⟨-, -, rfl⟩⟩ := lzweByte_error_cases hb <;> simp
  · obtain ⟨-, -, rfl⟩ := lzweFlush_error_cases h; simp

theorem cause_of_lzwdRun {p : Params} {w : List Byte} {ks : List Nat} {e : Raise} (h : lzwdRun p w ks = .error e) :
    e.cause ≠ .none := by
  unfold lzwdRun at h
  split at h
  · cases h
  · split at h
    · cases h; simp
    · obtain ⟨_, _, _, _, -, -, hb⟩ := forEach_error_cases h
      obtain ⟨-, rfl⟩ | ⟨-, -, rfl⟩ := lzwdCode_error_cases hb <;> simp

theorem cause_of_packRun {p : Params} {t : Memory Entry} {ks : List Nat} {e : Raise} (h : packRun p t ks = .error e) :
    e.cause ≠ .none := by
  obtain ⟨_, _, _, _, -, -, hb⟩ := forEach_error_cases h
  obtain ⟨-, rfl⟩ | ⟨-, -, rfl⟩ := packCode_error_cases hb <;> simp

theorem cause_of_scanRun {p : Params} {t : Memory Entry} {bits : List Bool} {e : Raise} (h : scanRun p t bits = .error e) :
    e.cause ≠ .none := by
  obtain ⟨_, _, _, _, -, -, hb⟩ := forEach_error_cases h
  obtain ⟨-, rfl⟩ | ⟨_, -, -, rfl⟩ := scanBit_error_cases hb <;> simp

/-! ## What the output of a loop stays within -/

theorem mem_of_dictCode {d : DictE} {w : List Byte} {c : Nat} (h : dictCode d w = some c) : (w, c) ∈ d := by
  induction d with
  | nil => simp [dictCode] at h
  | cons x d ih =>
    obtain ⟨k, v⟩ := x
    simp only [dictCode] at h
    split at h
    · rename_i hk; cases h; subst hk; simp
    · exact List.mem_cons_of_mem _ (ih h)

theorem length_lzweEmit_le (r : LzweRegs) : (lzweEmit r).length ≤ r.out.length + 1 := by
  unfold lzweEmit; cases dictCode r.dict r.w <;> simp

theorem mem_lzweEmit {r : LzweRegs} {c : Nat} (h : c ∈ lzweEmit r) : c ∈ r.out ∨ (r.w, c) ∈ r.dict := by
  simp only [lzweEmit, List.mem_append, Option.mem_toList] at h
  exact h.imp_right mem_of_dictCode

theorem mem_keys_of_codesSpelled {t : Memory Entry} {u : List Bool} {c : Nat} (h : c ∈ codesSpelled t u) :
    ∃ e, (c, e) ∈ t := by
  obtain ⟨x, hx, rfl⟩ := List.mem_map.1 h
  exact ⟨x.2, (List.mem_filter.1 hx).1⟩

/-- A code read from a source, defined or free, has `CODE_W` bits when those held do. -/
theorem codeSource_lt {s : State} (h : ∀ x ∈ s.code, x.2 < 2 ^ s.cfg.codeW) {c : Nat} (hc : c ∈ s.codeSource) :
    c < 2 ^ s.cfg.codeW := by
  rcases mem_sourceOf hc with ⟨i, hi⟩ | ⟨k, rfl⟩
  · exact h _ (Memory.mem_of_get? hi)
  · exact Nat.mod_lt _ (Nat.two_pow_pos _)

@[simp] theorem length_textSource (s : State) : s.textSource.length = s.textLen.toNat := by simp [State.textSource]
@[simp] theorem length_codeSource (s : State) : s.codeSource.length = s.codeLen.toNat := by simp [State.codeSource]
@[simp] theorem length_packedSource (s : State) : s.packedSource.length = s.packedLen.toNat := by simp [State.packedSource]

end Sys2Proof.Machine
end

