-- ==== Sys2Proof/Laws/Exec.lean ====
section
/-! SUPPORT. A command issued to an idle core is its body on the accepted word; defined sources are the lists they hold; what
completion and fault entry leave, in the terms of the statements. -/

namespace Sys2Proof.Machine

/-! ## Issue to an idle core -/

theorem exec_clr_of_notBusy {s : State} (h : s.status.busy = false) : exec .clr s = .next (clear s) := by
  simp [exec, execClr, h]

theorem exec_lzwe_of_idle {s : State} (h : Idle s) : exec .lzwe s = lzweBody (accept 1 s) := command_of_idle h.1 h.2
theorem exec_lzwd_of_idle {s : State} (h : Idle s) : exec .lzwd s = lzwdBody (accept 2 s) := command_of_idle h.1 h.2
theorem exec_hbld_of_idle {s : State} (h : Idle s) : exec .hbld s = hbldBody (accept 3 s) := command_of_idle h.1 h.2
theorem exec_hgen_of_idle {s : State} (h : Idle s) : exec .hgen s = hgenBody (accept 4 s) := command_of_idle h.1 h.2
theorem exec_pack_of_idle {s : State} (h : Idle s) : exec .pack s = packBody (accept 5 s) := command_of_idle h.1 h.2
theorem exec_unpk_of_idle {s : State} (h : Idle s) : exec .unpk s = unpkBody (accept 6 s) := command_of_idle h.1 h.2
theorem exec_unpkl_of_idle {s : State} (h : Idle s) : exec .unpkl s = unpklBody (accept 7 s) := command_of_idle h.1 h.2

/-- While faulted every command but `CLR` changes nothing. -/
theorem exec_of_faulted {s : State} {i : Instr} (hb : s.status.busy = false) (hf : s.status.fault = true) (hi : i ≠ .clr) :
    exec i s = .next s := by
  cases i <;> first | exact absurd rfl hi | exact command_of_faulted hb hf

/-- While busy every command is refused. -/
theorem exec_of_busy {s : State} {i : Instr} (hb : s.status.busy = true) : exec i s = .refused .accessWhileBusy := by
  cases i <;> first | exact command_of_busy hb | simp [exec, execClr, hb]

/-- A command but `CLR` that answers without a fault was issued to an idle core. -/
theorem idle_of_exec_not_faulted {s t : State} {i : Instr} (hi : i ≠ .clr) (h : exec i s = .next t)
    (hf : t.status.fault = false) : Idle s := by
  have hb : s.status.busy = false := by
    by_contra hb
    rw [exec_of_busy (by simpa using hb)] at h; cases h
  refine ⟨hb, ?_⟩
  by_contra hc
  rw [exec_of_faulted hb (by simpa using hc) hi] at h; cases h; exact hc hf

/-! ## Sources and destinations -/

theorem textSource_of_begins {s : State} {bs : List Byte} (h : s.text.Begins s.textLen bs) : s.textSource = bs :=
  sourceOf_eq h.1 h.2

theorem codeSource_of_begins {s : State} {ks : List Nat} (h : s.code.Begins s.codeLen ks) : s.codeSource = ks :=
  sourceOf_eq h.1 h.2

theorem packedSource_of_begins {s : State} {bs : List Byte} (h : s.packed.Begins s.packedLen bs) : s.packedSource = bs :=
  sourceOf_eq h.1 h.2

theorem holds_ofList {α : Type} (l : List α) : (Memory.ofList l).Holds l := fun i => Memory.get?_ofList l i

theorem begins_ofList {α : Type} {l : List α} {len : Word} (h : len.toNat = l.length) : (Memory.ofList l).Begins len l :=
  ⟨h, fun i _ => Memory.get?_ofList l i⟩

theorem Memory.Holds.begins {α : Type} {m : Memory α} {l : List α} {len : Word} (hm : m.Holds l) (h : len.toNat = l.length) :
    m.Begins len l := ⟨h, fun i _ => hm i⟩

/-! ## Ends -/

theorem faultedWith_raise {op : BitVec 8} {e : Raise} {s : State} (h : s.status.lastop = op) :
    FaultedWith op e.cause e.info (raise e s) := ⟨rfl, rfl, rfl, rfl, h, rfl⟩

theorem completed_complete {op : BitVec 8} {s : State} (hl : s.status.lastop = op) (hf : s.status.fault = false) :
    Completed op (complete s) := ⟨rfl, rfl, hf, hl⟩

end Sys2Proof.Machine
end

