-- ==== Sys2Proof/Laws/Formats.lean ====
section
/-! SUPPORT. Bitstrings, table entries and the packed stream. -/

namespace Sys2Proof.Machine

/-! ## Bitstrings and entries -/

/-- `2^LEN_W` is above `MAXLEN` (00_scope.md R9). -/
theorem lt_two_pow_leastWidth (n : Nat) : n < 2 ^ leastWidth n := by
  unfold leastWidth
  split
  · omega
  · exact Nat.lt_log2_self

@[simp] theorem bitsNumber_nil : bitsNumber [] = 0 := rfl

theorem bitsNumber_concat (bs : List Bool) (b : Bool) : bitsNumber (bs ++ [b]) = 2 * bitsNumber bs + b.toNat := by
  simp [bitsNumber]

theorem bitsNumber_lt (bs : List Bool) : bitsNumber bs < 2 ^ bs.length := by
  induction bs using List.reverseRecOn with
  | nil => simp
  | append_singleton bs b ih =>
    rw [bitsNumber_concat, List.length_append, List.length_singleton, Nat.pow_succ]
    cases b <;> simp <;> omega

/-- Bit `n - 1 - i` of the number is bit `i` of the string (30_encoding.md R89). -/
theorem testBit_bitsNumber (bs : List Bool) : ∀ i (h : i < bs.length), (bitsNumber bs).testBit (bs.length - 1 - i) = bs[i] := by
  induction bs using List.reverseRecOn with
  | nil => intro i h; simp at h
  | append_singleton bs b ih =>
    intro i h
    rw [bitsNumber_concat]
    simp only [List.length_append, List.length_singleton] at h ⊢
    by_cases hi : i = bs.length
    · subst hi
      rw [show bs.length + 1 - 1 - bs.length = 0 by omega, Nat.testBit_zero]
      cases b <;> simp
    · have hi' : i < bs.length := by omega
      rw [show bs.length + 1 - 1 - i = (bs.length - 1 - i) + 1 by omega, Nat.testBit_succ,
        show (2 * bitsNumber bs + b.toNat) / 2 = bitsNumber bs by (cases b <;> simp); omega, ih i hi']
      simp [List.getElem_append_left hi']

@[simp] theorem Entry.length_toBits (e : Entry) : e.toBits.length = e.len := by simp [Entry.toBits]

@[simp] theorem Entry.len_ofBits (bs : List Bool) : (Entry.ofBits bs).len = bs.length := rfl

theorem Entry.bits_ofBits_lt (bs : List Bool) : (Entry.ofBits bs).bits < 2 ^ (Entry.ofBits bs).len := bitsNumber_lt bs

/-- The bitstring of the entry of a bitstring. -/
@[simp] theorem Entry.toBits_ofBits (bs : List Bool) : (Entry.ofBits bs).toBits = bs := by
  refine List.ext_getElem (by simp) fun i h1 h2 => ?_
  simp only [Entry.toBits, List.getElem_map, List.getElem_range]
  exact testBit_bitsNumber bs i h2

theorem bitsNumber_toBits (n : Nat) : ∀ b : Nat, b < 2 ^ n → bitsNumber ((List.range n).map fun i => b.testBit (n - 1 - i)) = b := by
  induction n with
  | zero => intro b h; simp at h; simp [h]
  | succ n ih =>
    intro b h
    rw [List.range_succ, List.map_append, List.map_singleton, bitsNumber_concat]
    have hl : ((List.range n).map fun i => b.testBit (n + 1 - 1 - i)) = (List.range n).map fun i => (b / 2).testBit (n - 1 - i) := by
      refine List.map_congr_left fun i hi => ?_
      have := List.mem_range.1 hi
      rw [← Nat.testBit_succ, show (n - 1 - i).succ = n + 1 - 1 - i by omega]
    rw [hl, ih (b / 2) (by rw [Nat.pow_succ] at h; omega), show n + 1 - 1 - n = 0 by omega, Nat.testBit_zero]
    rcases Nat.mod_two_eq_zero_or_one b with h0 | h0 <;> simp [h0] <;> omega

/-- The entry of the bitstring of an entry without bits at or above `LEN`. -/
theorem Entry.ofBits_toBits {e : Entry} (h : e.bits < 2 ^ e.len) : Entry.ofBits e.toBits = e := by
  obtain ⟨l, b⟩ := e
  simp only [Entry.ofBits, Entry.length_toBits, Entry.mk.injEq, true_and]
  exact bitsNumber_toBits l b h

theorem Entry.toBits_inj {e f : Entry} (he : e.bits < 2 ^ e.len) (hf : f.bits < 2 ^ f.len) (h : e.toBits = f.toBits) : e = f := by
  rw [← Entry.ofBits_toBits he, ← Entry.ofBits_toBits hf, h]

/-! ## The packed stream -/

@[simp] theorem length_byteBits (b : Byte) : (byteBits b).length = 8 := by simp [byteBits]

@[simp] theorem streamBits_nil : streamBits [] = [] := rfl

theorem streamBits_cons (b : Byte) (bs : List Byte) : streamBits (b :: bs) = byteBits b ++ streamBits bs := rfl

@[simp] theorem length_streamBits (bytes : List Byte) : (streamBits bytes).length = 8 * bytes.length := by
  induction bytes with
  | nil => rfl
  | cons b bs ih => rw [streamBits_cons, List.length_append, ih, length_byteBits, List.length_cons]; omega

/-- Bit `n` of the stream is bit `7 - n mod 8` of byte `n div 8` (20_memory.md R60). -/
theorem getElem?_streamBits (bytes : List Byte) (n : Nat) :
    (streamBits bytes)[n]? = bytes[n / 8]?.map fun b => b.getLsbD (7 - n % 8) := by
  induction bytes generalizing n with
  | nil => simp
  | cons b bs ih =>
    rw [streamBits_cons]
    by_cases h : n < 8
    · rw [List.getElem?_append_left (by simpa using h), Nat.div_eq_of_lt h, Nat.mod_eq_of_lt h]
      simp [byteBits, h]
    · rw [List.getElem?_append_right (by simpa using Nat.le_of_not_lt h), ih, length_byteBits,
        show n / 8 = (n - 8) / 8 + 1 by omega, show n % 8 = (n - 8) % 8 by omega]
      simp

/-- Position `p` of byte `j` of a packed bit sequence. -/
theorem getLsbD_packedByte (bits : List Bool) (j p : Nat) (hp : p < 8) :
    (packedByte bits j).getLsbD (7 - p) = bits.getD (8 * j + p) false := by
  have h := testBit_bitsNumber ((List.range 8).map fun p => bits.getD (8 * j + p) false) p (by simpa using hp)
  simp only [List.length_map, List.length_range, List.getElem_map, List.getElem_range] at h
  rw [packedByte, BitVec.getLsbD_ofNat, show 7 - p = 8 - 1 - p by omega, h]
  simp; omega

@[simp] theorem length_packedBytes (bits : List Bool) : (packedBytes bits).length = bytesFor bits.length := by
  simp [packedBytes]

/-- The stream of a packed bit sequence: the sequence, then the padding (42_bitpack.md R140). -/
theorem streamBits_packedBytes (bits : List Bool) :
    streamBits (packedBytes bits) = bits ++ List.replicate (8 * bytesFor bits.length - bits.length) false := by
  refine List.ext_getElem? fun n => ?_
  have hb : bits.length ≤ 8 * bytesFor bits.length := by unfold bytesFor; omega
  rw [getElem?_streamBits]
  by_cases hn : n < 8 * bytesFor bits.length
  · have h1 : (packedBytes bits)[n / 8]? = some (packedByte bits (n / 8)) := by
      simp [packedBytes, show n / 8 < bytesFor bits.length by omega]
    rw [h1, Option.map_some, getLsbD_packedByte _ _ _ (Nat.mod_lt _ (by omega)), Nat.div_add_mod]
    by_cases h2 : n < bits.length
    · rw [List.getElem?_append_left h2]; simp [List.getD, h2]
    · rw [List.getElem?_append_right (by omega)]
      simp [List.getD, List.getElem?_eq_none (Nat.le_of_not_lt h2), List.getElem?_replicate]; omega
  · rw [List.getElem?_eq_none (by simp; omega), List.getElem?_eq_none (by simp; omega)]; rfl

end Sys2Proof.Machine
end

