-- ==== Sys2Proof/Laws/Bitpack.lean ====
section
/-! SUPPORT. The loops of `PACK` and of the scan against the concatenated entries and against `Spells`. -/

namespace Sys2Proof.Machine

/-! ## PACK -/

theorem bitsOfCodes_cons (t : Memory Entry) (k : Nat) (ks : List Nat) :
    bitsOfCodes t (k :: ks) = (tableAt t k).toBits ++ bitsOfCodes t ks := rfl

theorem length_bitsOfCodes (t : Memory Entry) (ks : List Nat) :
    (bitsOfCodes t ks).length = (ks.map fun k => (tableAt t k).len).sum := by
  simp [bitsOfCodes, List.length_flatMap]

/-- The loop of `PACK` over codes that all have an entry and whose bits fit. -/
theorem packLoop_ok {p : Params} {t : Memory Entry} {ks : List Nat} (i : Nat) {bits : List Bool}
    (hk : ∀ k ∈ ks, (tableAt t k).len ≠ 0) (hc : bits.length + (bitsOfCodes t ks).length ≤ 8 * p.packedCap) :
    forEach (packCode p t) i ks bits = .ok (bits ++ bitsOfCodes t ks) := by
  induction ks generalizing i bits with
  | nil => simp [bitsOfCodes]
  | cons k ks ih =>
    rw [bitsOfCodes_cons, List.length_append, Entry.length_toBits] at hc
    have hstep : packCode p t i k bits = .ok (bits ++ (tableAt t k).toBits) := by
      simp only [packCode]
      rw [if_neg (hk k List.mem_cons_self), if_neg (by omega)]
    rw [forEach_cons, hstep]
    simp only
    rw [ih _ (fun k hk' => hk k (List.mem_cons_of_mem _ hk')) (by simp; omega), bitsOfCodes_cons, List.append_assoc]

/-- A completed loop of `PACK`: every code has an entry, the bits fit and are the concatenated ones. -/
theorem packLoop_ok_inv {p : Params} {t : Memory Entry} {ks : List Nat} {i : Nat} {bits bits' : List Bool}
    (h : forEach (packCode p t) i ks bits = .ok bits') :
    (∀ k ∈ ks, (tableAt t k).len ≠ 0) ∧ bits' = bits ++ bitsOfCodes t ks ∧
      (bits.length ≤ 8 * p.packedCap → bits'.length ≤ 8 * p.packedCap) := by
  induction ks generalizing i bits with
  | nil => cases h; simp [bitsOfCodes]
  | cons k ks ih =>
    rw [forEach_cons] at h
    split at h
    · cases h
    · rename_i b hb
      obtain ⟨h1, h2, rfl⟩ := packCode_ok_cases hb
      obtain ⟨g1, g2, g3⟩ := ih h
      refine ⟨fun j hj => ?_, ?_, fun _ => g3 (by simp; omega)⟩
      · rcases List.mem_cons.1 hj with rfl | hj
        · exact h1
        · exact g1 j hj
      · rw [g2, bitsOfCodes_cons, List.append_assoc]

/-! ## The scan -/

theorem mem_codesSpelled {t : Memory Entry} (ht : Memory.wf t) (u : List Bool) (c : Nat) :
    c ∈ codesSpelled t u ↔ (tableAt t c).len ≠ 0 ∧ (tableAt t c).toBits = u := by
  unfold codesSpelled tableAt
  simp only [List.mem_map, List.mem_filter, decide_eq_true_eq]
  constructor
  · rintro ⟨⟨d, e⟩, ⟨hm, he⟩, rfl⟩
    rw [(Memory.get?_eq_some_iff ht).2 hm]; exact he
  · intro h
    cases hg : t.get? c with
    | none => rw [hg] at h; simp at h
    | some e => rw [hg] at h; exact ⟨(c, e), ⟨Memory.mem_of_get? hg, h⟩, rfl⟩

theorem nodup_codesSpelled {t : Memory Entry} (ht : Memory.wf t) (u : List Bool) : (codesSpelled t u).Nodup := by
  unfold codesSpelled
  refine List.Nodup.map_on (fun x hx y hy hxy => ?_) (List.Nodup.filter _ (ht.imp fun h => ?_))
  · have hx := (Memory.get?_eq_some_iff (v := x.2) ht).2 (List.mem_filter.1 hx).1
    have hy := (Memory.get?_eq_some_iff (v := y.2) ht).2 (List.mem_filter.1 hy).1
    rw [hxy, hy] at hx
    exact Prod.ext hxy (Option.some.inj hx).symm
  · rintro rfl; exact absurd h (Nat.lt_irrefl _)

/-- Bits that complete no entry extend `CAND`. -/
theorem scanLoop_extend {p : Params} {t : Memory Entry} {u : List Bool} (i : Nat) (r : ScanRegs)
    (h : ∀ v, v ≠ [] → v <+: u → codesSpelled t (r.cand ++ v) = []) :
    forEach (scanBit p t) i u r = .ok { r with cand := r.cand ++ u } := by
  induction u generalizing i r with
  | nil => simp
  | cons b u ih =>
    have hstep : scanBit p t i b r = .ok { r with cand := r.cand ++ [b] } := by
      have := h [b] (by simp) (by simp)
      simp only [scanBit, this]
    rw [forEach_cons, hstep]
    simp only
    rw [ih (i + 1) { r with cand := r.cand ++ [b] } fun v hv hvu => by
      simp only [List.append_assoc, List.singleton_append]
      exact h (b :: v) (by simp) (by simpa using hvu)]
    simp

/-- The scan of bits that the table cuts into codes that fit. -/
theorem scanLoop_of_spells {p : Params} {t : Memory Entry} {bits rest : List Bool} {codes : List Nat}
    (h : Spells t bits codes rest) : ∀ (i : Nat) (out : List Nat), out.length + codes.length ≤ p.codeCap →
    forEach (scanBit p t) i bits { cand := [], out := out } = .ok { cand := rest, out := out ++ codes } := by
  induction h with
  | residue h =>
    intro i out _
    rw [scanLoop_extend i _ fun v hv hvu => by simpa using h v hv hvu]; simp
  | @code u bits rest c codes hu hc hv _ ih =>
    intro i out hl
    simp only [List.length_cons] at hl
    obtain ⟨w, b, rfl⟩ : ∃ w b, u = w ++ [b] := ⟨u.dropLast, u.getLast hu, (List.dropLast_append_getLast hu).symm⟩
    have h1 : forEach (scanBit p t) i w { cand := [], out := out } = .ok { cand := w, out := out } := by
      rw [scanLoop_extend i _ fun v hne hvw => ?_]; · simp
      simp only [List.nil_append]
      refine hv v hne (hvw.trans (List.prefix_append _ _)) ?_
      rintro rfl
      have := hvw.length_le; simp at this
    have h2 : scanBit p t (i + w.length) b { cand := w, out := out } = .ok { cand := [], out := out ++ [c] } := by
      simp only [scanBit, hc]
      rw [if_neg (by omega)]
    rw [List.append_assoc, forEach_append, h1]
    simp only [List.singleton_append, forEach_cons, h2]
    rw [ih _ _ (by simp; omega)]
    simp

/-- Under a prefix-free table the bits of a code are cut off as that code. -/
theorem Spells.codes {t : Memory Entry} (ht : Memory.wf t) (hp : PrefixFree t) {ks : List Nat}
    (hk : ∀ k ∈ ks, (tableAt t k).len ≠ 0) {tail rest : List Bool} {more : List Nat} (h : Spells t tail more rest) :
    Spells t (bitsOfCodes t ks ++ tail) (ks ++ more) rest := by
  induction ks with
  | nil => exact h
  | cons k ks ih =>
    have hk0 := hk k List.mem_cons_self
    rw [bitsOfCodes_cons, List.append_assoc, List.cons_append]
    refine .code (fun e => hk0 ?_) ?_ (fun v hv hvu hne => ?_) (ih fun j hj => hk j (List.mem_cons_of_mem _ hj))
    · rw [← Entry.length_toBits, e]; rfl
    · have hm : ∀ c, c ∈ codesSpelled t (tableAt t k).toBits ↔ c = k := by
        intro c
        rw [mem_codesSpelled ht]
        refine ⟨fun ⟨h1, h2⟩ => ?_, by rintro rfl; exact ⟨hk0, rfl⟩⟩
        by_contra hne
        exact hp c k hne h1 hk0 (h2 ▸ List.prefix_refl _)
      have := List.perm_singleton.1 ((List.perm_ext_iff_of_nodup (nodup_codesSpelled ht _) (List.nodup_singleton k)).2
        fun c => by rw [hm, List.mem_singleton])
      exact this
    · rw [List.eq_nil_iff_forall_not_mem]
      intro d hd
      obtain ⟨h1, h2⟩ := (mem_codesSpelled ht _ _).1 hd
      by_cases hdk : d = k
      · subst hdk; exact hne h2.symm
      · exact hp d k hdk h1 hk0 (by rw [h2]; exact hvu)

end Sys2Proof.Machine
end

