-- ==== Sys2Proof/Laws/HostAccess.lean ====
section
/-! SUPPORT. What a host read and a host write can do, once. -/

namespace Sys2Proof.Machine

/-- A read moves the value the host saw and the count of free values, nothing else (20_memory.md R65). -/
theorem hostRead_cases (sp : Space) (i : Nat) (s : State) :
    ∃ v d, hostRead sp i s = { s with hostSaw := v, drawn := d } := by
  unfold hostRead; split <;> exact ⟨_, _, rfl⟩

/-- What a write of a CSR can do. -/
theorem csrWrite_cases (i : Nat) (v : Word) (s : State) :
    csrWrite i v s = s ∨
    (i = 3 ∧ v.toNat ≤ s.cfg.textCap ∧ csrWrite i v s = { s with textLen := v }) ∨
    (i = 4 ∧ v.toNat ≤ s.cfg.codeCap ∧ csrWrite i v s = { s with codeLen := v }) ∨
    (i = 5 ∧ v.toNat ≤ s.cfg.packedCap ∧ csrWrite i v s = { s with packedLen := v }) ∨
    (i = 6 ∧ csrWrite i v s = { s with bitLen := v }) := by
  unfold csrWrite
  split <;> (try split) <;> simp [*]

/-- What a data write can do: nothing, a length register or `BITLEN`, or one element of TEXT, CODE, PACKED or TABLE. -/
theorem dataWrite_cases (sp : Space) (i v : Nat) (s : State) :
    dataWrite sp i v s = s ∨
    (sp = .csr ∧ dataWrite sp i v s = csrWrite i (BitVec.ofNat 32 v) s) ∨
    (sp = .text ∧ i < s.cfg.textCap ∧ dataWrite sp i v s = { s with text := s.text.set i (BitVec.ofNat 8 v) }) ∨
    (sp = .code ∧ i < s.cfg.codeCap ∧ dataWrite sp i v s = { s with code := s.code.set i (v % 2 ^ s.cfg.codeW) }) ∨
    (sp = .packed ∧ i < s.cfg.packedCap ∧ dataWrite sp i v s = { s with packed := s.packed.set i (BitVec.ofNat 8 v) }) ∨
    (sp = .table ∧ i < 2 ^ s.cfg.codeW ∧
      dataWrite sp i v s = { s with table := storeEntry s.cfg s.table i (Entry.ofValue s.cfg v) }) := by
  cases sp <;> simp only [dataWrite] <;> (try split) <;> simp [*]

@[simp] theorem dataWrite_status (sp : Space) (i v : Nat) (s : State) : (dataWrite sp i v s).status = s.status := by
  cases sp <;> simp only [dataWrite, csrWrite] <;> split <;> (try split) <;> rfl

@[simp] theorem dataWrite_cfg (sp : Space) (i v : Nat) (s : State) : (dataWrite sp i v s).cfg = s.cfg := by
  cases sp <;> simp only [dataWrite, csrWrite] <;> split <;> (try split) <;> rfl

/-- A data write does the same whatever the script is, and leaves it alone. -/
theorem dataWrite_withScript (sp : Space) (i v : Nat) (s : State) (x : List HostEvent) :
    dataWrite sp i v { s with script := x } = { dataWrite sp i v s with script := x } := by
  cases sp <;> simp only [dataWrite, csrWrite] <;> split <;> (try split) <;> rfl

/-- A write that is no command issue, on a core that is not busy. -/
theorem hostEvent_write {s : State} {sp : Space} {i v : Nat} (hb : s.status.busy = false) (h : ¬(sp = .csr ∧ i = 0)) :
    hostEvent (.write sp i v) s = .next (dataWrite sp i v s) := by
  simp only [hostEvent, if_neg h, hb]; rfl

/-- A written TABLE entry whose `LEN` fits its field: ignored above `MAXLEN`, else stored as it is (30_encoding.md R88). -/
theorem dataWrite_entry {s : State} {c : Nat} {e : Entry} (hc : c < 2 ^ s.cfg.codeW) (hl : e.len < 2 ^ s.cfg.lenW)
    (hb : e.bits < 2 ^ e.len) :
    dataWrite .table c (e.value s.cfg) s = if e.len ≤ s.cfg.maxLen then { s with table := tableSet s.table c e } else s := by
  have h1 : (Entry.ofValue s.cfg (e.value s.cfg)).len = e.len := by
    simp only [Entry.ofValue, Entry.value]
    rw [Nat.add_mul_mod_self_right, Nat.mod_eq_of_lt hl]
  have h2 : (Entry.ofValue s.cfg (e.value s.cfg)).bits = e.bits % 2 ^ s.cfg.maxLen := by
    simp only [Entry.ofValue, Entry.value]
    rw [Nat.add_mul_div_right _ _ (Nat.two_pow_pos _), Nat.div_eq_of_lt hl, Nat.zero_add]
  simp only [dataWrite, if_pos hc, storeEntry, h1, h2]
  split
  · rename_i h
    rw [Nat.mod_eq_of_lt (Nat.lt_of_lt_of_le hb (Nat.pow_le_pow_right (by omega) h)), Nat.mod_eq_of_lt hb]
  · rfl

end Sys2Proof.Machine
end

