-- ==== Sys2Proof/Laws/Huffman.lean ====
section
/-! SUPPORT. The counts and the merge loop of `HBLD`, and the walk of `HGEN`. -/

namespace Sys2Proof.Machine

/-! ## Counts -/

theorem countCodes_concat (ks : List Nat) (k : Nat) : countCodes (ks ++ [k]) = countCode (countCodes ks) k := by
  simp [countCodes]

theorem freqAt_countCode (f : Memory Nat) (k c : Nat) :
    freqAt (countCode f k) c = freqAt f c + if k = c then 1 else 0 := by
  unfold countCode
  split
  · rename_i h; subst h; rw [freqAt_countSame]
  · rename_i h; rw [freqAt_countOther _ _ (Ne.symm h)]; rfl

/-- `FREQ[c]` is the number of indices with code `c` (41_huffman.md R121). -/
theorem freqAt_countCodes (ks : List Nat) (c : Nat) : freqAt (countCodes ks) c = ks.count c := by
  induction ks using List.reverseRecOn with
  | nil => simp [countCodes, freqAt]
  | append_singleton ks k ih => rw [countCodes_concat, freqAt_countCode, ih]; simp [List.count_append, List.count_singleton]

theorem wf_countCodes (ks : List Nat) : Memory.wf (countCodes ks) := by
  induction ks using List.reverseRecOn with
  | nil => exact List.Pairwise.nil
  | append_singleton ks k ih => rw [countCodes_concat]; exact Memory.wf_set ih _ _

theorem pos_of_mem_countCodes {ks : List Nat} {x : Nat × Nat} (h : x ∈ countCodes ks) : 1 ≤ x.2 := by
  induction ks using List.reverseRecOn generalizing x with
  | nil => simp [countCodes] at h
  | append_singleton ks k ih =>
    rw [countCodes_concat] at h
    rcases Memory.mem_set h with rfl | h
    · simp
    · exact ih h

/-- The listed counts are those of the codes that occur. -/
theorem mem_countCodes_iff (ks : List Nat) (c n : Nat) : (c, n) ∈ countCodes ks ↔ c ∈ ks ∧ n = ks.count c := by
  rw [← Memory.get?_eq_some_iff (wf_countCodes ks)]
  have h := freqAt_countCodes ks c
  unfold freqAt at h
  constructor
  · intro hg
    rw [hg] at h
    have := pos_of_mem_countCodes (Memory.mem_of_get? hg)
    simp only [Option.getD_some] at h this
    exact ⟨List.count_pos_iff.1 (by omega), h⟩
  · rintro ⟨hc, rfl⟩
    have := List.count_pos_iff.2 hc
    cases hg : Memory.get? (countCodes ks) c with
    | none => rw [hg] at h; simp only [Option.getD_none] at h; omega
    | some v => rw [hg] at h; simpa using h

/-- Two memories of counts are equal when the counts are. -/
theorem countCodes_congr {ks ks' : List Nat} (h : ∀ c, ks.count c = ks'.count c) : countCodes ks = countCodes ks' := by
  refine Memory.ext_of_get? (wf_countCodes ks) (wf_countCodes ks') fun i => ?_
  have key : ∀ (ks : List Nat) (v : Nat), (countCodes ks).get? i = some v ↔ ks.count i ≠ 0 ∧ v = ks.count i := by
    intro ks v
    rw [Memory.get?_eq_some_iff (wf_countCodes ks), mem_countCodes_iff, ← List.count_pos_iff, Nat.pos_iff_ne_zero]
  exact Option.ext fun v => by rw [key, key, h]

/-- The codes that occur, in ascending order, are the keys of the counts. -/
theorem map_fst_countCodes {ks syms : List Nat} (hs : syms.Pairwise (· < ·)) (hm : ∀ c, c ∈ syms ↔ c ∈ ks) :
    countCodes ks = syms.map fun c => (c, ks.count c) := by
  refine Memory.ext_of_get? (wf_countCodes ks) (List.pairwise_map.2 hs) fun i => ?_
  refine Option.ext fun v => ?_
  rw [Memory.get?_eq_some_iff (wf_countCodes ks), mem_countCodes_iff,
    Memory.get?_eq_some_iff (m := syms.map fun c => (c, ks.count c)) (List.pairwise_map.2 hs), List.mem_map]
  constructor
  · rintro ⟨h, rfl⟩; exact ⟨i, (hm i).2 h, rfl⟩
  · rintro ⟨c, hc, h⟩; cases h; exact ⟨(hm _).1 hc, rfl⟩

theorem sum_set {f : Memory Nat} (hf : Memory.wf f) (i v : Nat) :
    ((f.set i v).map Prod.snd).sum + freqAt f i = (f.map Prod.snd).sum + v := by
  induction f with
  | nil => simp [Memory.set, freqAt]
  | cons x f ih =>
    obtain ⟨j, u⟩ := x
    rw [Memory.wf, List.pairwise_cons] at hf
    have ih := ih hf.2
    simp only [Memory.set, freqAt, Memory.get?_cons] at ih ⊢
    split
    · rename_i hij
      rw [if_neg (by omega), Memory.get?_eq_none_of_not_mem fun x hx => by have := hf.1 x hx; simp only at this; omega]
      simp only [List.map_cons, List.sum_cons, Option.getD_none]; omega
    · split
      · rename_i h; subst h; simp only [List.map_cons, List.sum_cons, if_true, Option.getD_some]; omega
      · rename_i h; rw [if_neg (Ne.symm h)]; simp only [List.map_cons, List.sum_cons]; omega

/-- The counts add up to the number of codes (41_huffman.md R121). -/
theorem sum_countCodes (ks : List Nat) : ((countCodes ks).map Prod.snd).sum = ks.length := by
  induction ks using List.reverseRecOn with
  | nil => rfl
  | append_singleton ks k ih =>
    have := sum_set (wf_countCodes ks) k (freqAt (countCodes ks) k + 1)
    rw [countCodes_concat, countCode]; simp only [List.length_append, List.length_singleton]; omega

/-! ## The merge loop -/

/-- The order of keys (41_huffman.md R123). -/
def Key.le (a b : Key) : Prop := a.weight < b.weight ∨ a.weight = b.weight ∧ a.idx ≤ b.idx

theorem foldl_least (ks : List Key) (k : Key) :
    (ks.foldl Key.least k ∈ k :: ks) ∧ ∀ x ∈ k :: ks, (ks.foldl Key.least k).le x := by
  induction ks generalizing k with
  | nil => simp [Key.le]
  | cons a ks ih =>
    obtain ⟨h1, h2⟩ := ih (k.least a)
    have hle : (k.least a = k ∨ k.least a = a) ∧ (k.least a).le k ∧ (k.least a).le a := by
      unfold Key.least Key.le; split <;> refine ⟨by simp, ?_, ?_⟩ <;> omega
    have h3 := h2 _ List.mem_cons_self
    have trans : ∀ y, (k.least a).le y → (ks.foldl Key.least (k.least a)).le y := by
      intro y hy; unfold Key.le at *; omega
    simp only [List.foldl_cons]
    refine ⟨?_, fun x hx => ?_⟩
    · rcases List.mem_cons.1 h1 with h | h
      · rw [h]; rcases hle.1 with h | h <;> rw [h] <;> simp
      · simp [h]
    · rcases List.mem_cons.1 hx with rfl | hx
      · exact trans _ hle.2.1
      · rcases List.mem_cons.1 hx with rfl | hx
        · exact trans _ hle.2.2
        · exact h2 _ (List.mem_cons_of_mem _ hx)

/-- Taking the least of the live nodes, if there is one. -/
theorem takeLeast_cases (l : List Key) :
    (l = [] ∧ takeLeast l = none) ∨ ∃ m ∈ l, takeLeast l = some (m, l.erase m) ∧ ∀ x ∈ l, m.le x := by
  cases l with
  | nil => exact .inl ⟨rfl, rfl⟩
  | cons k ks => exact .inr ⟨_, (foldl_least ks k).1, rfl, (foldl_least ks k).2⟩

/-- The nodes made so far and the live ones: the live ones are those without a parent. -/
structure Forest (pre : List Node) (live : List Key) : Prop where
  nodup : (live.map Key.idx).Nodup
  weight : ∀ x ∈ live, ∃ n, pre[x.idx]? = some n ∧ n.weight = x.weight
  roots : ∀ j, (∃ x ∈ live, x.idx = j) ↔
    j < pre.length ∧ ∀ k w l r : Nat, pre[k]? = some (Node.internal w l r) → l ≠ j ∧ r ≠ j
  children : ∀ k w l r : Nat, pre[k]? = some (Node.internal w l r) → l < k ∧ r < k

/-- Node `k` was made by the merge rule from the nodes before it (41_huffman.md R123). -/
structure MergedAt (nodes : List Node) (k : Nat) (l r : Nat) (a b : Node) : Prop where
  left : nodes[l]? = some a
  right : nodes[r]? = some b
  node : nodes[k]? = some (Node.internal (a.weight + b.weight) l r)
  below : l < k ∧ r < k ∧ l ≠ r
  orphans : ∀ k' w' l' r' : Nat, k' < k → nodes[k']? = some (Node.internal w' l' r') → l' ≠ l ∧ r' ≠ l ∧ l' ≠ r ∧ r' ≠ r
  order : a.weight < b.weight ∨ a.weight = b.weight ∧ l < r
  least : ∀ (j : Nat) (x : Node), j < k → j ≠ l → j ≠ r → nodes[j]? = some x →
    (∀ k' w' l' r' : Nat, k' < k → nodes[k']? = some (Node.internal w' l' r') → l' ≠ j ∧ r' ≠ j) →
    b.weight < x.weight ∨ b.weight = x.weight ∧ r < j

/-- One merge keeps the forest. -/
theorem Forest.merge {pre : List Node} {live : List Key} {a b : Key} (h : Forest pre live) (ha : a ∈ live)
    (hb : b ∈ live.erase a) :
    Forest (pre ++ [.internal (a.weight + b.weight) a.idx b.idx])
      (⟨a.weight + b.weight, pre.length⟩ :: (live.erase a).erase b) := by
  have hb' : b ∈ live := List.mem_of_mem_erase hb
  have hlt : ∀ x ∈ live, x.idx < pre.length := fun x hx => ((h.roots x.idx).1 ⟨x, hx, rfl⟩).1
  have hnd : live.Nodup := List.Nodup.of_map _ h.nodup
  have inj : ∀ x ∈ live, ∀ y ∈ live, x.idx = y.idx → x = y := fun x hx y hy hxy => List.inj_on_of_nodup_map h.nodup hx hy hxy
  have mem2 : ∀ x, x ∈ (live.erase a).erase b ↔ x ∈ live ∧ x ≠ a ∧ x ≠ b := by
    intro x
    rw [List.Nodup.mem_erase_iff (hnd.erase a), hnd.mem_erase_iff]; tauto
  have sub : ((live.erase a).erase b).Sublist live := List.erase_sublist.trans List.erase_sublist
  have app : ∀ k w l r : Nat, (pre ++ [Node.internal (a.weight + b.weight) a.idx b.idx])[k]? = some (Node.internal w l r) →
      pre[k]? = some (Node.internal w l r) ∨ (k = pre.length ∧ l = a.idx ∧ r = b.idx) := by
    intro k w l r hk
    rcases Nat.lt_trichotomy k pre.length with hlt | heq | hgt
    · left; rwa [List.getElem?_append_left hlt] at hk
    · right; subst heq; simp at hk; exact ⟨rfl, hk.2.1.symm, hk.2.2.symm⟩
    · rw [List.getElem?_eq_none (by simp; omega)] at hk; cases hk
  refine ⟨?_, ?_, ?_, ?_⟩
  · rw [List.map_cons, List.nodup_cons]
    refine ⟨fun hm => ?_, (sub.map Key.idx).nodup h.nodup⟩
    obtain ⟨x, hx, hxi⟩ := List.mem_map.1 hm
    have := hlt x ((mem2 x).1 hx).1
    simp only at hxi; omega
  · intro x hx
    rcases List.mem_cons.1 hx with rfl | hx
    · exact ⟨Node.internal (a.weight + b.weight) a.idx b.idx, by simp, rfl⟩
    · obtain ⟨n, hn, hw⟩ := h.weight x ((mem2 x).1 hx).1
      exact ⟨n, by rw [List.getElem?_append_left (hlt x ((mem2 x).1 hx).1)]; exact hn, hw⟩
  · intro j
    constructor
    · rintro ⟨x, hx, rfl⟩
      rcases List.mem_cons.1 hx with rfl | hx
      · refine ⟨by simp, fun k w l r hk => ?_⟩
        rcases app k w l r hk with hk | ⟨_, rfl, rfl⟩
        · have := h.children k w l r hk
          have hk' : k < pre.length := (List.getElem?_eq_some_iff.1 hk).1
          simp only; omega
        · have := hlt a ha; have := hlt b hb'; simp only; omega
      · obtain ⟨hx, hxa, hxb⟩ := (mem2 x).1 hx
        obtain ⟨h1, h2⟩ := (h.roots x.idx).1 ⟨x, hx, rfl⟩
        refine ⟨by simp; omega, fun k w l r hk => ?_⟩
        rcases app k w l r hk with hk | ⟨_, rfl, rfl⟩
        · exact h2 k w l r hk
        · exact ⟨fun e => hxa (inj _ hx _ ha e.symm), fun e => hxb (inj _ hx _ hb' e.symm)⟩
    · rintro ⟨h1, h2⟩
      by_cases hj : j = pre.length
      · exact ⟨_, List.mem_cons_self, hj.symm⟩
      · have h1' : j < pre.length := by simp at h1; omega
        obtain ⟨x, hx, hxj⟩ := (h.roots j).2 ⟨h1', fun k w l r hk => h2 k w l r (by
          rw [List.getElem?_append_left (List.getElem?_eq_some_iff.1 hk).1]; exact hk)⟩
        have h3 := h2 pre.length _ a.idx b.idx (by simp; rfl)
        refine ⟨x, List.mem_cons_of_mem _ ((mem2 x).2 ⟨hx, ?_, ?_⟩), hxj⟩
        · rintro rfl; exact h3.1 hxj
        · rintro rfl; exact h3.2 hxj
  · intro k w l r hk
    rcases app k w l r hk with hk | ⟨rfl, rfl, rfl⟩
    · exact h.children k w l r hk
    · exact ⟨hlt a ha, hlt b hb'⟩

/-- The merge loop ends with one live node, which carries all the weight; every node it makes is by the merge rule. -/
theorem mergeNodes_spec (turns : Nat) : ∀ {pre : List Node} {live : List Key}, Forest pre live → live ≠ [] →
    live.length ≤ turns + 1 →
    (mergeNodes turns live pre.length).length = live.length - 1 ∧
    (∃ x, Forest (pre ++ mergeNodes turns live pre.length) [x] ∧ x.weight = (live.map Key.weight).sum) ∧
    ∀ k, pre.length ≤ k → k < (pre ++ mergeNodes turns live pre.length).length →
      ∃ l r a b, MergedAt (pre ++ mergeNodes turns live pre.length) k l r a b := by
  induction turns with
  | zero =>
    intro pre live h hne hlen
    obtain ⟨x, rfl⟩ : ∃ x, live = [x] := by
      cases live with
      | nil => exact absurd rfl hne
      | cons x l => cases l with
        | nil => exact ⟨x, rfl⟩
        | cons => simp at hlen
    refine ⟨rfl, ⟨x, by simpa [mergeNodes] using h, by simp⟩, fun k h1 h2 => ?_⟩
    simp [mergeNodes] at h2; omega
  | succ turns ih =>
    intro pre live h hne hlen
    rcases takeLeast_cases live with ⟨h0, -⟩ | ⟨a, ha, hta, hla⟩
    · exact absurd h0 hne
    have hnd : live.Nodup := List.Nodup.of_map _ h.nodup
    rcases takeLeast_cases (live.erase a) with ⟨h0, htb⟩ | ⟨b, hb, htb, hlb⟩
    · have hl : live.length = 1 := by
        have := List.length_erase_of_mem ha
        rw [h0] at this
        have := List.length_pos_iff.2 hne
        simp at *; omega
      obtain ⟨x, rfl⟩ := List.length_eq_one_iff.1 hl
      have hm : mergeNodes (turns + 1) [x] pre.length = [] := by rw [mergeNodes, hta]; simp only [htb]
      rw [hm]
      refine ⟨rfl, ⟨x, by simpa using h, by simp⟩, fun k h1 h2 => ?_⟩
      simp at h2; omega
    · have hb' : b ∈ live := List.mem_of_mem_erase hb
      have hm : mergeNodes (turns + 1) live pre.length =
          .internal (a.weight + b.weight) a.idx b.idx ::
            mergeNodes turns (⟨a.weight + b.weight, pre.length⟩ :: (live.erase a).erase b) (pre.length + 1) := by
        rw [mergeNodes, hta]; simp only [htb]
      have h1 := List.length_erase_of_mem ha
      have h2 := List.length_erase_of_mem hb
      have h3 := List.length_pos_of_mem hb
      have hf := h.merge ha hb
      obtain ⟨g1, ⟨x, g2, g3⟩, g4⟩ := ih hf (by simp) (by simp only [List.length_cons]; omega)
      rw [List.length_append, List.length_singleton] at g1 g2 g4
      rw [List.append_assoc, List.singleton_append, ← hm] at g2 g4
      have hsum : (live.map Key.weight).sum = a.weight + (b.weight + (((live.erase a).erase b).map Key.weight).sum) := by
        rw [((List.perm_cons_erase ha).map Key.weight).sum_eq]
        rw [List.map_cons, List.sum_cons, ((List.perm_cons_erase hb).map Key.weight).sum_eq]
        simp
      refine ⟨?_, ⟨x, g2, ?_⟩, fun k hk1 hk2 => ?_⟩
      · rw [hm, List.length_cons, g1, List.length_cons]; omega
      · rw [g3, hsum]; simp; omega
      · by_cases hk : k = pre.length
        · subst hk
          obtain ⟨na, hna, hwa⟩ := h.weight a ha
          obtain ⟨nb, hnb, hwb⟩ := h.weight b hb'
          have inj : ∀ x ∈ live, ∀ y ∈ live, x.idx = y.idx → x = y :=
            fun x hx y hy hxy => List.inj_on_of_nodup_map h.nodup hx hy hxy
          have hab : a.idx ≠ b.idx := by
            intro e; have := inj _ ha _ hb' e; subst this
            exact (hnd.mem_erase_iff.1 hb).1 rfl
          have ra := (h.roots a.idx).1 ⟨a, ha, rfl⟩
          have rb := (h.roots b.idx).1 ⟨b, hb', rfl⟩
          have old : ∀ j, j < pre.length → (pre ++ mergeNodes (turns + 1) live pre.length)[j]? = pre[j]? :=
            fun j hj => List.getElem?_append_left hj
          refine ⟨a.idx, b.idx, na, nb, ?_⟩
          refine { left := by rw [old _ ra.1]; exact hna, right := by rw [old _ rb.1]; exact hnb, node := ?_,
                   below := ⟨ra.1, rb.1, hab⟩, orphans := ?_, order := ?_, least := ?_ }
          · rw [hm, hwa, hwb]; simp
          · intro k' w' l' r' hk' hn
            rw [old _ hk'] at hn
            have := ra.2 k' w' l' r' hn; have := rb.2 k' w' l' r' hn; tauto
          · have := hla b hb'
            unfold Key.le at this
            rw [hwa, hwb]; omega
          · intro j y hj hja hjb hy horph
            rw [old _ hj] at hy
            obtain ⟨z, hz, rfl⟩ := (h.roots j).2 ⟨hj, fun k w l r hkn => horph k w l r (List.getElem?_eq_some_iff.1 hkn).1 (by
              rw [old _ (List.getElem?_eq_some_iff.1 hkn).1]; exact hkn)⟩
            obtain ⟨nz, hnz, hwz⟩ := h.weight z hz
            rw [hy] at hnz; cases hnz
            have : z ∈ live.erase a := hnd.mem_erase_iff.2 ⟨fun e => hja (e ▸ rfl), hz⟩
            have := hlb z this
            unfold Key.le at this
            rw [hwb, hwz]; omega
        · exact g4 k (by simp; omega) hk2

/-- The leaves before any merge. -/
theorem forest_leaves (f : Memory Nat) : Forest (leavesOf f) (leafKeys f) := by
  have noInternal : ∀ k w l r : Nat, (leavesOf f)[k]? ≠ some (Node.internal w l r) := by
    intro k w l r hk
    rw [leavesOf, List.getElem?_map] at hk
    cases hf : f[k]? <;> simp [hf] at hk
  have hmem : ∀ x ∈ leafKeys f, ∃ y, f[x.idx]? = some y ∧ x.weight = y.2 := by
    intro x hx
    obtain ⟨y, hy, rfl⟩ := List.mem_map.1 hx
    exact ⟨y.1, List.mem_zipIdx_iff_getElem?.1 hy, rfl⟩
  refine ⟨?_, fun x hx => ?_, fun j => ?_, fun k w l r hk => absurd hk (noInternal k w l r)⟩
  · have : (leafKeys f).map Key.idx = List.range f.length := by
      rw [leafKeys, List.map_map, show (Key.idx ∘ fun x : (Nat × Nat) × Nat => (⟨x.1.2, x.2⟩ : Key)) = Prod.snd from rfl,
        List.zipIdx_map_snd, List.range'_eq_map_range]; simp
    rw [this]; exact List.nodup_range
  · obtain ⟨y, hy, hw⟩ := hmem x hx
    exact ⟨Node.leaf y.2 y.1, by rw [leavesOf, List.getElem?_map, hy]; rfl, hw.symm⟩
  · constructor
    · rintro ⟨x, hx, rfl⟩
      obtain ⟨y, hy, -⟩ := hmem x hx
      exact ⟨by simpa [leavesOf] using (List.getElem?_eq_some_iff.1 hy).1, fun k w l r hk => absurd hk (noInternal k w l r)⟩
    · rintro ⟨hj, -⟩
      rw [leavesOf, List.length_map] at hj
      exact ⟨⟨f[j].2, j⟩, List.mem_map.2 ⟨(f[j], j), List.mem_zipIdx_iff_getElem?.2 (by simp [hj]), rfl⟩, rfl⟩

/-- The tree `HBLD` builds from counts that are not all 0: the leaves, then as many nodes less one, each by the merge rule;
the last node is the only one without a parent and carries all the weight. -/
theorem buildNodes_spec {f : Memory Nat} (hf : f ≠ []) :
    (buildNodes f).length = 2 * f.length - 1 ∧
    (∀ j, j < f.length → (buildNodes f)[j]? = (leavesOf f)[j]?) ∧
    (∃ x : Key, Forest (buildNodes f) [x] ∧ x.weight = (f.map Prod.snd).sum ∧ x.idx = (buildNodes f).length - 1) ∧
    ∀ k, f.length ≤ k → k < (buildNodes f).length → ∃ l r a b, MergedAt (buildNodes f) k l r a b := by
  have hl : (leafKeys f).length = f.length := by simp [leafKeys]
  have hl' : (leavesOf f).length = f.length := by simp [leavesOf]
  have hp := List.length_pos_iff.2 hf
  obtain ⟨h1, ⟨x, h2, h3⟩, h4⟩ := mergeNodes_spec f.length (forest_leaves f)
    (by rw [← List.length_pos_iff, hl]; exact hp) (by rw [hl]; omega)
  rw [hl'] at h1 h2 h4
  rw [hl] at h1
  have hlen : (buildNodes f).length = 2 * f.length - 1 := by rw [buildNodes, List.length_append, h1, hl']; omega
  refine ⟨hlen, fun j hj => List.getElem?_append_left (by rw [hl']; exact hj), ⟨x, h2, ?_, ?_⟩, h4⟩
  · rw [h3, leafKeys, List.map_map]
    have : (Key.weight ∘ fun x : (Nat × Nat) × Nat => (⟨x.1.2, x.2⟩ : Key)) = Prod.snd ∘ Prod.fst := rfl
    rw [this, ← List.map_map, List.zipIdx_map_fst]
  · have hlast := (h2.roots ((buildNodes f).length - 1)).2 ⟨by rw [← buildNodes]; omega, fun k w l r hk => by
      have := h2.children k w l r hk
      have hk' := (List.getElem?_eq_some_iff.1 hk).1
      rw [← buildNodes] at hk'; omega⟩
    obtain ⟨y, hy, hyi⟩ := hlast
    rw [List.mem_singleton.1 hy] at hyi; exact hyi

/-- Every node of a forest with one live node is reached from it. -/
theorem Forest.reached {nodes : List Node} {x : Key} (h : Forest nodes [x]) {j c : Nat} {p : List Bool}
    (hp : LeadsTo nodes j p c) : ∃ q, LeadsTo nodes x.idx (q ++ p) c ∧ (j ≠ x.idx → q ≠ []) := by
  by_cases hj : j = x.idx
  · subst hj; exact ⟨[], hp, fun hne => absurd rfl hne⟩
  · have hlt : j < nodes.length := by
      cases hp <;> rename_i hg <;> first | exact (List.getElem?_eq_some_iff.1 hg).1 | exact (List.getElem?_eq_some_iff.1 ‹_›).1
    have : ¬ ∀ k w l r : Nat, nodes[k]? = some (Node.internal w l r) → l ≠ j ∧ r ≠ j := by
      intro hno
      obtain ⟨y, hy, hyj⟩ := (h.roots j).2 ⟨hlt, hno⟩
      rw [List.mem_singleton.1 hy] at hyj; exact hj hyj.symm
    simp only [not_forall] at this
    obtain ⟨k, w, l, r, hk, hlr⟩ := this
    have hc := h.children k w l r hk
    have hkl := (List.getElem?_eq_some_iff.1 hk).1
    have key : ∃ b, LeadsTo nodes k (b :: p) c ∧ j < k := by
      by_cases hl : l = j
      · subst hl; exact ⟨false, .left hk hp, hc.1⟩
      · have hr : r = j := by by_contra hr; exact hlr ⟨hl, hr⟩
        subst hr; exact ⟨true, .right hk hp, hc.2⟩
    obtain ⟨b, hb, hjk⟩ := key
    obtain ⟨q, hq, -⟩ := h.reached hb
    exact ⟨q ++ [b], by simpa using hq, fun _ => by simp⟩
termination_by nodes.length - j

/-! ## Walks -/

/-- A path leads to one code. -/
theorem LeadsTo.prefix_eq {nodes : List Node} {k c d : Nat} {p s : List Bool} (h : LeadsTo nodes k p c)
    (h' : LeadsTo nodes k (p ++ s) d) : s = [] ∧ c = d := by
  induction h generalizing d with
  | leaf hk => cases h' <;> rename_i hk' <;> simp_all
  | left hk _ ih =>
    cases h' with
    | left hk' h' => rw [hk] at hk'; cases hk'; exact ih h'
  | right hk _ ih =>
    cases h' with
    | right hk' h' => rw [hk] at hk'; cases hk'; exact ih h'

/-- What the walk from a node leaves in the table when it completes. -/
theorem walk_ok {p : Params} {nodes : List Node} {depth : Nat} : ∀ {k : Nat} {path : List Bool} {t t' : Memory Entry},
    walk p nodes depth k path t = .ok t' → Memory.wf t →
    (path = [] → ∃ w l r : Nat, nodes[k]? = some (Node.internal w l r)) →
    Memory.wf t' ∧
    (∀ c, (¬ ∃ q, LeadsTo nodes k q c) → tableAt t' c = tableAt t c) ∧
    (∀ c, (∃ q, LeadsTo nodes k q c) → ∃ q, LeadsTo nodes k q c ∧ tableAt t' c = Entry.ofBits (path ++ q)) ∧
    (∀ q c, LeadsTo nodes k q c → (path ++ q).length ≤ p.maxLen) ∧
    (∀ x ∈ t', x ∈ t ∨ ∃ q, LeadsTo nodes k q x.1 ∧ x.2 = Entry.ofBits (path ++ q)) := by
  induction depth with
  | zero => intro k path t t' h; cases h
  | succ depth ih =>
    intro k path t t' h ht hpath
    rw [walk] at h
    split at h
    · cases h
    · rename_i w sym hk
      have only : ∀ q c, LeadsTo nodes k q c → q = [] ∧ c = sym := by
        intro q c hq
        cases hq with
        | leaf hk' => rw [hk] at hk'; cases hk'; exact ⟨rfl, rfl⟩
        | left hk' => rw [hk] at hk'; cases hk'
        | right hk' => rw [hk] at hk'; cases hk'
      split at h
      · cases h
      · rename_i hl
        cases h
        have hne : path ≠ [] := by
          intro he
          obtain ⟨w', l, r, hk'⟩ := hpath he
          rw [hk] at hk'; cases hk'
        have hself : LeadsTo nodes k [] sym := .leaf hk
        refine ⟨wf_tableSet ht _ _, fun c hc => ?_, fun c hc => ?_, fun q c hq => ?_, fun x hx => ?_⟩
        · exact tableAt_tableSet_other _ _ fun e => hc ⟨[], e ▸ hself⟩
        · obtain ⟨q, hq⟩ := hc
          obtain ⟨rfl, rfl⟩ := only q c hq
          refine ⟨[], hq, ?_⟩
          rw [tableAt_tableSet_same ht _ _ (by simp [Entry.ofBits, hne]), List.append_nil]
        · obtain ⟨rfl, -⟩ := only q c hq
          simp; omega
        · rcases mem_tableSet hx with ⟨rfl, -⟩ | hx
          · exact .inr ⟨[], hself, by simp⟩
          · exact .inl hx
    · rename_i w l r hk
      split at h
      · cases h
      · rename_i t1 h1
        obtain ⟨a1, a2, a3, a4, a5⟩ := ih h1 ht (by simp)
        obtain ⟨b1, b2, b3, b4, b5⟩ := ih h a1 (by simp)
        refine ⟨b1, fun c hc => ?_, fun c hc => ?_, fun q c hq => ?_, fun x hx => ?_⟩
        · rw [b2 c fun ⟨q, hq⟩ => hc ⟨_, .right hk hq⟩, a2 c fun ⟨q, hq⟩ => hc ⟨_, .left hk hq⟩]
        · by_cases hr : ∃ q, LeadsTo nodes r q c
          · obtain ⟨q, hq, he⟩ := b3 c hr
            exact ⟨true :: q, .right hk hq, by simpa using he⟩
          · have hl : ∃ q, LeadsTo nodes l q c := by
              obtain ⟨q, hq⟩ := hc
              cases hq with
              | leaf hk' => rw [hk] at hk'; cases hk'
              | left hk' hq => rw [hk] at hk'; cases hk'; exact ⟨_, hq⟩
              | right hk' hq => rw [hk] at hk'; cases hk'; exact absurd ⟨_, hq⟩ hr
            obtain ⟨q, hq, he⟩ := a3 c hl
            exact ⟨false :: q, .left hk hq, by rw [b2 c hr]; simpa using he⟩
        · cases hq with
          | leaf hk' => rw [hk] at hk'; cases hk'
          | left hk' hq => rw [hk] at hk'; cases hk'; simpa using a4 _ _ hq
          | right hk' hq => rw [hk] at hk'; cases hk'; simpa using b4 _ _ hq
        · rcases b5 x hx with hx | ⟨q, hq, he⟩
          · rcases a5 x hx with hx | ⟨q, hq, he⟩
            · exact .inl hx
            · exact .inr ⟨false :: q, .left hk hq, by simpa using he⟩
          · exact .inr ⟨true :: q, .right hk hq, by simpa using he⟩

/-- Where the walk from a node raises: at the first path, left before right, that is too long. -/
theorem walk_error {p : Params} {nodes : List Node} {depth : Nat} : ∀ {k : Nat} {path : List Bool} {t : Memory Entry} {e : Raise},
    walk p nodes depth k path t = .error (some e) → Memory.wf t →
    (path = [] → ∃ w l r : Nat, nodes[k]? = some (Node.internal w l r)) →
    e.cause = .codeTooLong ∧ ∃ q, LeadsTo nodes k q e.info ∧ p.maxLen < (path ++ q).length ∧
      ∀ q' c', LeadsTo nodes k q' c' → p.maxLen < (path ++ q').length →
        q' = q ∨ List.Lex (fun a b => a = false ∧ b = true) q q' := by
  induction depth with
  | zero => intro k path t e h; cases h
  | succ depth ih =>
    intro k path t e h ht hpath
    rw [walk] at h
    split at h
    · cases h
    · rename_i w sym hk
      split at h
      · rename_i hl
        cases h
        refine ⟨rfl, [], .leaf hk, by simpa using hl, fun q' c' hq' _ => .inl ?_⟩
        cases hq' with
        | leaf => rfl
        | left hk' => rw [hk] at hk'; cases hk'
        | right hk' => rw [hk] at hk'; cases hk'
      · cases h
    · rename_i w l r hk
      split at h
      · rename_i e' h1
        cases h
        obtain ⟨a1, q, a2, a3, a4⟩ := ih h1 ht (by simp)
        refine ⟨a1, false :: q, .left hk a2, by simpa using a3, fun q' c' hq' hl' => ?_⟩
        cases hq' with
        | leaf hk' => rw [hk] at hk'; cases hk'
        | left hk' hq' =>
          rw [hk] at hk'; cases hk'
          rcases a4 _ _ hq' (by simpa using hl') with rfl | h
          · exact .inl rfl
          · exact .inr (.cons h)
        | right hk' hq' => exact .inr (.rel ⟨rfl, rfl⟩)
      · rename_i t1 h1
        obtain ⟨c1, c2, c3, c4, c5⟩ := walk_ok h1 ht (by simp)
        obtain ⟨a1, q, a2, a3, a4⟩ := ih h c1 (by simp)
        refine ⟨a1, true :: q, .right hk a2, by simpa using a3, fun q' c' hq' hl' => ?_⟩
        cases hq' with
        | leaf hk' => rw [hk] at hk'; cases hk'
        | left hk' hq' =>
          rw [hk] at hk'; cases hk'
          have := c4 _ _ hq'; simp at this hl'; omega
        | right hk' hq' =>
          rw [hk] at hk'; cases hk'
          rcases a4 _ _ hq' (by simpa using hl') with rfl | h
          · exact .inl rfl
          · exact .inr (.cons h)

/-- In a tree the walk always ends in a table or in a path that is too long. -/
theorem walk_ne_error_none {p : Params} {nodes : List Node} {depth : Nat}
    (hc : ∀ k w l r : Nat, nodes[k]? = some (Node.internal w l r) → l < k ∧ r < k) :
    ∀ {k : Nat} {path : List Bool} {t : Memory Entry}, k < depth → k < nodes.length →
      walk p nodes depth k path t ≠ .error none := by
  induction depth with
  | zero => intro k path t h; omega
  | succ depth ih =>
    intro k path t hk hkl h
    rw [walk] at h
    split at h
    · rename_i hn; rw [List.getElem?_eq_none_iff] at hn; omega
    · split at h <;> cases h
    · rename_i w l r hn
      have := hc k w l r hn
      split at h
      · rename_i e h1
        cases h
        exact ih (by omega) (by omega) h1
      · exact ih (by omega) (by omega) h

/-- The table of a tree, by the shape of its root. -/
theorem genTable_cases (p : Params) (nodes : List Node) (count root : Nat) :
    (count = 0 ∧ genTable p nodes count root = .ok []) ∨
    (count ≠ 0 ∧ nodes[root]? = none ∧ genTable p nodes count root = .error none) ∨
    (∃ w c : Nat, count ≠ 0 ∧ nodes[root]? = some (Node.leaf w c) ∧
      genTable p nodes count root = .ok (tableSet [] c (Entry.ofBits [false]))) ∨
    ∃ w l r : Nat, count ≠ 0 ∧ nodes[root]? = some (Node.internal w l r) ∧
      genTable p nodes count root = walk p nodes count root [] [] := by
  by_cases h0 : count = 0
  · exact .inl ⟨h0, by simp [genTable, h0]⟩
  · cases hn : nodes[root]? with
    | none => exact .inr (.inl ⟨h0, rfl, by simp [genTable, h0, hn]⟩)
    | some n => cases n with
      | leaf w c => exact .inr (.inr (.inl ⟨w, c, h0, rfl, by simp [genTable, h0, hn]⟩))
      | internal w l r => exact .inr (.inr (.inr ⟨w, l, r, h0, rfl, by simp [genTable, h0, hn]⟩))

theorem cause_of_genTable {p : Params} {nodes : List Node} {count root : Nat} {e : Raise}
    (h : genTable p nodes count root = .error (some e)) : e.cause = .codeTooLong := by
  rcases genTable_cases p nodes count root with ⟨-, g⟩ | ⟨-, -, g⟩ | ⟨_, _, -, -, g⟩ | ⟨_, _, _, -, hr, g⟩ <;> rw [g] at h
  · cases h
  · cases h
  · cases h
  · exact (walk_error h List.Pairwise.nil fun _ => ⟨_, _, _, hr⟩).1

/-- A walk that completes does so under a larger `MAXLEN` too. -/
theorem walk_ok_of_le {p p' : Params} (hm : p.maxLen ≤ p'.maxLen) {nodes : List Node} {depth : Nat} :
    ∀ {k : Nat} {path : List Bool} {t t' : Memory Entry}, walk p nodes depth k path t = .ok t' →
      walk p' nodes depth k path t = .ok t' := by
  induction depth with
  | zero => intro k path t t' h; cases h
  | succ d ih =>
    intro k path t t' h
    rw [walk] at h ⊢
    split at h
    · cases h
    · split at h
      · cases h
      · rw [if_neg (by omega)]; exact h
    · split at h
      · cases h
      · rename_i t1 h1
        rw [ih h1]; exact ih h

end Sys2Proof.Machine
end

