-- ==== Sys2Proof/Laws/Lzw.lean ====
section
/-! SUPPORT. The dictionary coder: the registers of `LZWE` and `LZWD` against the source's unbounded algorithms. -/

namespace Sys2Proof.Machine

/-! ## Dictionaries -/

theorem dictCode_append (d e : DictE) (w : List Byte) :
    dictCode (d ++ e) w = match dictCode d w with
      | some c => some c
      | none => dictCode e w := by
  induction d with
  | nil => rfl
  | cons x d ih =>
    obtain ⟨k, c⟩ := x
    by_cases h : k = w <;> simp [dictCode, h, ih]

theorem dictCode_isSome_iff (d : DictE) (w : List Byte) : (dictCode d w).isSome = true ↔ w ∈ d.map Prod.fst := by
  induction d with
  | nil => simp [dictCode]
  | cons x d ih =>
    obtain ⟨k, c⟩ := x
    by_cases h : k = w
    · simp [dictCode, h]
    · simp only [dictCode, if_neg h, ih, List.map_cons, List.mem_cons]
      exact ⟨.inr, fun h' => h'.resolve_left (Ne.symm h)⟩

theorem dictCode_eq_none_iff (d : DictE) (w : List Byte) : dictCode d w = none ↔ w ∉ d.map Prod.fst := by
  rw [← dictCode_isSome_iff]; simp

theorem dictCode_initE (w : List Byte) :
    dictCode initE w = match w with
      | [b] => some b.toNat
      | _ => none := by
  have key : ∀ n, n ≤ 256 → dictCode ((List.range n).map fun b => ([BitVec.ofNat 8 b], b)) w = match w with
      | [b] => if b.toNat < n then some b.toNat else none
      | _ => none := by
    intro n hn
    induction n with
    | zero => cases w with
      | nil => rfl
      | cons a w => cases w <;> rfl
    | succ n ih =>
      rw [List.range_succ, List.map_append, dictCode_append, ih (by omega)]
      cases w with
      | nil => simp [dictCode]
      | cons a w =>
        cases w with
        | cons => simp [dictCode]
        | nil =>
          simp only [List.map_cons, List.map_nil, dictCode, List.cons.injEq, and_true]
          by_cases h : a.toNat < n
          · simp [h, Nat.lt_succ_of_lt h]
          · by_cases h' : a.toNat = n
            · have : BitVec.ofNat 8 n = a := by apply BitVec.eq_of_toNat_eq; simp; omega
              simp [h', this]
            · have : BitVec.ofNat 8 n ≠ a := by
                intro hh; apply h'; rw [← hh]; simp; omega
              simp [h, this, show ¬ a.toNat < n + 1 by omega]
  have := key 256 (Nat.le_refl _)
  rw [initE, this]
  cases w with
  | nil => rfl
  | cons a w => cases w with
    | nil => simp [a.isLt]
    | cons => rfl

/-! ## LZWE against the reference -/

/-- The registers hold what the reference holds: the dictionary is the single bytes and the strings added. -/
structure EncoderHolds (r : LzweRegs) (added : List (List Byte)) (w : List Byte) : Prop where
  str : r.w = w
  next : r.next = 256 + added.length
  dict : ∀ u, dictCode r.dict u = if u ≠ [] ∧ Reference.known added u = true then some (Reference.codeOf added u) else none
  long : ∀ u ∈ added, 2 ≤ u.length
  key : w ≠ [] → Reference.known added w = true

theorem encoderHolds_start : EncoderHolds lzweStart [] [] where
  str := rfl
  next := rfl
  dict u := by
    rw [lzweStart, dictCode_initE]
    cases u with
    | nil => rfl
    | cons a u => cases u <;> simp [Reference.known, Reference.codeOf]
  long := by simp
  key h := absurd rfl h

theorem codeOf_append_of_known {added : List (List Byte)} {u v : List Byte} (h : Reference.known added u = true) :
    Reference.codeOf (added ++ [v]) u = Reference.codeOf added u := by
  unfold Reference.codeOf
  split
  · rfl
  · rename_i hu
    have : u ∈ added := by
      rcases Bool.or_eq_true _ _ ▸ h with h | h
      · exact absurd (List.length_eq_one_iff.1 (by simpa using h)) fun ⟨b, hb⟩ => hu b hb
      · simpa using h
    rw [List.idxOf_append_of_mem this]

/-- An emission with its insertion. -/
theorem encoderHolds_insert {r : LzweRegs} {added : List (List Byte)} {w : List Byte} {c : Byte}
    (h : EncoderHolds r added w) (hn : Reference.known added (w ++ [c]) = false) :
    w ≠ [] ∧ lzweEmit r = r.out ++ [Reference.codeOf added w] ∧
    EncoderHolds { dict := r.dict ++ [(r.w ++ [c], r.next)], next := r.next + 1, w := [c], out := lzweEmit r }
      (added ++ [w ++ [c]]) [c] := by
  have hw : w ≠ [] := by rintro rfl; simp [Reference.known] at hn
  have hk := h.key hw
  refine ⟨hw, by simp [lzweEmit, h.dict, h.str, hw, hk], ?_⟩
  have hlen : 2 ≤ (w ++ [c]).length := by
    cases w with
    | nil => exact absurd rfl hw
    | cons => simp
  have hmem : w ++ [c] ∉ added := by
    intro hm; simp [Reference.known, hm] at hn
  refine ⟨rfl, by simp [h.next]; omega, fun u => ?_, ?_, fun _ => by simp [Reference.known]⟩
  · simp only [dictCode_append, h.dict, h.str, dictCode]
    by_cases hu : u = []
    · subst hu; simp [hw]
    · by_cases hku : Reference.known added u = true
      · have : Reference.known (added ++ [w ++ [c]]) u = true := by
          simp only [Reference.known, Bool.or_eq_true, List.contains_append] at hku ⊢
          exact hku.imp_right .inl
        simp only [ne_eq, hu, not_false_eq_true, hku, and_self, if_true, this]
        rw [codeOf_append_of_known hku]
      · by_cases he : w ++ [c] = u
        · subst he
          have h1 : Reference.known (added ++ [w ++ [c]]) (w ++ [c]) = true := by simp [Reference.known]
          have h2 : Reference.codeOf (added ++ [w ++ [c]]) (w ++ [c]) = r.next := by
            unfold Reference.codeOf
            split
            · rename_i b hb; rw [hb] at hlen; simp at hlen
            · rw [List.idxOf_append_of_notMem hmem]; simp [h.next]
          simp [hku, h1, h2]
        · have : Reference.known (added ++ [w ++ [c]]) u = false := by
            simp only [Reference.known, Bool.or_eq_true, not_or, Bool.not_eq_true] at hku
            simp only [Reference.known, List.contains_append, hku.1, hku.2, Bool.false_or]
            simpa using Ne.symm he
          simp [hku, this, he]
  · intro u hu
    rcases List.mem_append.1 hu with hu | hu
    · exact h.long u hu
    · rw [List.mem_singleton.1 hu]; exact hlen

/-- An extension of the match. -/
theorem encoderHolds_extend {r : LzweRegs} {added : List (List Byte)} {w : List Byte} {c : Byte}
    (h : EncoderHolds r added w) (hn : Reference.known added (w ++ [c]) = true) :
    EncoderHolds { r with w := r.w ++ [c] } added (w ++ [c]) :=
  ⟨by simp [h.str], h.next, h.dict, h.long, fun _ => hn⟩

/-- One byte of `LZWE`, by the reference. -/
theorem lzweByte_of_holds {p : Params} {i : Nat} {c : Byte} {r : LzweRegs} {added : List (List Byte)} {w : List Byte}
    (h : EncoderHolds r added w) :
    lzweByte p i c r =
      if Reference.known added (w ++ [c]) then .ok { r with w := r.w ++ [c] }
      else if r.out.length = p.codeCap then .error ⟨.outOverflow, i⟩
      else if r.next = 2 ^ p.codeW then .error ⟨.dictFull, i⟩
      else .ok { dict := r.dict ++ [(r.w ++ [c], r.next)], next := r.next + 1, w := [c], out := lzweEmit r } := by
  simp only [lzweByte, h.dict, h.str]
  cases Reference.known added (w ++ [c]) <;> simp

/-- The loop of `LZWE` while its output fits: the codes so far, the strings added, and the current string are the
reference's; what is left to encode goes on from there. -/
theorem lzweLoop_ok {p : Params} {r : LzweRegs} {added : List (List Byte)} {w : List Byte} {bs : List Byte} (i : Nat)
    (h : EncoderHolds r added w) (hcap : r.out.length + (Reference.encodeFrom added w bs).length ≤ p.codeCap + 1)
    (hdict : r.next + ((Reference.encodeFrom added w bs).length - 1) ≤ 2 ^ p.codeW) :
    ∃ q added' w', forEach (lzweByte p) i bs r = .ok q ∧ EncoderHolds q added' w' ∧
      (∀ ys, Reference.encodeFrom added w (bs ++ ys) = q.out.drop r.out.length ++ Reference.encodeFrom added' w' ys) ∧
      q.out = r.out ++ q.out.drop r.out.length ∧ q.next = r.next + (q.out.length - r.out.length) ∧
      (w' = [] → w = [] ∧ bs = []) := by
  induction bs generalizing i r added w with
  | nil => exact ⟨r, added, w, rfl, h, by simp, by simp, by simp, fun h => ⟨h, rfl⟩⟩
  | cons c cs ih =>
    rw [forEach_cons, lzweByte_of_holds h]
    simp only [List.cons_append]
    simp only [Reference.encodeFrom] at hcap hdict ⊢
    cases hk : Reference.known added (w ++ [c]) with
    | true =>
      simp only [hk, if_true] at hcap hdict ⊢
      obtain ⟨q, a', w', h1, h2, h3, h4, h5, h6⟩ := ih (i + 1) (encoderHolds_extend h hk) hcap hdict
      exact ⟨q, a', w', h1, h2, h3, h4, h5, fun hw => by simpa using (h6 hw).1⟩
    | false =>
      obtain ⟨hw, hemit, hins⟩ := encoderHolds_insert h hk
      have hpos : 1 ≤ (Reference.encodeFrom (added ++ [w ++ [c]]) [c] cs).length := by
        have : ∀ (cs : List Byte) (a : List (List Byte)) (w : List Byte), w ≠ [] →
            1 ≤ (Reference.encodeFrom a w cs).length := by
          intro cs
          induction cs with
          | nil => intro a w hw; simp [Reference.encodeFrom, hw]
          | cons d ds ih => intro a w hw; rw [Reference.encodeFrom]; split
                            · exact ih _ _ (by simp)
                            · simp
        exact this cs _ _ (by simp)
      simp only [hk, Bool.false_eq_true, if_false, List.length_cons] at hcap hdict ⊢
      rw [if_neg (by omega), if_neg (by omega)]
      simp only
      have hl : (lzweEmit r).length = r.out.length + 1 := by rw [hemit]; simp
      obtain ⟨q, a', w', h1, h2, h3, h4, h5, h6⟩ := ih (i + 1) hins
        (by simp only [hl]; omega) (by simp only; omega)
      simp only [hl] at h3 h4 h5
      have hq : r.out.length < q.out.length := by
        rw [h4, List.length_append, hl]; omega
      have hd : q.out.drop r.out.length = Reference.codeOf added w :: q.out.drop (r.out.length + 1) := by
        conv_lhs => rw [h4, hemit, List.append_assoc, List.drop_append_of_le_length (by simp)]
        simp
      refine ⟨q, a', w', h1, h2, ?_, ?_, ?_, fun hw' => absurd (h6 hw').1 (by simp)⟩
      · intro ys; rw [hd, h3]; rfl
      · rw [hd]; conv_lhs => rw [h4, hemit]
        simp
      · rw [h5]; omega

/-- The run of `LZWE` on a text whose codes fit. -/
theorem lzweRun_ok {p : Params} {bs : List Byte} (hcap : (Reference.lzwEncode bs).length ≤ p.codeCap)
    (hdict : 256 + ((Reference.lzwEncode bs).length - 1) ≤ 2 ^ p.codeW) :
    ∃ r, lzweRun p bs = .ok r ∧ r.out = Reference.lzwEncode bs ∧
      r.next = 256 + ((Reference.lzwEncode bs).length - 1) := by
  obtain ⟨q, a', w', h1, h2, h3, h4, h5, h6⟩ := lzweLoop_ok (p := p) (bs := bs) 0 encoderHolds_start
    (by simpa [lzweStart, Reference.lzwEncode] using Nat.le_succ_of_le hcap)
    (by simpa [lzweStart, Reference.lzwEncode] using hdict)
  simp only [lzweStart, List.length_nil, List.drop_zero, Nat.sub_zero] at h3 h5
  replace h3 : Reference.lzwEncode bs = q.out ++ Reference.encodeFrom a' w' [] := by
    simpa [Reference.lzwEncode] using h3 []
  simp only [lzweRun, h1, lzweFlush, h2.str]
  by_cases hw : w' = []
  · subst hw
    obtain ⟨-, rfl⟩ := h6 rfl
    refine ⟨q, by simp, ?_, ?_⟩
    · rw [h3]; simp [Reference.encodeFrom]
    · rw [h5, h3]; simp [Reference.encodeFrom]
      simp [Reference.lzwEncode, Reference.encodeFrom] at h3; rw [h3]; simp
  · have hemit : lzweEmit q = q.out ++ [Reference.codeOf a' w'] := by
      simp [lzweEmit, h2.dict, h2.str, hw, h2.key hw]
    rw [Reference.encodeFrom, if_neg hw] at h3
    have hlen : (Reference.lzwEncode bs).length = q.out.length + 1 := by rw [h3]; simp
    rw [if_neg hw, if_neg (by omega)]
    refine ⟨_, rfl, ?_, ?_⟩
    · rw [h3]; exact hemit
    · simp only [h5]; omega

/-- A completed run of `LZWE`: the codes of the text fit. -/
theorem lzweRun_ok_inv {p : Params} {bs : List Byte} {r : LzweRegs} (hcw : 8 ≤ p.codeW) (h : lzweRun p bs = .ok r) :
    (Reference.lzwEncode bs).length ≤ p.codeCap ∧ 256 + ((Reference.lzwEncode bs).length - 1) ≤ 2 ^ p.codeW := by
  have h256 : 256 ≤ 2 ^ p.codeW := by
    calc 256 = 2 ^ 8 := rfl
      _ ≤ _ := Nat.pow_le_pow_right (by omega) hcw
  obtain ⟨q, hq, hfl⟩ := lzweRun_ok_cases h
  have key : ∀ (bs : List Byte) (i : Nat) (r q : LzweRegs) (a : List (List Byte)) (w : List Byte), EncoderHolds r a w → r.out.length ≤ p.codeCap → r.next ≤ 2 ^ p.codeW → forEach (lzweByte p) i bs r = .ok q →
      ∃ a' w', EncoderHolds q a' w' ∧ q.out.length ≤ p.codeCap ∧ q.next ≤ 2 ^ p.codeW ∧ q.next = r.next + (q.out.length - r.out.length) ∧ r.out.length ≤ q.out.length ∧
        (Reference.encodeFrom a w bs).length = q.out.length - r.out.length + (Reference.encodeFrom a' w' []).length := by
    intro bs
    induction bs with
    | nil => intro i r q a w h h1 h2 h3; cases h3; exact ⟨a, w, h, h1, h2, by simp, by simp, by simp⟩
    | cons c cs ih =>
      intro i r q a w h h1 h2 h3
      rw [forEach_cons, lzweByte_of_holds h] at h3
      rw [Reference.encodeFrom]
      by_cases hk : Reference.known a (w ++ [c]) = true
      · rw [if_pos hk] at h3 ⊢
        exact ih _ { r with w := r.w ++ [c] } q a (w ++ [c]) (encoderHolds_extend h hk) h1 h2 h3
      · rw [if_neg hk] at h3 ⊢
        rw [Bool.not_eq_true] at hk
        obtain ⟨hw, hemit, hins⟩ := encoderHolds_insert h hk
        by_cases ho : r.out.length = p.codeCap
        · rw [if_pos ho] at h3; cases h3
        rw [if_neg ho] at h3
        by_cases hn : r.next = 2 ^ p.codeW
        · rw [if_pos hn] at h3; cases h3
        rw [if_neg hn] at h3
        have hl : (lzweEmit r).length = r.out.length + 1 := by simp [hemit]
        obtain ⟨a', w', g1, g2, g3, g4, g5, g6⟩ := ih _ _ q _ _ hins (by simp only [hl]; omega) (by simp only; omega) h3
        simp only [hl] at g4 g5 g6
        refine ⟨a', w', g1, g2, g3, by omega, by omega, ?_⟩
        rw [List.length_cons, g6]; omega
  obtain ⟨a', w', g1, g2, g3, g4, g5, g6⟩ := key bs 0 _ q _ _ encoderHolds_start (by simp [lzweStart]) (by simpa [lzweStart] using h256) hq
  simp [lzweStart] at g4 g5 g6
  rw [Reference.lzwEncode, g6, Reference.encodeFrom]
  rcases lzweFlush_ok_cases hfl with ⟨hw, _⟩ | ⟨hw, ho, _⟩
  · rw [g1.str] at hw; subst hw; simp; omega
  · rw [g1.str] at hw; simp [hw]; omega

/-! ## LZWD against the reference -/

/-- The registers hold what the reference holds. -/
structure DecoderHolds (r : LzwdRegs) (added : List (List Byte)) (w : List Byte) : Prop where
  str : r.w = w
  next : r.next = 256 + added.length
  dict : ∀ k, r.dict.get? k = Reference.stringOf added k
  full : ∀ u ∈ added, u ≠ []
  seeded : w ≠ []

theorem get?_initD (k : Nat) : initD.get? k = Reference.stringOf [] k := by
  have h : initD = Memory.ofList ((List.range 256).map fun b => [BitVec.ofNat 8 b]) := by decide +kernel
  rw [h, Memory.get?_ofList, Reference.stringOf]
  by_cases hk : k < 256 <;> simp [hk]

theorem decoderHolds_seed (k0 : Nat) :
    DecoderHolds { dict := initD, next := 256, w := [BitVec.ofNat 8 k0], out := [BitVec.ofNat 8 k0], desync := false }
      [] [BitVec.ofNat 8 k0] :=
  ⟨rfl, rfl, get?_initD, by simp, by simp⟩

theorem stringOf_isNone_iff (added : List (List Byte)) (k : Nat) :
    (Reference.stringOf added k).isNone = true ↔ 256 + added.length ≤ k := by
  unfold Reference.stringOf
  split <;> simp <;> omega

theorem lzwdEntry_of_holds {r : LzwdRegs} {added : List (List Byte)} {w : List Byte} (h : DecoderHolds r added w) (k : Nat) :
    lzwdEntry r k = (Reference.stringOf added k).getD (w ++ w.take 1) := by
  unfold lzwdEntry
  rw [h.dict, h.str]
  cases Reference.stringOf added k <;> rfl

theorem lzwdEntry_ne_nil {r : LzwdRegs} {added : List (List Byte)} {w : List Byte} (h : DecoderHolds r added w) (k : Nat) :
    lzwdEntry r k ≠ [] := by
  rw [lzwdEntry_of_holds h]
  cases hs : Reference.stringOf added k with
  | none => simp [h.seeded]
  | some u =>
    unfold Reference.stringOf at hs
    split at hs
    · cases hs; simp
    · exact h.full u (List.mem_of_getElem? hs)

/-- One code of `LZWD` that fits. -/
theorem decoderHolds_next {r : LzwdRegs} {added : List (List Byte)} {w : List Byte} (h : DecoderHolds r added w) (k : Nat)
    (out : List Byte) (desync : Bool) :
    DecoderHolds { dict := r.dict.set r.next (r.w ++ (lzwdEntry r k).take 1), next := r.next + 1, w := lzwdEntry r k,
                   out := out, desync := desync }
      (added ++ [w ++ (lzwdEntry r k).take 1]) (lzwdEntry r k) := by
  refine ⟨rfl, by simp [h.next]; omega, fun j => ?_, fun u hu => ?_, lzwdEntry_ne_nil h k⟩
  · simp only
    by_cases hj : j = r.next
    · subst hj
      rw [Memory.get?_set_same, Reference.stringOf, if_neg (by rw [h.next]; omega)]
      simp [h.next, h.str]
    · rw [Memory.get?_set_other _ _ hj, h.dict]
      unfold Reference.stringOf
      split
      · rfl
      · have := h.next
        by_cases hlt : j - 256 < added.length
        · rw [List.getElem?_append_left hlt]
        · rw [List.getElem?_eq_none (by omega), List.getElem?_eq_none (by simp; omega)]
  · rcases List.mem_append.1 hu with hu | hu
    · exact h.full u hu
    · rw [List.mem_singleton.1 hu]; simp [h.seeded]

/-- The loop of `LZWD` while its text fits. -/
theorem lzwdLoop_ok {p : Params} {r : LzwdRegs} {added : List (List Byte)} {w : List Byte} {ks : List Nat} (i : Nat)
    (h : DecoderHolds r added w) (hcap : r.out.length + (Reference.decodeFrom added w ks).length ≤ p.textCap)
    (hdict : r.next + ks.length ≤ 2 ^ p.codeW) :
    ∃ q added' w', forEach (lzwdCode p) i ks r = .ok q ∧ DecoderHolds q added' w' ∧
      q.out = r.out ++ Reference.decodeFrom added w ks ∧ q.next = r.next + ks.length ∧
      (∀ ys, Reference.decodeFrom added w (ks ++ ys) =
        Reference.decodeFrom added w ks ++ Reference.decodeFrom added' w' ys) ∧
      (q.desync = true ↔ r.desync = true ∨ ∃ j k : Nat, ks[j]? = some k ∧ r.next + j < k) := by
  induction ks generalizing i r added w with
  | nil => exact ⟨r, added, w, rfl, h, by simp [Reference.decodeFrom], rfl, by simp [Reference.decodeFrom], by simp⟩
  | cons k ks ih =>
    have he := lzwdEntry_of_holds h k
    simp only [Reference.decodeFrom, ← he, List.length_append, List.length_cons] at hcap hdict
    rw [forEach_cons]
    simp only [lzwdCode]
    rw [if_neg (by omega), if_neg (by omega)]
    simp only
    obtain ⟨q, a', w', h1, h2, h3, h4, h5, h6⟩ := ih (i + 1) (decoderHolds_next h k (r.out ++ lzwdEntry r k)
        (r.desync || ((r.dict.get? k).isNone && k != r.next)))
      (by simp only [List.length_append]; omega) (by simp only; omega)
    refine ⟨q, a', w', h1, h2, ?_, ?_, fun ys => ?_, ?_⟩
    · rw [h3]; simp [Reference.decodeFrom, he]
    · rw [h4]; simp only [List.length_cons]; omega
    · simp only [List.cons_append, Reference.decodeFrom, ← he, h5, List.append_assoc]
    · rw [h6]
      simp only [Bool.or_eq_true, Bool.and_eq_true, bne_iff_ne, ne_eq, h.dict, stringOf_isNone_iff, ← h.next, or_assoc]
      refine or_congr_right ?_
      constructor
      · rintro (⟨h1, h2⟩ | ⟨j, x, hj, hx⟩)
        · exact ⟨0, k, rfl, by omega⟩
        · exact ⟨j + 1, x, by simpa using hj, by omega⟩
      · rintro ⟨j, x, hj, hx⟩
        cases j with
        | zero => simp at hj; subst hj; exact .inl ⟨by omega, by omega⟩
        | succ j => exact .inr ⟨j, x, by simpa using hj, by omega⟩

/-! ## The reference decodes what it encodes -/

theorem stringOf_codeOf_of_known {a : List (List Byte)} {u : List Byte} (h : Reference.known a u = true) :
    Reference.stringOf a (Reference.codeOf a u) = some u := by
  unfold Reference.codeOf
  split
  · rename_i b; simp [Reference.stringOf, b.isLt]
  · rename_i hu
    have : u ∈ a := by
      rcases Bool.or_eq_true _ _ ▸ h with h | h
      · exact absurd (List.length_eq_one_iff.1 (by simpa using h)) fun ⟨b, hb⟩ => hu b hb
      · simpa using h
    rw [Reference.stringOf, if_neg (by omega), Nat.add_sub_cancel_left]
    rw [List.getElem?_eq_getElem (List.idxOf_lt_length_of_mem this)]
    simp

/-- The entry the decoder takes for the code of a string the encoder knows, when the encoder is one insertion ahead: the
string itself, also in the KwK case (40_lzw.md R105, R106 (d)). -/
theorem entry_of_code_one_ahead {a : List (List Byte)} {v w : List Byte} (hv : v ≠ [])
    (hw : w ≠ []) (hk : Reference.known (a ++ [v ++ w.take 1]) w = true) :
    (Reference.stringOf a (Reference.codeOf (a ++ [v ++ w.take 1]) w)).getD (v ++ v.take 1) = w := by
  by_cases ha : Reference.known a w = true
  · rw [codeOf_append_of_known ha, stringOf_codeOf_of_known ha]; rfl
  · have hl : w.length ≠ 1 := by intro h; exact ha (by simp [Reference.known, h])
    have hnot : w ∉ a := by intro h; exact ha (by simp [Reference.known, h])
    have heq : w = v ++ w.take 1 := by
      simp only [Reference.known, Bool.or_eq_true, List.contains_append] at hk
      rcases hk with h | h | h
      · simp [hl] at h
      · exact absurd (by simpa using h) hnot
      · simpa using h
    have htake : w.take 1 = v.take 1 := by
      conv_lhs => rw [heq]
      rw [List.take_append_of_le_length (List.length_pos_iff.2 hv)]
    have hc : Reference.codeOf (a ++ [v ++ w.take 1]) w = 256 + a.length := by
      unfold Reference.codeOf
      split
      · rename_i b; simp at hl
      · rw [← heq, List.idxOf_append_of_notMem hnot]; simp
    rw [hc]
    have : Reference.stringOf a (256 + a.length) = none := by simp [Reference.stringOf]
    rw [this, Option.getD_none, ← htake, ← heq]

theorem decodeFrom_encodeFrom (cs : List Byte) : ∀ (a : List (List Byte)) (v w : List Byte), v ≠ [] → w ≠ [] →
    Reference.known (a ++ [v ++ w.take 1]) w = true →
    Reference.decodeFrom a v (Reference.encodeFrom (a ++ [v ++ w.take 1]) w cs) = w ++ cs := by
  induction cs with
  | nil =>
    intro a v w hv hw hk
    simp [Reference.encodeFrom, hw, Reference.decodeFrom, entry_of_code_one_ahead hv hw hk]
  | cons c cs ih =>
    intro a v w hv hw hk
    rw [Reference.encodeFrom]
    split
    · rename_i hkc
      have ht : (w ++ [c]).take 1 = w.take 1 := List.take_append_of_le_length (List.length_pos_iff.2 hw)
      have := ih a v (w ++ [c]) hv (by simp) (by rw [ht]; exact hkc)
      rw [ht] at this
      rw [this]; simp
    · simp only [Reference.decodeFrom, entry_of_code_one_ahead hv hw hk]
      have := ih (a ++ [v ++ w.take 1]) w [c] hw (by simp) (by simp [Reference.known])
      simp only [List.take_succ_cons, List.take_zero] at this
      rw [this]; simp

theorem lzwDecode_lzwEncode (bs : List Byte) : Reference.lzwDecode (Reference.lzwEncode bs) = bs := by
  cases bs with
  | nil => simp [Reference.lzwEncode, Reference.encodeFrom, Reference.lzwDecode]
  | cons b cs =>
    have h1 : Reference.known [] ([] ++ [b]) = true := by simp [Reference.known]
    rw [Reference.lzwEncode, Reference.encodeFrom, if_pos h1, List.nil_append]
    cases cs with
    | nil => simp [Reference.encodeFrom, Reference.codeOf, Reference.lzwDecode, Reference.decodeFrom]
    | cons c cs =>
      rw [Reference.encodeFrom, if_neg (by simp [Reference.known])]
      simp only [Reference.codeOf, Reference.lzwDecode, BitVec.ofNat_toNat, BitVec.setWidth_eq]
      have := decodeFrom_encodeFrom cs [] [b] [c] (by simp) (by simp) (by simp [Reference.known])
      simpa using this

theorem codeOf_lt_of_known {a : List (List Byte)} {u : List Byte} (h : Reference.known a u = true) :
    Reference.codeOf a u < 256 + a.length := by
  have h1 := stringOf_codeOf_of_known h
  have h2 := stringOf_isNone_iff a (Reference.codeOf a u)
  rw [h1] at h2
  simp at h2
  omega

/-- A code the encoder emits is below the number of entries at that time. -/
theorem encodeFrom_lt (cs : List Byte) : ∀ (a : List (List Byte)) (w : List Byte), (w ≠ [] → Reference.known a w = true) →
    ∀ j k : Nat, (Reference.encodeFrom a w cs)[j]? = some k → k < 256 + a.length + j := by
  induction cs with
  | nil =>
    intro a w hw j k hj
    rw [Reference.encodeFrom] at hj
    split at hj
    · simp at hj
    · rename_i h
      cases j with
      | zero => simp at hj; subst hj; exact codeOf_lt_of_known (hw h)
      | succ j => simp at hj
  | cons c cs ih =>
    intro a w hw j k hj
    rw [Reference.encodeFrom] at hj
    split at hj
    · rename_i hk; exact ih a (w ++ [c]) (fun _ => hk) j k hj
    · rename_i hk
      have hne : w ≠ [] := by rintro rfl; simp [Reference.known] at hk
      cases j with
      | zero => simp at hj; subst hj; exact codeOf_lt_of_known (hw hne)
      | succ j =>
        have := ih (a ++ [w ++ [c]]) [c] (fun _ => by simp [Reference.known]) j k (by simpa using hj)
        simp at this
        omega

end Sys2Proof.Machine
end

