-- ==== Sys2Proof/Laws/Script.lean ====
section
/-! SUPPORT. One thing after another, and that what the host still has to do plays no part in what a command does. -/

namespace Sys2Proof.Machine

@[simp] theorem andThen_next (s : State) (f : State → Result) : andThen (.next s) f = f s := rfl
@[simp] theorem andThen_fault (e : Fault) (f : State → Result) : andThen (.fault e) f = .fault e := rfl
@[simp] theorem andThen_refused (e : Refusal) (f : State → Result) : andThen (.refused e) f = .refused e := rfl

@[simp] theorem andThen_pure (r : Result) : andThen r .next = r := by cases r <;> rfl

theorem andThen_assoc (r : Result) (f g : State → Result) :
    andThen (andThen r f) g = andThen r fun s => andThen (f s) g := by cases r <;> rfl

theorem next_of_andThen {r : Result} {f : State → Result} {u : State} (h : andThen r f = .next u) :
    ∃ t, r = .next t ∧ f t = .next u := by
  cases r with
  | next t => exact ⟨t, rfl, h⟩
  | fault => cases h
  | refused => cases h

@[simp] theorem runSteps_zero (s : State) : runSteps 0 s = .next s := rfl

/-- A step of a run performs the head of the script. -/
theorem runSteps_cons (e : HostEvent) (es : List HostEvent) (n : Nat) (s : State) :
    runSteps (n + 1) { s with script := e :: es } = andThen (hostEvent e { s with script := es }) (runSteps n) := rfl

/-- A command does the same whatever the script is, and leaves it alone. -/
theorem exec_withScript (i : Instr) (s : State) (x : List HostEvent) :
    exec i { s with script := x } = andThen (exec i s) fun t => .next { t with script := x } := by
  have cmd : ∀ {op : BitVec 8} {body : State → Result},
      (∀ u : State, body { u with script := x } = andThen (body u) fun t => .next { t with script := x }) →
      command op body { s with script := x } = andThen (command op body s) fun t => .next { t with script := x } := by
    intro op body h
    unfold command
    split
    · rfl
    · split
      · rfl
      · exact h (accept op s)
  have sc : ∀ n (u : State), scan n { u with script := x } = andThen (scan n u) fun t => .next { t with script := x } := by
    intro n u
    cases h : scanRun u.cfg u.table ((streamBits u.packedSource).take n) with
    | ok r => rw [scan_of_ok h, scan_of_ok (s := { u with script := x }) h]; rfl
    | error e => rw [scan_of_error h, scan_of_error (s := { u with script := x }) h]; rfl
  cases i with
  | clr =>
    simp only [exec, execClr]
    split <;> rfl
  | lzwe =>
    refine cmd fun u => ?_
    cases h : lzweRun u.cfg u.textSource with
    | ok r => rw [lzweBody_of_ok h, lzweBody_of_ok (s := { u with script := x }) h]; rfl
    | error e => rw [lzweBody_of_error h, lzweBody_of_error (s := { u with script := x }) h]; rfl
  | lzwd =>
    refine cmd fun u => ?_
    cases h : lzwdRun u.cfg u.wD u.codeSource with
    | ok r => rw [lzwdBody_of_ok h, lzwdBody_of_ok (s := { u with script := x }) h]; rfl
    | error e => rw [lzwdBody_of_error h, lzwdBody_of_error (s := { u with script := x }) h]; rfl
  | hbld => exact cmd fun u => rfl
  | hgen =>
    refine cmd fun u => ?_
    unfold hgenBody
    dsimp only
    split <;> rfl
  | pack =>
    refine cmd fun u => ?_
    cases h : packRun u.cfg u.table u.codeSource with
    | ok r => rw [packBody_of_ok h, packBody_of_ok (s := { u with script := x }) h]; rfl
    | error e => rw [packBody_of_error h, packBody_of_error (s := { u with script := x }) h]; rfl
  | unpk => exact cmd fun u => sc _ u
  | unpkl =>
    refine cmd fun u => ?_
    unfold unpklBody
    dsimp only
    split
    · rfl
    · exact sc _ u

/-- A command leaves the script alone. -/
theorem exec_script {i : Instr} {s t : State} (h : exec i s = .next t) : t.script = s.script := by
  have := exec_withScript i s s.script
  rw [show ({ s with script := s.script } : State) = s from rfl, h, andThen_next] at this
  injection this with h
  exact (congrArg State.script h :)

/-! ## Runs of accesses -/

/-- A run whose next access writes a command word runs that command. -/
theorem runSteps_issue (i : Instr) (es : List HostEvent) (n : Nat) (s : State) :
    runSteps (n + 1) { s with script := issue i :: es } =
      andThen (exec i s) fun t => runSteps n { t with script := es } := by
  have h : hostEvent (issue i) { s with script := es } = exec i { s with script := es } := by cases i <;> rfl
  rw [runSteps_cons, h, exec_withScript, andThen_assoc]
  rfl

/-- A run whose next access is a write, but no command issue. -/
theorem runSteps_write {s : State} {sp : Space} {i v : Nat} (es : List HostEvent) (n : Nat) (hb : s.status.busy = false)
    (h : ¬(sp = .csr ∧ i = 0)) :
    runSteps (n + 1) { s with script := .write sp i v :: es } = runSteps n { dataWrite sp i v s with script := es } := by
  rw [runSteps_cons, hostEvent_write (s := { s with script := es }) hb h, andThen_next, dataWrite_withScript]

/-- A run of writes to the indices from `k` on of one memory. `σ` is the state as a function of that memory. -/
theorem runSteps_writes {α : Type} {σ : Memory α → State} {enc : α → Nat} {sp : Space} {cap : Nat} (hsp : sp ≠ .csr)
    (hb : ∀ m, (σ m).status.busy = false) (es : List HostEvent) (n : Nat) :
    ∀ (l : List α) (k : Nat) (m : Memory α), k + l.length ≤ cap →
      (∀ m i, i < cap → ∀ a ∈ l, dataWrite sp i (enc a) (σ m) = σ (m.set i a)) →
      ∃ m', runSteps (l.length + n)
          { σ m with script := ((l.map enc).zipIdx k).map (fun x => HostEvent.write sp x.2 x.1) ++ es } =
            runSteps n { σ m' with script := es } ∧
        ∀ j, m'.get? j = if k ≤ j ∧ j < k + l.length then l[j - k]? else m.get? j := by
  intro l
  induction l with
  | nil =>
    intro k m _ _
    refine ⟨m, by simp, fun j => ?_⟩
    rw [if_neg (by simp only [List.length_nil]; omega)]
  | cons a l ih =>
    intro k m hk hd
    simp only [List.length_cons] at hk
    obtain ⟨m', h, hm⟩ := ih (k + 1) (m.set k a) (by omega) fun m i hi b hb => hd m i hi b (List.mem_cons_of_mem _ hb)
    refine ⟨m', ?_, fun j => ?_⟩
    · rw [show (a :: l).length + n = l.length + n + 1 by simp only [List.length_cons]; omega, List.map_cons,
        List.zipIdx_cons, List.map_cons, List.cons_append, runSteps_write (s := σ m) _ _ (hb m) (fun h => hsp h.1),
        hd m k (by omega) a (List.mem_cons_self ..), h]
    · rw [hm j, List.length_cons]
      by_cases hj : j = k
      · subst hj
        rw [if_neg (by omega), if_pos (by omega), Memory.get?_set_same, Nat.sub_self, List.getElem?_cons_zero]
      · by_cases hj' : k + 1 ≤ j ∧ j < k + 1 + l.length
        · rw [if_pos hj', if_pos (by omega), show j - k = j - (k + 1) + 1 by omega, List.getElem?_cons_succ]
        · rw [if_neg hj', if_neg (by omega), Memory.get?_set_other _ _ hj]

/-- The accesses of `WR TABLE[c] = "bits"`: the entry is stored, or the write ignored when it is too long. -/
theorem runSteps_writeEntry {s : State} {c : Nat} {bits : List Bool} (es : List HostEvent) (n : Nat)
    (hb : s.status.busy = false) (hc : c < 2 ^ s.cfg.codeW) :
    runSteps ((writeEntry s.cfg c bits).length + n) { s with script := writeEntry s.cfg c bits ++ es } =
      runSteps n { s with
        table := if bits.length ≤ s.cfg.maxLen then tableSet s.table c (Entry.ofBits bits) else s.table, script := es } := by
  unfold writeEntry
  split
  · rename_i hl
    rw [List.length_singleton, Nat.add_comm, List.singleton_append, runSteps_write (s := s) _ _ hb (by simp),
      dataWrite_entry hc hl (Entry.bits_ofBits_lt bits), Entry.len_ofBits]
    split <;> rfl
  · rename_i hl
    have := lt_two_pow_leastWidth s.cfg.maxLen
    rw [if_neg (by unfold Params.lenW at hl; omega), List.length_nil, Nat.zero_add, List.nil_append]

/-- The accesses of a list of such lines, none of them too long. -/
theorem runSteps_writeEntries (es : List HostEvent) (n : Nat) :
    ∀ (l : List (Nat × List Bool)) (s : State), s.status.busy = false →
      (∀ x ∈ l, x.1 < 2 ^ s.cfg.codeW ∧ x.2.length ≤ s.cfg.maxLen) →
      runSteps ((l.flatMap fun x => writeEntry s.cfg x.1 x.2).length + n)
          { s with script := (l.flatMap fun x => writeEntry s.cfg x.1 x.2) ++ es } =
        runSteps n { s with table := l.foldl (fun t x => tableSet t x.1 (Entry.ofBits x.2)) s.table, script := es } := by
  intro l
  induction l with
  | nil => intro s _ _; simp
  | cons x l ih =>
    intro s hb hl
    have hx := hl x (List.mem_cons_self ..)
    rw [List.flatMap_cons, List.length_append, Nat.add_assoc, List.append_assoc, runSteps_writeEntry (s := s) _ _ hb hx.1,
      if_pos hx.2]
    exact ih { s with table := tableSet s.table x.1 (Entry.ofBits x.2) } hb fun y hy => hl y (List.mem_cons_of_mem _ hy)

/-- What a list of entries with different codes makes of a table. -/
theorem tableAt_foldl_tableSet :
    ∀ (l : List (Nat × List Bool)) {t : Memory Entry}, Memory.wf t → (l.map Prod.fst).Nodup →
      (∀ x ∈ l, tableAt (l.foldl (fun t x => tableSet t x.1 (Entry.ofBits x.2)) t) x.1 = Entry.ofBits x.2) ∧
      (∀ c, c ∉ l.map Prod.fst → tableAt (l.foldl (fun t x => tableSet t x.1 (Entry.ofBits x.2)) t) c = tableAt t c) ∧
      Memory.wf (l.foldl (fun t x => tableSet t x.1 (Entry.ofBits x.2)) t) := by
  intro l
  induction l with
  | nil => intro t ht _; exact ⟨by simp, fun _ _ => rfl, ht⟩
  | cons y l ih =>
    intro t ht hn
    rw [List.map_cons, List.nodup_cons] at hn
    obtain ⟨h1, h2, h3⟩ := ih (wf_tableSet ht y.1 (Entry.ofBits y.2)) hn.2
    refine ⟨fun x hx => ?_, fun c hc => ?_, h3⟩
    · rcases List.mem_cons.1 hx with rfl | hx
      · refine (h2 _ hn.1).trans (tableAt_tableSet_same ht _ _ fun h => ?_)
        rw [Entry.len_ofBits, List.length_eq_zero_iff] at h
        rw [h]; rfl
      · exact h1 x hx
    · rw [List.map_cons, List.mem_cons, not_or] at hc
      exact (h2 c hc.2).trans (tableAt_tableSet_other t _ hc.1)

end Sys2Proof.Machine
end

