-- ==== Sys2Proof/Tests/Slice0.lean ====
section
/-! SUPPORT. Small tests, and for every statement with hypotheses a state that meets them. Expected values are those of
spec/95_test_vectors.md (V, X and P numbers) and of the encodings of 30_encoding.md; none comes from the model. -/

namespace Sys2Proof.Tests

open Sys2Proof.Machine

-- One theorem after another: each kernel evaluation holds a thread of its own otherwise.
set_option Elab.async false

/-! ## Well-formedness: one ill-formed set of parameters for each bound, and every command -/

theorem test_vectors_params_wf : Params.vectors.WF := by decide
theorem test_params_codeW_8 : ¬ { Params.vectors with codeW := 8 }.WF := by decide
theorem test_params_textCap_0 : ¬ { Params.vectors with textCap := 0 }.WF := by decide
theorem test_params_textCap_2_32 : ¬ { Params.vectors with textCap := 2 ^ 32 }.WF := by decide
theorem test_params_codeCap_0 : ¬ { Params.vectors with codeCap := 0 }.WF := by decide
theorem test_params_codeCap_2_32 : ¬ { Params.vectors with codeCap := 2 ^ 32 }.WF := by decide
theorem test_params_packedCap_0 : ¬ { Params.vectors with packedCap := 0 }.WF := by decide
theorem test_params_packedCap_2_29 : ¬ { Params.vectors with packedCap := 2 ^ 29 }.WF := by decide
theorem test_params_maxLen_0 : ¬ { Params.vectors with maxLen := 0 }.WF := by decide
/-- The derived sizes the vectors name: `LEN_W = 7`, `CNT_W = 17`, `NODE_CAP = 131071`. -/
theorem test_derived_sizes :
    (Params.vectors.lenW, Params.vectors.cntW, Params.vectors.nodeCap, Params.vectors.nextW, Params.vectors.idxW) =
      (7, 17, 131071, 17, 17) := by decide +kernel

/-! ## Decoding: `ZERO` (24 bits) then `OP` (8 bits), written out from 30_encoding.md R80 and R82 -/

theorem test_decode_clr : decode (0b000000000000000000000000#24 ++ 0b00000000#8) = .ok .clr := by decide
theorem test_decode_lzwe : decode (0b000000000000000000000000#24 ++ 0b00000001#8) = .ok .lzwe := by decide
theorem test_decode_lzwd : decode (0b000000000000000000000000#24 ++ 0b00000010#8) = .ok .lzwd := by decide
theorem test_decode_hbld : decode (0b000000000000000000000000#24 ++ 0b00000011#8) = .ok .hbld := by decide
theorem test_decode_hgen : decode (0b000000000000000000000000#24 ++ 0b00000100#8) = .ok .hgen := by decide
theorem test_decode_pack : decode (0b000000000000000000000000#24 ++ 0b00000101#8) = .ok .pack := by decide
theorem test_decode_unpk : decode (0b000000000000000000000000#24 ++ 0b00000110#8) = .ok .unpk := by decide
theorem test_decode_unpkl : decode (0b000000000000000000000000#24 ++ 0b00000111#8) = .ok .unpkl := by decide
theorem test_decode_first_reserved : decode (0b000000000000000000000000#24 ++ 0b00001000#8) = .error .reservedOpcode := by decide
theorem test_decode_last_reserved : decode (0b000000000000000000000000#24 ++ 0b11111111#8) = .error .reservedOpcode := by decide
theorem test_decode_zero_field_lowest_bit :
    decode (0b000000000000000000000001#24 ++ 0b00000001#8) = .error .nonzeroZeroField := by decide
theorem test_decode_zero_field_highest_bit :
    decode (0b100000000000000000000000#24 ++ 0b00000000#8) = .error .nonzeroZeroField := by decide
theorem test_decodeTableWord : (List.range 9).map (decodeTableWord 32) =
    [some .clr, some .lzwe, some .lzwd, some .hbld, some .hgen, some .pack, some .unpk, some .unpkl, none] := by decide

/-! ## Small states -/

/-- A field of the next state of an outcome. -/
def fieldOf {α : Type} (f : State → α) : Result → Option α
  | .next t => some (f t)
  | .fault _ => none
  | .refused _ => none

theorem next_of_fieldOf {α : Type} {f : State → α} {r : Result} {a : α} (h : fieldOf f r = some a) :
    ∃ t, r = .next t ∧ f t = a := by
  cases r with
  | next t => cases h; exact ⟨t, rfl, rfl⟩
  | fault => cases h
  | refused => cases h

/-- TEXT loaded, on a core just reset. -/
def withText (p : Params) (bs : List Byte) : State :=
  { State.resetWith p with text := Memory.ofList bs, textLen := BitVec.ofNat 32 bs.length }

/-- CODE loaded. -/
def withCode (p : Params) (ks : List Nat) : State :=
  { State.resetWith p with code := Memory.ofList ks, codeLen := BitVec.ofNat 32 ks.length }

/-- A table from codes and bitstrings. -/
def tableOf (l : List (Nat × List Bool)) : Memory Entry := l.foldl (fun t x => tableSet t x.1 (Entry.ofBits x.2)) []

/-- CODE and TABLE loaded. -/
def withCodeTable (p : Params) (ks : List Nat) (t : Memory Entry) : State := { withCode p ks with table := t }

/-- PACKED, `BITLEN` and TABLE loaded. -/
def withPacked (p : Params) (bytes : List Byte) (bitLen : Word) (t : Memory Entry) : State :=
  { State.resetWith p with
    packed := Memory.ofList bytes, packedLen := BitVec.ofNat 32 bytes.length, bitLen := bitLen, table := t }

/-- TREE loaded, the last node its root. -/
def withTree (p : Params) (nodes : List Node) : State :=
  { State.resetWith p with nodes := nodes, nodeCount := nodes.length, root := nodes.length - 1 }

/-- The table of V25: 97 is `10`, 98 is `11`, 256 is `0`. -/
def tableV25 : Memory Entry := tableOf [(97, [true, false]), (98, [true, true]), (256, [false])]

/-- The tree of V25. -/
def treeV25 : List Node :=
  [.leaf 1 97, .leaf 1 98, .leaf 1 256, .internal 2 0 1, .internal 3 2 3]

/-- The tree of V45. -/
def treeV45 : List Node :=
  [.leaf 1 10, .leaf 1 11, .leaf 2 12, .leaf 3 13, .leaf 5 14, .internal 2 0 1, .internal 4 2 5, .internal 7 3 6,
   .internal 12 4 7]

/-! ## The commands -/

/-- X1. -/
theorem test_lzwe_scenario_1 :
    fieldOf (fun t => (t.code.map Prod.snd, t.codeLen, t.nextE, t.status.word)) (exec .lzwe (withText Params.vectors
      [84, 79, 66, 69, 79, 82, 78, 79, 84, 84, 79, 66, 69, 79, 82, 84, 79, 66, 69, 79, 82, 78, 79, 84])) =
    some ([84, 79, 66, 69, 79, 82, 78, 79, 84, 256, 258, 260, 265, 259, 261, 263], 16, 271, 0x00010002) := by decide +kernel

/-- `"abc"` with `CODE_CAP = 2`: the final flush overflows, and `FINFO` is `TEXT_LEN`. -/
theorem test_lzwe_flush_overflows :
    fieldOf (fun t => (t.codeLen, t.finfo, t.status.word)) (exec .lzwe (withText { Params.vectors with codeCap := 2 } [97, 98, 99])) =
    some (0, 3, 0x00010304) := by decide +kernel

/-- R108: `[97, 256]` is the expected fallback. -/
theorem test_lzwd_next_code :
    fieldOf (fun t => (t.text.map Prod.snd, t.textLen, t.nextD, t.status.word)) (exec .lzwd (withCode Params.vectors [97, 256])) =
    some ([97, 97, 97], 3, 257, 0x00020002) := by decide +kernel

/-- R108: `[97, 300]` gives the same text, and `DESYNC`. -/
theorem test_lzwd_desync :
    fieldOf (fun t => (t.text.map Prod.snd, t.dictD.get? 256, t.dictD.get? 300, t.status.word))
      (exec .lzwd (withCode Params.vectors [97, 300])) =
    some ([97, 97, 97], some [97, 97], none, 0x00020012) := by decide +kernel

/-- V26. -/
theorem test_hbld_unequal_weights :
    fieldOf (fun t => (t.freq, t.nodes, t.nodeCount, t.root)) (exec .hbld (withCode Params.vectors [1, 1, 1, 1, 1, 2, 2, 3, 4, 5])) =
    some ([(1, 5), (2, 2), (3, 1), (4, 1), (5, 1)],
      [.leaf 5 1, .leaf 2 2, .leaf 1 3, .leaf 1 4, .leaf 1 5, .internal 2 2 3, .internal 3 4 1, .internal 5 5 6,
       .internal 10 0 7], 9, 8) := by decide +kernel

/-- V28: the lighter leaf goes left, though its index is the greater. -/
theorem test_hbld_lighter_left :
    fieldOf (fun t => (t.nodes, t.status.word)) (exec .hbld (withCode Params.vectors [97, 256, 97])) =
    some ([.leaf 2 97, .leaf 1 256, .internal 3 1 0], 0x00030002) := by decide +kernel

/-- V25. -/
theorem test_hgen_three_codes :
    fieldOf (fun t => (t.table, tableCount t.table, t.status.word)) (exec .hgen (withTree Params.vectors treeV25)) =
    some ([(97, ⟨2, 0b10⟩), (98, ⟨2, 0b11⟩), (256, ⟨1, 0⟩)], 3, 0x00040002) := by decide +kernel

/-- V45 with `MAXLEN = 3`. -/
theorem test_hgen_code_too_long :
    fieldOf (fun t => (t.finfo, t.status.word, t.nodes)) (exec .hgen (withTree { Params.vectors with maxLen := 3 } treeV45)) =
    some (10, 0x00040704, treeV45) := by decide +kernel

/-- V49. -/
theorem test_pack_five_bits :
    fieldOf (fun t => (t.packed, t.packedLen, t.bitLen, t.status.word))
      (exec .pack (withCodeTable Params.vectors [97, 98, 256] tableV25)) =
    some ([(0, 0xB0)], 1, 5, 0x00050002) := by decide +kernel

/-- P4, line 3. -/
theorem test_pack_table_miss :
    fieldOf (fun t => (t.packedLen, t.bitLen, t.codeLen, t.finfo, t.status.word))
      (exec .pack (withCodeTable Params.vectors [97, 98, 256] (tableOf [(97, [true, false]), (98, [true, true])]))) =
    some (0, 0, 3, 2, 0x00050504) := by decide +kernel

/-- V20: the three padding bits are read. -/
theorem test_unpk_reads_padding :
    fieldOf (fun t => (t.code.map Prod.snd, t.codeLen, t.status.word)) (exec .unpk (withPacked Params.vectors [0xB0] 0 tableV25)) =
    some ([97, 98, 256, 256, 256, 256], 6, 0x00060002) := by decide +kernel

/-- V79. -/
theorem test_unpk_table_multi :
    fieldOf (fun t => (t.codeLen, t.finfo, t.status.word))
      (exec .unpk (withPacked Params.vectors [0x40] 0 (tableOf [(1, [true, false]), (2, [true, false]), (3, [false])]))) =
    some (0, 2, 0x00060604) := by decide +kernel

/-- V72: the third bit is left over. -/
theorem test_unpkl_residue :
    fieldOf (fun t => (t.code.map Prod.snd, t.cand, t.status.word)) (exec .unpkl (withPacked Params.vectors [0xB0] 3 tableV25)) =
    some ([97], [true], 0x0007000A) := by decide +kernel

/-- V81. -/
theorem test_unpkl_bitlen_range :
    fieldOf (fun t => (t.codeLen, t.finfo, t.status.word)) (exec .unpkl (withPacked Params.vectors [0xB0] 9 tableV25)) =
    some (0, 9, 0x00070804) := by decide +kernel

/-- The faulted state of P4, line 3. -/
def faultedState : State :=
  { withCodeTable Params.vectors [97, 98, 256] tableV25 with
    status := { Status.reset with fault := true, cause := .tableMiss, lastop := 5 }, finfo := 2 }

/-- V89. -/
theorem test_clr_while_faulted :
    fieldOf (fun t => (t.status.word, t.finfo, t.codeLen, tableCount t.table, t.nextE)) (exec .clr faultedState) =
    some (0, 0, 0, 0, 256) := by decide +kernel

/-! ## Host accesses, illegal words, and the step -/

/-- V85. -/
theorem test_illegal_word :
    fieldOf (fun t => (t.status.word, t.finfo)) (hostEvent (.write .csr 0 0x101) (State.resetWith Params.vectors)) =
    some (0x00010104, 0x101) := by decide +kernel

/-- V87. -/
theorem test_faulted_ignores :
    hostEvent (.write .csr 0 2) faultedState = .next faultedState ∧ hostEvent (.write .csr 0 9) faultedState = .next faultedState :=
  ⟨by rfl, by rfl⟩

/-- V93. -/
theorem test_table_write_clears_bits :
    fieldOf (fun t => t.table) (hostEvent (.write .table 5 (2 + 0b111 * 2 ^ 7)) (State.resetWith Params.vectors)) =
    some [(5, ⟨2, 0b11⟩)] := by decide +kernel

/-- V92. -/
theorem test_table_write_too_long :
    fieldOf (fun t => t.table) (hostEvent (.write .table 5 65) (State.resetWith Params.vectors)) = some [] := by decide +kernel

/-- V94. -/
theorem test_code_write_truncates :
    fieldOf (fun t => t.code) (hostEvent (.write .code 0 0x12345) (State.resetWith Params.vectors)) =
    some [(0, 0x2345)] := by decide +kernel

/-- V25: `TABLE[97]` reads as 0x102. -/
theorem test_table_read :
    fieldOf (fun t => t.hostSaw) (hostEvent (.read .table 97) (withPacked Params.vectors [] 0 tableV25)) =
    some (some 0x102) := by decide +kernel

/-- R92: `NODE[3] = I(2, 0, 1)`, `KIND` 1, `WEIGHT` 17 bits from bit 1, `SYM` 16 bits, `LEFT` 17 bits, `RIGHT` above. -/
theorem test_node_read :
    fieldOf (fun t => t.hostSaw) (hostEvent (.read .tree 3) (withTree Params.vectors treeV25)) =
    some (some (1 + 2 * 2 ^ 1 + 0 * 2 ^ 34 + 1 * 2 ^ 51)) := by decide +kernel

/-- The first command after reset: V2 to V74 on empty sources, `STATUS` of P2. -/
theorem test_first_step_after_reset :
    (List.range 8).map (fun w => fieldOf (fun t => t.status.word) (step (State.reset.withFetchWord 32 w))) =
    [some 0, some 0x00010002, some 0x00020002, some 0x00030002, some 0x00040002, some 0x00050002, some 0x00060002,
     some 0x00070002] := by decide +kernel

/-- `LOAD TABLE` first makes absent what is not listed (R94), and a line `COMPRESS` is four words (R95). -/
theorem test_script_lines :
    (Line.loadTable [(97, [false])]).events (withPacked Params.vectors [] 0 tableV25) =
      [.write .table 98 0, .write .table 256 0, .write .table 97 1] ∧
    Line.compress.events State.reset = [.write .csr 0 1, .write .csr 0 3, .write .csr 0 4, .write .csr 0 5] := by decide +kernel

/-- R88, R94: with `MAXLEN = 3` a bitstring of four bits is ignored, though `LEN` is two bits wide; `COMPRESS` on X1's text
makes 16 codes. -/
theorem test_script_runs :
    fieldOf (fun t => (t.table, t.script)) (runLines [.wrTable 5 [true, false, false, false]]
      (withPacked { Params.vectors with maxLen := 3 } [] 0 (tableOf [(5, [true])]))) = some ([(5, ⟨1, 1⟩)], []) ∧
    fieldOf (fun t => (t.codeLen, t.status.word))
      (runLines [.loadText [84, 79, 66, 69, 79, 82, 78, 79, 84, 84, 79, 66, 69, 79, 82, 84, 79, 66, 69, 79, 82, 78, 79, 84],
        .compress] State.reset) = some (16, 0x00050002) := by decide +kernel

/-! ## States and operands that meet the hypotheses of the statements, at the edges of their ranges -/

/-- Parameters small enough to be filled. -/
def small : Params := { codeW := 9, textCap := 4, codeCap := 3, packedCap := 1, maxLen := 2 }

/-- The table of a single code, `0`. -/
def tableZero : Memory Entry := tableOf [(97, [false])]

/-- The table of a single code, `1`. -/
def tableOne : Memory Entry := tableOf [(97, [true])]

theorem small_wf : small.WF := by decide

theorem begins_withText {p : Params} {bs : List Byte} (h : bs.length < 2 ^ 32) :
    (withText p bs).text.Begins (withText p bs).textLen bs :=
  begins_ofList (by simpa [withText] using h)

theorem begins_withCode {p : Params} {ks : List Nat} (h : ks.length < 2 ^ 32) :
    (withCode p ks).code.Begins (withCode p ks).codeLen ks :=
  begins_ofList (by simpa [withCode] using h)

theorem begins_withCodeTable {p : Params} {ks : List Nat} {t : Memory Entry} (h : ks.length < 2 ^ 32) :
    (withCodeTable p ks t).code.Begins (withCodeTable p ks t).codeLen ks := begins_withCode (p := p) h

theorem begins_withPacked {p : Params} {bytes : List Byte} {b : Word} {t : Memory Entry} (h : bytes.length < 2 ^ 32) :
    (withPacked p bytes b t).packed.Begins (withPacked p bytes b t).packedLen bytes :=
  begins_ofList (by simpa [withPacked] using h)

theorem treeForm_empty (s : State) (hn : s.nodes = []) (hc : s.nodeCount = 0) (hr : s.root = 0) : TreeForm s := by
  constructor <;> simp [hn, hc, hr]

/-- A full TEXT on small parameters meets the invariant. -/
theorem inv_withText : Inv (withText small [97, 98, 97, 98]) where
  params := small_wf
  notBusy := rfl
  cause := by decide
  doneNoFault := by decide
  finfo := fun _ => rfl
  textLen := by decide
  codeLen := by decide
  packedLen := by decide
  textForm := by decide
  codeForm := by decide
  packedForm := by decide
  tableForm := by decide
  freqForm := by decide
  textRange := by decide
  codeRange := by decide
  packedRange := by decide
  tableRange := by decide
  freqRange := by decide
  tree := treeForm_empty _ rfl rfl rfl
  nextE := fun _ => by decide
  nextD := fun _ => by decide

/-- So does CODE with a table, when these, which `decide` settles, hold. -/
theorem inv_withCodeTable (p : Params) (t : Memory Entry)
    (h : p.WF ∧ 3 ≤ p.codeCap ∧ (∀ x ∈ Memory.ofList [97, 97, 97], x.1 < p.codeCap ∧ x.2 < 2 ^ p.codeW) ∧
      256 ≤ 2 ^ p.codeW ∧ Memory.wf t ∧
      ∀ x ∈ t, x.1 < 2 ^ p.codeW ∧ 1 ≤ x.2.len ∧ x.2.len ≤ p.maxLen ∧ x.2.bits < 2 ^ x.2.len) : Inv (withCodeTable p [97, 97, 97] t) where
  params := h.1
  notBusy := rfl
  cause := by simp [withCodeTable, withCode, State.resetWith, Status.reset]
  doneNoFault := nofun
  finfo := fun _ => rfl
  textLen := Nat.zero_le _
  codeLen := h.2.1
  packedLen := Nat.zero_le _
  textForm := List.Pairwise.nil
  codeForm := by show Memory.wf (Memory.ofList _); decide
  packedForm := List.Pairwise.nil
  tableForm := h.2.2.2.2.1
  freqForm := List.Pairwise.nil
  textRange := by simp [withCodeTable, withCode, State.resetWith]
  codeRange := h.2.2.1
  packedRange := by simp [withCodeTable, withCode, State.resetWith]
  tableRange := h.2.2.2.2.2
  freqRange := by simp [withCodeTable, withCode, State.resetWith]
  tree := treeForm_empty _ rfl rfl rfl
  nextE := fun _ => ⟨Nat.le_refl _, h.2.2.2.1⟩
  nextD := fun _ => ⟨Nat.le_refl _, h.2.2.2.1⟩

theorem prefixFree_single (e : Entry) : PrefixFree [(97, e)] := by
  have key : ∀ c, (tableAt [(97, e)] c).len ≠ 0 → c = 97 := by
    intro c hc
    by_contra hne
    rw [tableAt, Memory.get?_cons, if_neg (Ne.symm hne)] at hc
    exact hc rfl
  intro c d hcd hc hd
  exact absurd ((key c hc).trans (key d hd).symm) hcd

theorem prefixFree_tableZero : PrefixFree tableZero := prefixFree_single _
theorem prefixFree_tableOne : PrefixFree tableOne := prefixFree_single _

theorem tableZero_step {bits rest : List Bool} {codes : List Nat} (h : Spells tableZero bits codes rest) :
    Spells tableZero (false :: bits) (97 :: codes) rest := by
  refine Spells.code (u := [false]) (by decide) (by decide +kernel) (fun v hv hp hne => ?_) h
  rw [List.prefix_cons_iff] at hp
  rcases hp with rfl | ⟨t, rfl, ht⟩
  · exact absurd rfl hv
  · rw [List.prefix_nil.1 ht] at hne; exact absurd rfl hne

theorem spells_nothing (t : Memory Entry) : Spells t [] [] [] :=
  .residue fun _ hu hp => absurd (List.prefix_nil.1 hp) hu

theorem spells_one_left : Spells tableZero [true] [] [true] := by
  refine .residue fun u hu hp => ?_
  rw [List.prefix_cons_iff] at hp
  rcases hp with rfl | ⟨t, rfl, ht⟩
  · exact absurd rfl hu
  · rw [List.prefix_nil.1 ht]; decide +kernel

/-- Seven codes and one bit left over. -/
theorem spells_seven : Spells tableZero (streamBits [0x01]) (List.replicate 7 97) [true] :=
  tableZero_step (tableZero_step (tableZero_step (tableZero_step (tableZero_step (tableZero_step
    (tableZero_step spells_one_left))))))

theorem treeForm_V25 (p : Params) (hp : 9 ≤ p.codeW) (hn : 5 ≤ p.nodeCap) : TreeForm (withTree p treeV25) where
  count := rfl
  root := rfl
  fits := hn
  children := by
    intro k w l r h
    have hk : k < 5 := (List.getElem?_eq_some_iff.1 h).1
    interval_cases k <;> simp_all [withTree, treeV25] <;> omega
  leaves := by
    intro k w c h
    have h512 : 2 ^ 9 ≤ 2 ^ p.codeW := Nat.pow_le_pow_right (by omega) hp
    have hk : k < 5 := (List.getElem?_eq_some_iff.1 h).1
    interval_cases k <;> simp_all [withTree, treeV25, State.resetWith] <;> omega

theorem leadsTo_V25 {path : List Bool} {c : Nat} (h : LeadsTo treeV25 4 path c) : path.length ≤ 2 := by
  have leaf : ∀ k p c, k < 3 → LeadsTo treeV25 k p c → p = [] := by
    intro k p c hk h
    cases h with
    | leaf => rfl
    | left h => interval_cases k <;> simp [treeV25] at h
    | right h => interval_cases k <;> simp [treeV25] at h
  have three : ∀ p c, LeadsTo treeV25 3 p c → p.length ≤ 1 := by
    intro p c h
    cases h with
    | leaf h => simp [treeV25] at h
    | left h h' => simp [treeV25] at h; rw [leaf _ _ _ (by omega) h']; simp
    | right h h' => simp [treeV25] at h; rw [leaf _ _ _ (by omega) h']; simp
  cases h with
  | leaf h => simp [treeV25] at h
  | left h h' => simp [treeV25] at h; rw [leaf _ _ _ (by omega) h']; simp
  | right h h' =>
    simp [treeV25] at h
    rw [← h.2.2] at h'
    have := three _ _ h'
    simp; omega

theorem witness_DecodeAndEncodeAgree : Instr.wf .unpkl = true ∧ decode 7 = .ok .unpkl ∧ (7 : Word) = encode .unpkl := by decide

theorem witness_StepRunsTheDecodedCommand :
    ∃ (s : State) (w : Word), decode w = .ok .lzwe ∧ s.script = [.write .csr 0 w.toNat] :=
  ⟨State.reset.withFetchWord 32 1, 1, by decide, rfl⟩

theorem witness_StepPerformsTheNextAccess :
    (∃ s : State, s.script = [HostEvent.reset]) ∧ ∃ s : State, s.script = [] :=
  ⟨⟨{ State.reset with script := [.reset] }, rfl⟩, State.reset, rfl⟩

theorem witness_IllegalWordRaisesIllegalCmd :
    ∃ s : State, Idle s ∧ (8 ≤ (8 : Word).toNat % 2 ^ 8) ∧ ((0x100 : Word).toNat / 2 ^ 8 ≠ 0) :=
  ⟨State.reset, ⟨rfl, rfl⟩, by decide, by decide⟩

theorem witness_FaultedCoreIgnoresAllButClr :
    ∃ (s : State) (w : Word) (sp : Space) (i : Nat), s.status.busy = false ∧ s.status.fault = true ∧ w ≠ 0 ∧
      ¬(sp = .csr ∧ i = 0) :=
  ⟨faultedState, 1, .csr, 1, rfl, rfl, by decide, by decide⟩

theorem witness_OnlyClrAndResetLeaveTheFaultedState :
    ∃ s : State, s.status.fault = true ∧ (∃ t, hostEvent .reset s = .next t) ∧
      (∃ t, hostEvent (.write .csr 0 0) s = .next t) ∧ (∃ t, hostEvent (.write .csr 0 2) s = .next t) ∧
      (∃ t, hostEvent (.read .table 97) s = .next t) :=
  ⟨faultedState, rfl, ⟨_, rfl⟩, ⟨_, rfl⟩, ⟨_, rfl⟩, ⟨_, rfl⟩⟩

theorem witness_ClrReturnsAllStateToReset : faultedState.status.busy = false ∧ State.reset.status.busy = false := ⟨rfl, rfl⟩

theorem witness_InvariantHoldsAtReset :
    Params.WF { codeW := 9, textCap := 1, codeCap := 1, packedCap := 1, maxLen := 1 } ∧
    Params.WF { codeW := 32, textCap := 2 ^ 32 - 1, codeCap := 2 ^ 32 - 1, packedCap := 2 ^ 29 - 1, maxLen := 64 } := by decide

theorem witness_EveryStepKeepsTheInvariant : ∃ s t : State, Inv s ∧ step s = .next t :=
  ⟨withText small [97, 98, 97, 98], _, inv_withText, rfl⟩

theorem witness_ParametersNeverChange : ∃ s t : State, step s = .next t := ⟨State.reset.withFetchWord 32 0, _, rfl⟩

theorem witness_EveryCommandEnds : ∃ s : State, Inv s ∧ s.status.fault = false ∧ Instr.lzwe ≠ .clr :=
  ⟨withText small [97, 98, 97, 98], inv_withText, rfl, by decide⟩

/-- Each of the six commands that can fault does so in some idle state. -/
theorem witness_FaultEntryOfEveryCommand :
    (∃ s t, Idle s ∧ exec .lzwe s = .next t ∧ t.status.fault = true) ∧
    (∃ s t, Idle s ∧ exec .lzwd s = .next t ∧ t.status.fault = true) ∧
    (∃ s t, Idle s ∧ exec .hgen s = .next t ∧ t.status.fault = true) ∧
    (∃ s t, Idle s ∧ exec .pack s = .next t ∧ t.status.fault = true) ∧
    (∃ s t, Idle s ∧ exec .unpk s = .next t ∧ t.status.fault = true) ∧
    (∃ s t, Idle s ∧ exec .unpkl s = .next t ∧ t.status.fault = true) := by
  have key : ∀ (i : Instr) (s : State), Idle s → fieldOf (fun t => t.status.fault) (exec i s) = some true →
      ∃ s t, Idle s ∧ exec i s = .next t ∧ t.status.fault = true := by
    intro i s hs h
    obtain ⟨t, h1, h2⟩ := next_of_fieldOf h
    exact ⟨s, t, hs, h1, h2⟩
  exact ⟨key _ (withText small [97, 98, 99, 100]) ⟨rfl, rfl⟩ (by decide +kernel),
    key _ (withCode small [256]) ⟨rfl, rfl⟩ (by decide +kernel),
    key _ (withTree { small with maxLen := 1 } treeV25) ⟨rfl, rfl⟩ (by decide +kernel),
    key _ (withCode small [97]) ⟨rfl, rfl⟩ (by decide +kernel),
    key _ (withPacked small [0x00] 0 tableZero) ⟨rfl, rfl⟩ (by decide +kernel),
    key _ (withPacked small [0x00] 9 tableZero) ⟨rfl, rfl⟩ (by decide +kernel)⟩

/-- A command that completes on the state. -/
theorem completes {i : Instr} {s : State} (h : fieldOf (fun t => t.status.fault) (exec i s) = some false) :
    ∃ t, exec i s = .next t ∧ t.status.fault = false := next_of_fieldOf h

theorem witness_ResidAndDesyncHaveOneWriterEach :
    (∃ s t, exec .pack s = .next t) ∧ (∃ s t, exec .lzwd s = .next t) ∧ (∃ s t, exec .clr s = .next t) := by
  obtain ⟨t, h, -⟩ := completes (i := .pack) (s := withCodeTable small [97, 97, 97] tableZero) (by decide +kernel)
  obtain ⟨u, h', -⟩ := completes (i := .lzwd) (s := withCode small [97, 300]) (by decide +kernel)
  exact ⟨⟨_, t, h⟩, ⟨_, u, h'⟩, ⟨faultedState, _, rfl⟩⟩

theorem witness_NoResultDependsOnHiddenState : ∃ s t, exec .lzwe s = .next t := by
  obtain ⟨t, h, -⟩ := completes (i := .lzwe) (s := withText small [97, 98, 97, 98]) (by decide +kernel)
  exact ⟨_, t, h⟩

theorem witness_SameCommandTwiceSameResult :
    ∃ (s t : State) (bs : List Byte), Idle s ∧ s.text.Begins s.textLen bs ∧ s.code.Begins s.codeLen [] ∧
      s.packed.Begins s.packedLen [] ∧ exec .lzwe s = .next t ∧ t.status.fault = false := by
  obtain ⟨t, h, hf⟩ := completes (i := .lzwe) (s := withText small [97, 98, 97, 98]) (by decide +kernel)
  exact ⟨_, t, _, ⟨rfl, rfl⟩, begins_withText (by decide), begins_ofList (l := []) rfl, begins_ofList (l := []) rfl, h, hf⟩

theorem witness_RaisingAParameterKeepsTheResult :
    ∃ (s t : State), Idle s ∧ s.cfg.WF ∧ s.code.Begins s.codeLen [97, 97, 97] ∧ s.cfg.codeW ≤ Params.vectors.codeW ∧
      s.cfg.textCap ≤ Params.vectors.textCap ∧ s.cfg.codeCap ≤ Params.vectors.codeCap ∧
      s.cfg.packedCap ≤ Params.vectors.packedCap ∧ s.cfg.maxLen ≤ Params.vectors.maxLen ∧
      exec .pack s = .next t ∧ t.status.fault = false := by
  obtain ⟨t, h, hf⟩ := completes (i := .pack) (s := withCodeTable small [97, 97, 97] tableZero) (by decide +kernel)
  exact ⟨_, t, ⟨rfl, rfl⟩, small_wf, begins_withCodeTable (by decide), by decide, by decide, by decide, by decide, by decide, h, hf⟩

/-- The codes of `abab` fill CODE exactly. -/
theorem witness_LzweWritesTheCodesOfTheText :
    ∃ (s : State) (bs : List Byte), Idle s ∧ s.text.Begins s.textLen bs ∧ s.cfg.codeCap < 2 ^ 32 ∧
      (Reference.lzwEncode bs).length = s.cfg.codeCap ∧
      256 + ((Reference.lzwEncode bs).length - 1) ≤ 2 ^ s.cfg.codeW :=
  ⟨withText small [97, 98, 97, 98], _, ⟨rfl, rfl⟩, begins_withText (by decide), by decide, by decide, by decide⟩

/-- `OUT_OVERFLOW` at a byte: `abc` with room for one code. -/
theorem witness_LzweFaultsWhereItsOutputEnds_byte :
    ∃ (s : State) (bs : List Byte), Idle s ∧ s.text.Begins s.textLen bs ∧ 8 ≤ s.cfg.codeW ∧ 2 < bs.length ∧
      (Reference.lzwEncode (bs.take 3)).length = (Reference.lzwEncode (bs.take 2)).length + 1 ∧
      (Reference.lzwEncode (bs.take 2)).length = s.cfg.codeCap + 1 ∧ 256 + s.cfg.codeCap ≤ 2 ^ s.cfg.codeW :=
  ⟨withText { small with codeCap := 1 } [97, 98, 99], _, ⟨rfl, rfl⟩, begins_withText (by decide), by decide, by decide,
    by decide, by decide, by decide⟩

/-- `DICT_FULL`: with 8-bit codes the first insertion is one too many. -/
theorem witness_LzweFaultsWhereItsOutputEnds_dictionary :
    ∃ (s : State) (bs : List Byte), Idle s ∧ s.text.Begins s.textLen bs ∧ 8 ≤ s.cfg.codeW ∧ 1 < bs.length ∧
      (Reference.lzwEncode (bs.take 2)).length = (Reference.lzwEncode (bs.take 1)).length + 1 ∧
      255 + (Reference.lzwEncode (bs.take 1)).length = 2 ^ s.cfg.codeW ∧
      (Reference.lzwEncode (bs.take 1)).length ≤ s.cfg.codeCap :=
  ⟨withText { small with codeW := 8 } [97, 98], _, ⟨rfl, rfl⟩, begins_withText (by decide), by decide, by decide,
    by decide, by decide, by decide⟩

/-- `OUT_OVERFLOW` at the flush: `abc` with room for two codes. -/
theorem witness_LzweFaultsWhereItsOutputEnds_flush :
    ∃ (s : State) (bs : List Byte), Idle s ∧ s.text.Begins s.textLen bs ∧ 8 ≤ s.cfg.codeW ∧
      (Reference.lzwEncode bs).length = s.cfg.codeCap + 1 ∧ 256 + s.cfg.codeCap ≤ 2 ^ s.cfg.codeW :=
  ⟨withText { small with codeCap := 2 } [97, 98, 99], _, ⟨rfl, rfl⟩, begins_withText (by decide), by decide, by decide,
    by decide⟩

theorem witness_LzweDictionaryIsInjective : ∃ s t : State, Idle s ∧ exec .lzwe s = .next t ∧ t.status.fault = false := by
  obtain ⟨t, h, hf⟩ := completes (i := .lzwe) (s := withText small [97, 98, 97, 98]) (by decide +kernel)
  exact ⟨_, t, ⟨rfl, rfl⟩, h, hf⟩

/-- The text of three codes fills TEXT exactly; a sequence with a code beyond the next one meets the premises too. -/
theorem witness_LzwdWritesTheTextOfTheCodes :
    ∃ s : State, Idle s ∧ s.code.Begins s.codeLen [97, 98, 256] ∧ s.cfg.textCap < 2 ^ 32 ∧ 1 ≤ s.cfg.textCap ∧
      (Reference.lzwDecode [97, 98, 256]).length = s.cfg.textCap ∧ 256 + (3 - 1) ≤ 2 ^ s.cfg.codeW ∧
      (Reference.lzwDecode [97, 300]).length ≤ s.cfg.textCap :=
  ⟨withCode small [97, 98, 256], ⟨rfl, rfl⟩, begins_withCode (by decide), by decide, by decide, by decide, by decide,
    by decide⟩

/-- A first code of 256; a text one byte too long at index 2; and, with 8-bit codes, an insertion too many at index 1. -/
theorem witness_LzwdFaultsAtTheFirstCodeThatDoesNotFit :
    (∃ s : State, Idle s ∧ s.code.Begins s.codeLen [256] ∧ 255 < 256) ∧
    (∃ s : State, Idle s ∧ s.code.Begins s.codeLen [97, 98, 256] ∧ 1 ≤ s.cfg.textCap ∧
      (Reference.lzwDecode ([97, 98, 256].take 2)).length ≤ s.cfg.textCap ∧ 255 + 2 ≤ 2 ^ s.cfg.codeW ∧
      s.cfg.textCap < (Reference.lzwDecode ([97, 98, 256].take 3)).length) ∧
    (∃ s : State, Idle s ∧ s.code.Begins s.codeLen [255, 0] ∧ 1 ≤ s.cfg.textCap ∧
      (Reference.lzwDecode ([255, 0].take 2)).length ≤ s.cfg.textCap ∧ 255 + 1 = 2 ^ s.cfg.codeW) :=
  ⟨⟨withCode small [256], ⟨rfl, rfl⟩, begins_withCode (by decide), by decide⟩,
   ⟨withCode { small with textCap := 3 } [97, 98, 256], ⟨rfl, rfl⟩, begins_withCode (by decide), by decide, by decide,
    by decide, by decide⟩,
   ⟨withCode { small with codeW := 8 } [255, 0], ⟨rfl, rfl⟩, begins_withCode (by decide), by decide, by decide, by decide⟩⟩

theorem witness_LzwdDictionaryKeysAreAllBelowNext :
    ∃ s t : State, Idle s ∧ exec .lzwd s = .next t ∧ t.status.fault = false ∧ s.codeLen ≠ 0 := by
  obtain ⟨t, h, hf⟩ := completes (i := .lzwd) (s := withCode small [97, 98, 256]) (by decide +kernel)
  exact ⟨_, t, ⟨rfl, rfl⟩, h, hf, by decide⟩

/-- The text fills TEXT exactly. -/
theorem witness_LzwdUndoesLzwe :
    ∃ (s t : State) (bs : List Byte), Idle s ∧ s.cfg.WF ∧ s.text.Begins s.textLen bs ∧ bs.length = s.cfg.textCap ∧
      exec .lzwe s = .next t ∧ t.status.fault = false := by
  obtain ⟨t, h, hf⟩ := completes (i := .lzwe) (s := withText small [97, 98, 97, 98]) (by decide +kernel)
  exact ⟨_, t, _, ⟨rfl, rfl⟩, small_wf, begins_withText (by decide), by decide, h, hf⟩

theorem witness_LzwCommandsLeaveTheRestUnchanged :
    (∃ s t, Idle s ∧ exec .lzwe s = .next t ∧ t.status.fault = false) ∧
    (∃ s t, Idle s ∧ exec .lzwd s = .next t ∧ t.status.fault = false) := by
  obtain ⟨t, h, hf⟩ := completes (i := .lzwe) (s := withText small [97, 98, 97, 98]) (by decide +kernel)
  obtain ⟨u, h', hf'⟩ := completes (i := .lzwd) (s := withCode small [97, 98, 256]) (by decide +kernel)
  exact ⟨⟨_, t, ⟨rfl, rfl⟩, h, hf⟩, ⟨_, u, ⟨rfl, rfl⟩, h', hf'⟩⟩

theorem witness_HbldCountsTheCodes : ∃ s : State, Idle s ∧ s.code.Begins s.codeLen [97, 256, 97] :=
  ⟨withCode small [97, 256, 97], ⟨rfl, rfl⟩, begins_withCode (by decide)⟩

theorem witness_HbldBuildsATreeOverTheDistinctCodes :
    ∃ s t : State, Idle s ∧ s.code.Begins s.codeLen [97, 256, 97] ∧ [97, 256].Pairwise (· < ·) ∧
      (∀ c, c ∈ [97, 256] ↔ c ∈ [97, 256, 97]) ∧ exec .hbld s = .next t :=
  ⟨withCode small [97, 256, 97], _, ⟨rfl, rfl⟩, begins_withCode (by decide), by decide, by simp; tauto, rfl⟩

theorem witness_HbldMergesTheTwoLightestNodes :
    ∃ s t : State, Idle s ∧ exec .hbld s = .next t ∧ t.nodes[4]? = some (Node.internal 3 2 3) ∧
      t.nodes[2]? = some (Node.leaf 1 256) ∧ t.nodes[3]? = some (Node.internal 2 0 1) := by
  obtain ⟨t, h, hf⟩ := next_of_fieldOf (f := fun t => t.nodes) (r := exec .hbld (withCode small [97, 98, 256])) (a := treeV25)
    (by decide +kernel)
  exact ⟨_, t, ⟨rfl, rfl⟩, h, by rw [hf]; rfl, by rw [hf]; rfl, by rw [hf]; rfl⟩

theorem witness_TreeAndTableDependOnTheCountsOnly :
    ∃ s s' t t' u u' : State, Idle s ∧ Idle s' ∧ s.cfg = s'.cfg ∧ s.code.Begins s.codeLen [97, 256, 97] ∧
      s'.code.Begins s'.codeLen [256, 97, 97] ∧ [97, 256, 97].Perm [256, 97, 97] ∧ exec .hbld s = .next t ∧
      exec .hbld s' = .next t' ∧ exec .hgen t = .next u ∧ exec .hgen t' = .next u' := by
  obtain ⟨u, h, -⟩ := completes (i := .hgen)
    (s := complete (hbldStore (countCodes [97, 256, 97]) ((accept 3 (withCode small [97, 256, 97])).draw 3))) (by decide +kernel)
  obtain ⟨u', h', -⟩ := completes (i := .hgen)
    (s := complete (hbldStore (countCodes [256, 97, 97]) ((accept 3 (withCode small [256, 97, 97])).draw 3))) (by decide +kernel)
  exact ⟨withCode small [97, 256, 97], withCode small [256, 97, 97], _, _, u, u', ⟨rfl, rfl⟩, ⟨rfl, rfl⟩, rfl,
    begins_withCode (by decide), begins_withCode (by decide), by decide, rfl, rfl, h, h'⟩

theorem witness_HgenOfTheEmptyTreeIsEmpty : ∃ s : State, Idle s ∧ s.nodeCount = 0 ∧ tableCount s.table = 1 :=
  ⟨withCodeTable small [] tableZero, ⟨rfl, rfl⟩, rfl, by decide⟩

theorem witness_HgenOfASingleLeafIsOneBit :
    ∃ s : State, Idle s ∧ s.nodeCount ≠ 0 ∧ s.nodes[s.root]? = some (Node.leaf 2 97) :=
  ⟨withTree small [.leaf 2 97], ⟨rfl, rfl⟩, by decide, rfl⟩

/-- The longest path is as long as `MAXLEN`. -/
theorem witness_HgenWritesTheRootToLeafPaths :
    ∃ s : State, Idle s ∧ TreeForm s ∧ s.nodes[s.root]? = some (Node.internal 3 2 3) ∧
      (∀ path c, LeadsTo s.nodes s.root path c → path.length ≤ s.cfg.maxLen) ∧ s.cfg.maxLen = 2 :=
  ⟨withTree small treeV25, ⟨rfl, rfl⟩, treeForm_V25 _ (by decide) (by decide), rfl, fun _ _ h => leadsTo_V25 h, rfl⟩

/-- The path of 97 is one bit longer than `MAXLEN`. -/
theorem witness_HgenFaultsAtTheFirstLongPath :
    ∃ s : State, Idle s ∧ TreeForm s ∧ s.nodes[s.root]? = some (Node.internal 3 2 3) ∧
      LeadsTo s.nodes s.root [true, false] 97 ∧ s.cfg.maxLen + 1 = [true, false].length :=
  ⟨withTree { small with maxLen := 1 } treeV25, ⟨rfl, rfl⟩, treeForm_V25 _ (by decide) (by decide), rfl,
    .right (w := 3) (l := 2) (r := 3) rfl (.left (w := 2) (l := 0) (r := 1) rfl (.leaf (w := 1) rfl)), rfl⟩

theorem witness_BuiltTablesArePrefixFree :
    ∃ s t u : State, Idle s ∧ s.code.Begins s.codeLen [97, 98, 256] ∧ exec .hbld s = .next t ∧ exec .hgen t = .next u ∧
      u.status.fault = false := by
  obtain ⟨u, h, hf⟩ := completes (i := .hgen)
    (s := complete (hbldStore (countCodes [97, 98, 256]) ((accept 3 (withCode small [97, 98, 256])).draw 3))) (by decide +kernel)
  exact ⟨withCode small [97, 98, 256], _, u, ⟨rfl, rfl⟩, begins_withCode (by decide), rfl, h, hf⟩

theorem witness_HuffmanCommandsLeaveTheRestUnchanged :
    (∃ s t, Idle s ∧ exec .hbld s = .next t) ∧ (∃ s t, Idle s ∧ exec .hgen s = .next t ∧ t.status.fault = false) := by
  obtain ⟨u, h, hf⟩ := completes (i := .hgen) (s := withTree small treeV25) (by decide +kernel)
  exact ⟨⟨withCode small [97], _, ⟨rfl, rfl⟩, rfl⟩, ⟨_, u, ⟨rfl, rfl⟩, h, hf⟩⟩

/-- Eight bits fill PACKED exactly. -/
theorem witness_PackWritesTheConcatenatedBits :
    ∃ s : State, Idle s ∧ s.code.Begins s.codeLen [97, 98, 97, 98] ∧ s.cfg.packedCap < 2 ^ 29 ∧
      (∀ k ∈ [97, 98, 97, 98], (tableAt s.table k).len ≠ 0) ∧
      ([97, 98, 97, 98].map fun k => (tableAt s.table k).len).sum = 8 * s.cfg.packedCap :=
  ⟨withCodeTable small [97, 98, 97, 98] tableV25, ⟨rfl, rfl⟩, begins_withCodeTable (by decide), by decide, by decide, by decide⟩

/-- An absent entry at index 1; a ninth bit at index 4. -/
theorem witness_PackFaultsAtTheFirstBadCode :
    (∃ s : State, Idle s ∧ s.code.Begins s.codeLen [97, 5] ∧ [97, 5][1]? = some 5 ∧
      (∀ j ∈ [97, 5].take 1, (tableAt s.table j).len ≠ 0) ∧
      (([97, 5].take 1).map fun j => (tableAt s.table j).len).sum ≤ 8 * s.cfg.packedCap ∧ (tableAt s.table 5).len = 0) ∧
    (∃ s : State, Idle s ∧ s.code.Begins s.codeLen [97, 98, 97, 98, 256] ∧ [97, 98, 97, 98, 256][4]? = some 256 ∧
      (∀ j ∈ [97, 98, 97, 98, 256].take 4, (tableAt s.table j).len ≠ 0) ∧
      (([97, 98, 97, 98, 256].take 4).map fun j => (tableAt s.table j).len).sum ≤ 8 * s.cfg.packedCap ∧
      (tableAt s.table 256).len ≠ 0 ∧
      8 * s.cfg.packedCap < (([97, 98, 97, 98, 256].take 5).map fun j => (tableAt s.table j).len).sum) :=
  ⟨⟨withCodeTable small [97, 5] tableV25, ⟨rfl, rfl⟩, begins_withCodeTable (by decide), rfl, by decide, by decide, by decide⟩,
   ⟨withCodeTable small [97, 98, 97, 98, 256] tableV25, ⟨rfl, rfl⟩, begins_withCodeTable (by decide), rfl, by decide, by decide,
    by decide, by decide⟩⟩

/-- Seven codes fill CODE exactly, and one bit is left. -/
theorem witness_UnpkCutsTheWholeStream :
    ∃ s : State, Idle s ∧ s.packed.Begins s.packedLen [0x01] ∧ s.cfg.codeCap < 2 ^ 32 ∧
      Spells s.table (streamBits [0x01]) (List.replicate 7 97) [true] ∧ (List.replicate 7 97).length = s.cfg.codeCap :=
  ⟨withPacked { small with codeCap := 7 } [0x01] 0 tableZero, ⟨rfl, rfl⟩, begins_withPacked (by decide), by decide,
    spells_seven, rfl⟩

/-- All eight bits; and one bit more than there are. -/
theorem witness_UnpklCutsTheFirstBitlenBits :
    (∃ s : State, Idle s ∧ s.packed.Begins s.packedLen [0x01] ∧ s.cfg.codeCap < 2 ^ 32 ∧
      s.bitLen.toNat = 8 * s.packedLen.toNat ∧
      Spells s.table ((streamBits [0x01]).take s.bitLen.toNat) (List.replicate 7 97) [true] ∧
      (List.replicate 7 97).length = s.cfg.codeCap) ∧
    (∃ s : State, Idle s ∧ 8 * s.packedLen.toNat + 1 = s.bitLen.toNat) :=
  ⟨⟨withPacked { small with codeCap := 7 } [0x01] 8 tableZero, ⟨rfl, rfl⟩, begins_withPacked (by decide), by decide, by decide,
    spells_seven, rfl⟩, ⟨withPacked small [0x01] 9 tableZero, ⟨rfl, rfl⟩, by decide⟩⟩

theorem witness_UnpklOnAFullBufferIsUnpk :
    ∃ s t : State, Idle s ∧ s.bitLen.toNat = 8 * s.packedLen.toNat ∧ exec .unpk s = .next t := by
  obtain ⟨t, h, -⟩ := completes (i := .unpk) (s := withPacked { small with codeCap := 7 } [0x01] 8 tableZero) (by decide +kernel)
  exact ⟨_, t, ⟨rfl, rfl⟩, by decide, h⟩

/-- The first clause: a table in which two codes have the entry `0`. -/
theorem witness_ScanFaultsAtTheCompletingBit_matches :
    Memory.wf (tableOf [(1, [false]), (2, [false]), (3, [true])]) ∧
      HasEntry (tableOf [(1, [false]), (2, [false]), (3, [true])]) 1 [false] ∧
      HasEntry (tableOf [(1, [false]), (2, [false]), (3, [true])]) 2 [false] ∧
      ¬ HasEntry (tableOf [(1, [false]), (2, [false]), (3, [true])]) 3 [false] := by
  refine ⟨by decide +kernel, ⟨by decide +kernel, by decide +kernel⟩, ⟨by decide +kernel, by decide +kernel⟩, fun h => ?_⟩
  exact absurd h.2 (by decide +kernel)

/-- Two codes with the entry `0`, at the first bit; and CODE full at the last bit. -/
theorem witness_ScanFaultsAtTheCompletingBit :
    (∃ s : State, Idle s ∧ s.packed.Begins s.packedLen [0x00] ∧ (streamBits [0x00])[0]? = some false ∧
      Spells s.table ((streamBits [0x00]).take 0) [] [] ∧ ([] : List Nat).length ≤ s.cfg.codeCap ∧
      2 ≤ (codesSpelled s.table ([] ++ [false])).length ∧ 0 < s.bitLen.toNat ∧ s.bitLen.toNat ≤ 8 * s.packedLen.toNat) ∧
    (∃ s : State, Idle s ∧ s.packed.Begins s.packedLen [0x00] ∧ (streamBits [0x00])[7]? = some false ∧
      Spells s.table ((streamBits [0x00]).take 7) (List.replicate 7 97) [] ∧ codesSpelled s.table ([] ++ [false]) = [97] ∧
      (List.replicate 7 97).length = s.cfg.codeCap ∧ 7 < s.bitLen.toNat ∧ s.bitLen.toNat ≤ 8 * s.packedLen.toNat) :=
  ⟨⟨withPacked small [0x00] 1 (tableOf [(1, [false]), (2, [false])]), ⟨rfl, rfl⟩, begins_withPacked (by decide), by decide,
    spells_nothing _, by decide, by decide +kernel, by decide, by decide⟩,
   ⟨withPacked { small with codeCap := 7 } [0x00] 8 tableZero, ⟨rfl, rfl⟩, begins_withPacked (by decide), by decide,
    tableZero_step (tableZero_step (tableZero_step (tableZero_step (tableZero_step (tableZero_step
      (tableZero_step (spells_nothing _))))))), by decide +kernel, rfl, by decide, by decide⟩⟩

/-- CODE is full. -/
theorem witness_UnpklUndoesPack :
    ∃ s t : State, Inv s ∧ Idle s ∧ s.code.Begins s.codeLen [97, 97, 97] ∧ PrefixFree s.table ∧ exec .pack s = .next t ∧
      t.status.fault = false := by
  obtain ⟨t, h, hf⟩ := completes (i := .pack) (s := withCodeTable small [97, 97, 97] tableZero) (by decide +kernel)
  exact ⟨_, t, inv_withCodeTable _ _ (by decide), ⟨rfl, rfl⟩, begins_withCodeTable (by decide), prefixFree_tableZero, h, hf⟩

/-- Five padding bits: room for the five codes an all-zero entry of one bit adds; and a table with no all-zero entry. -/
theorem witness_UnpkReadsThePadding :
    (∃ s t : State, Inv s ∧ Idle s ∧ s.code.Begins s.codeLen [97, 97, 97] ∧ PrefixFree s.table ∧ exec .pack s = .next t ∧
      t.status.fault = false ∧ 8 * t.packedLen.toNat - t.bitLen.toNat = 5 ∧
      tableAt s.table 97 = { len := 1, bits := 0 } ∧ 3 + 5 / 1 = s.cfg.codeCap) ∧
    (∃ s t : State, Inv s ∧ Idle s ∧ s.code.Begins s.codeLen [97, 97, 97] ∧ PrefixFree s.table ∧ exec .pack s = .next t ∧
      t.status.fault = false ∧ 8 * t.packedLen.toNat - t.bitLen.toNat = 5 ∧
      ∀ z d, d ≠ 0 → d ≤ 5 → tableAt s.table z ≠ { len := d, bits := 0 }) := by
  constructor
  · obtain ⟨t, h, hf⟩ := next_of_fieldOf (f := fun t => (t.status.fault, 8 * t.packedLen.toNat - t.bitLen.toNat))
      (r := exec .pack (withCodeTable { small with codeCap := 8 } [97, 97, 97] tableZero)) (a := (false, 5)) (by decide +kernel)
    exact ⟨_, t, inv_withCodeTable _ _ (by decide), ⟨rfl, rfl⟩, begins_withCodeTable (by decide), prefixFree_tableZero,
      h,
      congrArg Prod.fst hf, congrArg Prod.snd hf, by decide, rfl⟩
  · obtain ⟨t, h, hf⟩ := next_of_fieldOf (f := fun t => (t.status.fault, 8 * t.packedLen.toNat - t.bitLen.toNat))
      (r := exec .pack (withCodeTable small [97, 97, 97] tableOne)) (a := (false, 5)) (by decide +kernel)
    refine ⟨_, t, inv_withCodeTable _ _ (by decide), ⟨rfl, rfl⟩, begins_withCodeTable (by decide), prefixFree_tableOne, h,
      congrArg Prod.fst hf, congrArg Prod.snd hf, fun z d hd _ he => ?_⟩
    have hz : tableAt tableOne z = { len := d, bits := 0 } := he
    rw [show tableOne = [(97, { len := 1, bits := 1 })] from rfl, tableAt, Memory.get?_cons] at hz
    split at hz
    · cases hz
    · simp at hz; exact hd hz.symm

theorem witness_CompressThenDecompresslReturnsTheText :
    ∃ (s s1 s2 s3 s4 : State) (bs : List Byte), Inv s ∧ Idle s ∧ s.text.Begins s.textLen bs ∧ exec .lzwe s = .next s1 ∧
      exec .hbld s1 = .next s2 ∧ exec .hgen s2 = .next s3 ∧ exec .pack s3 = .next s4 ∧ s4.status.fault = false := by
  have h : fieldOf (fun t => t.status.fault) (andThen (andThen (andThen (exec .lzwe (withText small [97, 98, 97, 98]))
      (exec .hbld)) (exec .hgen)) (exec .pack)) = some false := by decide +kernel
  obtain ⟨s4, h4, hf⟩ := next_of_fieldOf h
  obtain ⟨s3, h3, h4⟩ := next_of_andThen h4
  obtain ⟨s2, h2, h3⟩ := next_of_andThen h3
  obtain ⟨s1, h1, h2⟩ := next_of_andThen h2
  exact ⟨_, s1, s2, s3, s4, _, inv_withText, ⟨rfl, rfl⟩, begins_withText (by decide), h1, h2, h3, h4, hf⟩

theorem witness_PackCommandsLeaveTheRestUnchanged :
    (∃ s t, Idle s ∧ exec .pack s = .next t ∧ t.status.fault = false) ∧
    (∃ s t, Idle s ∧ exec .unpk s = .next t ∧ t.status.fault = false) ∧
    (∃ s t, Idle s ∧ exec .unpkl s = .next t ∧ t.status.fault = false) := by
  obtain ⟨t, h, hf⟩ := completes (i := .pack) (s := withCodeTable small [97, 97, 97] tableZero) (by decide +kernel)
  obtain ⟨u, h', hf'⟩ := completes (i := .unpk) (s := withPacked { small with codeCap := 7 } [0x01] 8 tableZero) (by decide +kernel)
  obtain ⟨v, h'', hf''⟩ := completes (i := .unpkl) (s := withPacked small [0x01] 3 tableZero) (by decide +kernel)
  exact ⟨⟨_, t, ⟨rfl, rfl⟩, h, hf⟩, ⟨_, u, ⟨rfl, rfl⟩, h', hf'⟩, ⟨_, v, ⟨rfl, rfl⟩, h'', hf''⟩⟩

theorem witness_EntryAndBitstringAreOneToOne :
    ∃ e : Entry, e.bits < 2 ^ e.len ∧ 2 < e.len ∧ e.bits = 2 ^ e.len - 1 := ⟨⟨3, 7⟩, by decide, by decide, by decide⟩

/-- The last element of each space holds a value; a fault-free host is idle. -/
theorem witness_HostReadsChangeNothing :
    ∃ s : State, s.status.busy = false ∧ s.text.get? 3 = some 98 ∧ 3 + 1 = s.cfg.textCap ∧ s.code.get? 2 = some 300 ∧
      2 + 1 = s.cfg.codeCap ∧ s.packed.get? 0 = some 0xB0 ∧ 0 + 1 = s.cfg.packedCap ∧ 511 + 1 = 2 ^ s.cfg.codeW ∧
      0 < s.nodeCount ∧ s.nodes[0]? = some (Node.leaf 1 300) :=
  ⟨{ State.resetWith small with
      text := [(3, 98)], code := [(2, 300)], packed := [(0, 0xB0)], nodes := [.leaf 1 300], nodeCount := 1 },
    rfl, rfl, rfl, rfl, rfl, rfl, rfl, by decide, by decide, rfl⟩

/-- The layout clauses: each field at the top of its range. -/
theorem witness_HostReadsChangeNothing_layout :
    (3 : Nat) < 2 ^ small.lenW ∧ (3 : Nat) < 2 ^ small.cntW ∧ (511 : Nat) < 2 ^ small.codeW ∧ (7 : Nat) < 2 ^ small.idxW := by
  decide +kernel

theorem witness_ReservedCsrsReadZeroAndIgnoreWrites : State.reset.status.busy = false ∧ 17 ≤ 17 := ⟨rfl, by decide⟩

/-- A length equal to the capacity, and one above it. -/
theorem witness_LengthWritesAreCheckedAgainstTheCapacity :
    ∃ (s : State) (v w : Word), s.status.busy = false ∧ v.toNat = s.cfg.textCap ∧ w.toNat = s.cfg.textCap + 1 :=
  ⟨State.resetWith small, 4, 5, rfl, by decide, by decide⟩

/-- `LEN = MAXLEN`, and `LEN = MAXLEN + 1`, on the last code, with all of `BITS` set. -/
theorem witness_TableWritesClearTheBitsAboveLen :
    ∃ (s : State) (c len bits : Nat), s.status.busy = false ∧ Memory.wf s.table ∧ c + 1 = 2 ^ s.cfg.codeW ∧
      len < 2 ^ s.cfg.lenW ∧ len + 1 < 2 ^ s.cfg.lenW ∧ bits + 1 = 2 ^ s.cfg.maxLen ∧ len = s.cfg.maxLen :=
  ⟨State.resetWith small, 511, 2, 3, rfl, by decide, by decide, by decide, by decide, by decide, by decide⟩

theorem witness_BufferWritesStoreOneElement :
    ∃ s : State, s.status.busy = false ∧ 3 + 1 = s.cfg.textCap ∧ 2 + 1 = s.cfg.codeCap ∧ 0 + 1 = s.cfg.packedCap :=
  ⟨State.resetWith small, rfl, rfl, rfl, rfl⟩

theorem witness_ReadOnlyAndOutOfRangeWritesAreIgnored :
    ∃ s : State, s.status.busy = false ∧ (Space.text ≠ .csr ∧ elementCount s.cfg .text ≤ 4) ∧
      (Space.table ≠ .csr ∧ elementCount s.cfg .table ≤ 512) ∧ 7 ≤ 7 :=
  ⟨State.resetWith small, rfl, by decide, by decide, by decide⟩

theorem witness_AccessWhileBusyIsRefused :
    ∃ s : State, s.status.busy = true ∧ ¬(Space.csr = .csr ∧ 2 = 1) :=
  ⟨accept 1 State.reset, rfl, by decide⟩

/-- An element past the source of each `LOAD` clause: the source is shorter than its buffer, and the element holds a value. -/
theorem witness_HostScriptLinesActAsGiven_past_the_source :
    ∃ s : State, s.status.busy = false ∧ ([97, 98, 97].length ≤ s.cfg.textCap ∧ [97, 98, 97].length ≤ 3 ∧ s.text.get? 3 = some 98) ∧
      ([97, 511].length ≤ s.cfg.codeCap ∧ [97, 511].length ≤ 2 ∧ s.code.get? 2 = some 300) ∧
      (([] : List Byte).length ≤ s.cfg.packedCap ∧ ([] : List Byte).length ≤ 0 ∧ s.packed.get? 0 = some 0xB0) :=
  ⟨{ State.resetWith small with text := [(3, 98)], code := [(2, 300)], packed := [(0, 0xB0)] }, rfl, by decide, by decide, by decide⟩

/-- Sources that fill their buffers; a listed entry of `MAXLEN` bits, one listed as absent, one present and not listed;
bitstrings of `MAXLEN + 1` and of `2^LEN_W` bits. -/
theorem witness_HostScriptLinesActAsGiven :
    ∃ s : State, s.status.busy = false ∧ (s.cfg.textCap < 2 ^ 32 ∧ [97, 98, 97, 98].length = s.cfg.textCap) ∧
      (s.cfg.codeCap < 2 ^ 32 ∧ [97, 511, 0].length = s.cfg.codeCap ∧ ∀ k ∈ [97, 511, 0], k < 2 ^ s.cfg.codeW) ∧
      (s.cfg.packedCap < 2 ^ 32 ∧ [0xB0].length = s.cfg.packedCap) ∧
      (Memory.wf s.table ∧ (∀ x ∈ s.table, x.1 < 2 ^ s.cfg.codeW) ∧
        ([(511, [true, true]), (4, [])].map Prod.fst).Nodup ∧
        (∀ x ∈ [(511, [true, true]), (4, [])], x.1 < 2 ^ s.cfg.codeW ∧ x.2.length ≤ s.cfg.maxLen) ∧ (tableAt s.table 97).len ≠ 0) ∧
      s.cfg.maxLen + 1 = [true, false, false].length ∧ 2 ^ s.cfg.lenW = [true, false, false, false].length :=
  ⟨withCodeTable small [] tableZero, rfl, by decide, by decide, by decide, by decide +kernel, by decide, by decide +kernel⟩

end Sys2Proof.Tests
end

section
/-! PROOFS of the statements about the state (10_state.md): what a step and a command can answer, said once; the rules by which
the invariant is kept; then the statements. -/

namespace Sys2Proof.Machine

/-! ## What a step and a command can answer -/

/-- How many bits `UNPK` and `UNPKL` scan (42_bitpack.md R142, R143). -/
inductive Scans (s : State) : Instr → Nat → Prop
  | unpk : Scans s .unpk (8 * s.packedLen.toNat)
  | unpkl : s.bitLen.toNat ≤ 8 * s.packedLen.toNat → Scans s .unpkl s.bitLen.toNat

/-- The ends of a command other than `CLR` on a state `s` that has accepted its word: completion, or fault entry
(10_state.md R29, 60_exceptions.md R173). -/
inductive Ends (s : State) : Instr → State → Prop
  | lzwe {r : LzweRegs} : lzweRun s.cfg s.textSource = .ok r →
      Ends s .lzwe (complete (lzweStore r (s.draw s.textLen.toNat)))
  | lzweFault {e : Raise} : lzweRun s.cfg s.textSource = .error e →
      Ends s .lzwe (raise e (loseEncoder (loseCode (s.draw s.textLen.toNat))))
  | lzwd {r : LzwdRegs} : lzwdRun s.cfg s.wD s.codeSource = .ok r →
      Ends s .lzwd (complete (lzwdStore r (s.draw s.codeLen.toNat)))
  | lzwdFault {e : Raise} : lzwdRun s.cfg s.wD s.codeSource = .error e →
      Ends s .lzwd (raise e (loseDecoder (loseText (s.draw s.codeLen.toNat))))
  | hbld : Ends s .hbld (complete (hbldStore (countCodes s.codeSource) (s.draw s.codeLen.toNat)))
  | hgen {m : Memory Entry} : genTable s.cfg s.nodes s.nodeCount s.root = .ok m →
      Ends s .hgen (complete (hgenStore m s))
  | hgenFault {e : Raise} : genTable s.cfg s.nodes s.nodeCount s.root = .error (some e) →
      Ends s .hgen (raise e (loseTable s))
  | pack {bits : List Bool} : packRun s.cfg s.table s.codeSource = .ok bits →
      Ends s .pack (complete (packStore bits (s.draw s.codeLen.toNat)))
  | packFault {e : Raise} : packRun s.cfg s.table s.codeSource = .error e →
      Ends s .pack (raise e (losePacked (s.draw s.codeLen.toNat)))
  | scan {i : Instr} {n : Nat} {r : ScanRegs} : Scans s i n →
      scanRun s.cfg s.table ((streamBits s.packedSource).take n) = .ok r →
      Ends s i (complete (scanStore r (s.draw s.packedLen.toNat)))
  | scanFault {i : Instr} {n : Nat} {e : Raise} : Scans s i n →
      scanRun s.cfg s.table ((streamBits s.packedSource).take n) = .error e →
      Ends s i (raise e (loseCand (loseCode (s.draw s.packedLen.toNat))))
  | bitlenRange : 8 * s.packedLen.toNat < s.bitLen.toNat →
      Ends s .unpkl (raise ⟨.bitlenRange, s.bitLen.toNat⟩ (loseCand (loseCode s)))

theorem ends_of_scan {s t : State} {i : Instr} {n : Nat} (hn : Scans s i n) (h : scan n s = .next t) : Ends s i t := by
  rcases scan_next_cases h with ⟨e, he, rfl⟩ | ⟨r, hr, rfl⟩
  · exact .scanFault hn he
  · exact .scan hn hr

/-- A command issued to an idle core answers one of its ends. -/
theorem ends_of_exec {s t : State} {i : Instr} (hs : Idle s) (hi : i ≠ .clr) (h : exec i s = .next t) :
    Ends (accept (opcode i) s) i t := by
  cases i with
  | clr => exact absurd rfl hi
  | lzwe =>
    rw [exec_lzwe_of_idle hs] at h
    rcases lzweBody_next_cases h with ⟨e, he, rfl⟩ | ⟨r, hr, rfl⟩
    · exact .lzweFault he
    · exact .lzwe hr
  | lzwd =>
    rw [exec_lzwd_of_idle hs] at h
    rcases lzwdBody_next_cases h with ⟨e, he, rfl⟩ | ⟨r, hr, rfl⟩
    · exact .lzwdFault he
    · exact .lzwd hr
  | hbld => rw [exec_hbld_of_idle hs] at h; cases h; exact .hbld
  | hgen =>
    rw [exec_hgen_of_idle hs] at h
    rcases hgenBody_next_cases h with ⟨e, he, rfl⟩ | ⟨m, hm, rfl⟩
    · exact .hgenFault he
    · exact .hgen hm
  | pack =>
    rw [exec_pack_of_idle hs] at h
    rcases packBody_next_cases h with ⟨e, he, rfl⟩ | ⟨bits, hb, rfl⟩
    · exact .packFault he
    · exact .pack hb
  | unpk => rw [exec_unpk_of_idle hs] at h; exact ends_of_scan .unpk h
  | unpkl =>
    rw [exec_unpkl_of_idle hs] at h
    rcases unpklBody_next_cases h with ⟨hr, rfl⟩ | ⟨hr, h⟩
    · exact .bitlenRange hr
    · exact ends_of_scan (.unpkl hr) h

/-- `UNPK` and `UNPKL` on an idle core, `BITLEN` in range, are their scan. -/
theorem exec_of_scans {s : State} {i : Instr} {n : Nat} (hs : Idle s) (hn : Scans (accept (opcode i) s) i n) :
    exec i s = scan n (accept (opcode i) s) := by
  cases hn with
  | unpk => exact exec_unpk_of_idle hs
  | unpkl h =>
    rw [exec_unpkl_of_idle hs]
    exact if_neg (Nat.not_lt.2 h)

/-- Each end of a command is its answer on an idle core. -/
theorem exec_of_ends {s t : State} {i : Instr} (hs : Idle s) (h : Ends (accept (opcode i) s) i t) : exec i s = .next t := by
  cases h with
  | lzwe hr => exact (exec_lzwe_of_idle hs).trans (lzweBody_of_ok hr)
  | lzweFault he => exact (exec_lzwe_of_idle hs).trans (lzweBody_of_error he)
  | lzwd hr => exact (exec_lzwd_of_idle hs).trans (lzwdBody_of_ok hr)
  | lzwdFault he => exact (exec_lzwd_of_idle hs).trans (lzwdBody_of_error he)
  | hbld => exact exec_hbld_of_idle hs
  | hgen hm => exact (exec_hgen_of_idle hs).trans (hgenBody_of_ok hm)
  | hgenFault he => exact (exec_hgen_of_idle hs).trans (hgenBody_of_error he)
  | pack hb => exact (exec_pack_of_idle hs).trans (packBody_of_ok hb)
  | packFault he => exact (exec_pack_of_idle hs).trans (packBody_of_error he)
  | scan hn hr => exact (exec_of_scans hs hn).trans (scan_of_ok hr)
  | scanFault hn he => exact (exec_of_scans hs hn).trans (scan_of_error he)
  | bitlenRange h => exact (exec_unpkl_of_idle hs).trans (if_pos h)

/-- What a command can answer with a next state: `CLR` clears, while faulted any other changes nothing, else it ends. -/
theorem exec_next_cases {s t : State} {i : Instr} (h : exec i s = .next t) :
    s.status.busy = false ∧
      ((i = .clr ∧ t = clear s) ∨ (i ≠ .clr ∧ s.status.fault = true ∧ t = s) ∨
        (i ≠ .clr ∧ s.status.fault = false ∧ Ends (accept (opcode i) s) i t)) := by
  cases hb : s.status.busy with
  | true => rw [exec_of_busy hb] at h; cases h
  | false =>
    refine ⟨rfl, ?_⟩
    by_cases hi : i = .clr
    · subst hi; rw [exec_clr_of_notBusy hb] at h; cases h; exact .inl ⟨rfl, rfl⟩
    · cases hf : s.status.fault with
      | true => rw [exec_of_faulted hb hf hi] at h; cases h; exact .inr (.inl ⟨hi, rfl, rfl⟩)
      | false => exact .inr (.inr ⟨hi, rfl, ends_of_exec ⟨hb, hf⟩ hi h⟩)

/-- What a word that is no command can lead to: while faulted nothing, else `ILLEGAL_CMD` (30_encoding.md R83). -/
theorem illegalCommand_next_cases {w : Word} {s t : State} (h : illegalCommand w s = .next t) :
    (s.status.fault = true ∧ t = s) ∨
      (s.status.fault = false ∧ t = raise ⟨.illegalCmd, w.toNat⟩ (accept (w.setWidth 8) s)) := by
  obtain ⟨-, h | ⟨hf, h⟩⟩ := command_next_cases h
  · exact .inl h
  · cases h; exact .inr ⟨hf, rfl⟩

theorem present_of_decode {w : Word} {i : Instr} (s : State) (h : decode w = .ok i) : present w s = exec i s := by
  simp only [present, h]

/-- What an act of the host can answer with a next state: the reset input clears, a read moves what the host saw, a command
word runs or is illegal, another write stores one item. -/
theorem hostEvent_next_cases {e : HostEvent} {s t : State} (h : hostEvent e s = .next t) :
    t = clear s ∨ (∃ sp i, t = hostRead sp i s) ∨ (∃ i, exec i s = .next t) ∨
      (∃ w, illegalCommand w s = .next t) ∨ ∃ sp i v, t = dataWrite sp i v s := by
  cases e with
  | reset => cases h; exact .inl rfl
  | read sp i =>
    simp only [hostEvent] at h
    split at h
    · cases h
    · cases h; exact .inr (.inl ⟨sp, i, rfl⟩)
  | write sp i v =>
    simp only [hostEvent] at h
    split at h
    · unfold present at h
      split at h
      · exact .inr (.inr (.inl ⟨_, h⟩))
      · exact .inr (.inr (.inr (.inl ⟨_, h⟩)))
    · split at h
      · cases h
      · cases h; exact .inr (.inr (.inr (.inr ⟨sp, i, v, rfl⟩)))

theorem step_of_script_cons {s : State} {e : HostEvent} {rest : List HostEvent} (h : s.script = e :: rest) :
    step s = hostEvent e { s with script := rest } := by
  simp only [step, h]

/-- A step does nothing, or performs the head of the script on the state with the rest of it. -/
theorem step_next_cases {s t : State} (h : step s = .next t) :
    t = s ∨ ∃ e rest, hostEvent e { s with script := rest } = .next t := by
  cases hs : s.script with
  | nil => simp only [step, hs] at h; cases h; exact .inl rfl
  | cons e rest => exact .inr ⟨e, rest, by rw [← step_of_script_cons hs]; exact h⟩

/-! ## The invariant: one rule for each group of fields -/

/-- TREE stays a tree when it and the parameters are left alone. -/
theorem TreeForm.of_sameTree {s t : State} (h : TreeForm s) (hc : t.cfg = s.cfg) (ht : SameTree s t) : TreeForm t := by
  obtain ⟨hn, hcnt, hr⟩ := ht
  constructor
  · rw [hn, hcnt]; exact h.count
  · rw [hr, hcnt]; exact h.root
  · rw [hcnt, hc]; exact h.fits
  · rw [hn]; exact h.children
  · rw [hn, hc]; exact h.leaves

theorem Params.two_pow_codeW_ge {p : Params} (h : p.WF) : 256 ≤ 2 ^ p.codeW := by
  obtain ⟨hw, -⟩ := h
  calc 256 = 2 ^ 8 := rfl
    _ ≤ _ := Nat.pow_le_pow_right (by decide) (Nat.le_of_succ_le hw)

theorem treeForm_resetWith (p : Params) : TreeForm (State.resetWith p) where
  count := rfl
  root := rfl
  fits := Nat.zero_le _
  children _ _ _ _ h := nomatch h
  leaves _ _ _ h := nomatch h

/-- The reset state has the invariant (10_state.md R47). -/
theorem inv_resetWith {p : Params} (hp : p.WF) : Inv (State.resetWith p) where
  params := hp
  notBusy := rfl
  cause := ⟨fun _ => rfl, fun _ => rfl⟩
  doneNoFault _ := rfl
  finfo _ := rfl
  textLen := Nat.zero_le _
  codeLen := Nat.zero_le _
  packedLen := Nat.zero_le _
  textForm := .nil
  codeForm := .nil
  packedForm := .nil
  tableForm := .nil
  freqForm := .nil
  textRange _ h := nomatch h
  codeRange _ h := nomatch h
  packedRange _ h := nomatch h
  tableRange _ h := nomatch h
  freqRange _ h := nomatch h
  tree := treeForm_resetWith p
  nextE _ := ⟨Nat.le_refl _, Params.two_pow_codeW_ge hp⟩
  nextD _ := ⟨Nat.le_refl _, Params.two_pow_codeW_ge hp⟩

section
variable {s : State} (h : Inv s)
include h

/-- The invariant is not about `BITLEN`, `CAND`, or the model's own fields. -/
theorem Inv.withFree (bl : Word) (cd : List Bool) (sc : List HostEvent) (hs : Option Nat) (d : Nat) :
    Inv { s with bitLen := bl, cand := cd, script := sc, hostSaw := hs, drawn := d } :=
  { h with tree := h.tree.of_sameTree rfl ⟨rfl, rfl, rfl⟩ }

theorem Inv.clear : Inv (clear s) := (inv_resetWith h.params).withFree 0 [] s.script s.hostSaw s.drawn

theorem Inv.draw (n : Nat) : Inv (s.draw n) := h.withFree s.bitLen s.cand s.script s.hostSaw (s.drawn + n)

/-- Acceptance and completion of a command. -/
theorem Inv.complete (hf : s.status.fault = false) (op : BitVec 8) : Inv (complete (accept op s)) :=
  { h with notBusy := rfl, doneNoFault := fun _ => hf, tree := h.tree.of_sameTree rfl ⟨rfl, rfl, rfl⟩ }

/-- Acceptance and fault entry (60_exceptions.md R173). -/
theorem Inv.raise {e : Raise} (he : e.cause ≠ .none) (op : BitVec 8) : Inv (raise e (accept op s)) :=
  { h with
    notBusy := rfl
    cause := ⟨fun hc => absurd hc he, nofun⟩
    doneNoFault := nofun
    finfo := nofun
    tree := h.tree.of_sameTree rfl ⟨rfl, rfl, rfl⟩
    nextE := nofun
    nextD := nofun }

theorem Inv.withFlags (resid desync : Bool) : Inv { s with status := { s.status with resid := resid, desync := desync } } :=
  { h with tree := h.tree.of_sameTree rfl ⟨rfl, rfl, rfl⟩ }

theorem Inv.withText {m : Memory Byte} {n : Word} (hm : Memory.wf m) (hr : ∀ x ∈ m, x.1 < s.cfg.textCap)
    (hn : n.toNat ≤ s.cfg.textCap) : Inv { s with text := m, textLen := n } :=
  { h with textForm := hm, textRange := hr, textLen := hn, tree := h.tree.of_sameTree rfl ⟨rfl, rfl, rfl⟩ }

theorem Inv.withCode {m : Memory Nat} {n : Word} (hm : Memory.wf m)
    (hr : ∀ x ∈ m, x.1 < s.cfg.codeCap ∧ x.2 < 2 ^ s.cfg.codeW) (hn : n.toNat ≤ s.cfg.codeCap) :
    Inv { s with code := m, codeLen := n } :=
  { h with codeForm := hm, codeRange := hr, codeLen := hn, tree := h.tree.of_sameTree rfl ⟨rfl, rfl, rfl⟩ }

theorem Inv.withPacked {m : Memory Byte} {n : Word} (hm : Memory.wf m) (hr : ∀ x ∈ m, x.1 < s.cfg.packedCap)
    (hn : n.toNat ≤ s.cfg.packedCap) : Inv { s with packed := m, packedLen := n } :=
  { h with packedForm := hm, packedRange := hr, packedLen := hn, tree := h.tree.of_sameTree rfl ⟨rfl, rfl, rfl⟩ }

theorem Inv.withTable {m : Memory Entry} (hm : Memory.wf m ∧ ∀ x ∈ m,
      x.1 < 2 ^ s.cfg.codeW ∧ 1 ≤ x.2.len ∧ x.2.len ≤ s.cfg.maxLen ∧ x.2.bits < 2 ^ x.2.len) :
    Inv { s with table := m } :=
  { h with tableForm := hm.1, tableRange := hm.2, tree := h.tree.of_sameTree rfl ⟨rfl, rfl, rfl⟩ }

theorem Inv.withEncoder (d : DictE) {n : Nat} (w : List Byte)
    (hn : s.status.fault = false → 256 ≤ n ∧ n ≤ 2 ^ s.cfg.codeW) : Inv { s with dictE := d, nextE := n, wE := w } :=
  { h with nextE := hn, tree := h.tree.of_sameTree rfl ⟨rfl, rfl, rfl⟩ }

theorem Inv.withDecoder (d : Memory (List Byte)) {n : Nat} (w : List Byte)
    (hn : s.status.fault = false → 256 ≤ n ∧ n ≤ 2 ^ s.cfg.codeW) : Inv { s with dictD := d, nextD := n, wD := w } :=
  { h with nextD := hn, tree := h.tree.of_sameTree rfl ⟨rfl, rfl, rfl⟩ }

theorem Inv.loseText : Inv (loseText s) := h.withText .nil nofun (Nat.zero_le _)

theorem Inv.loseCode : Inv (loseCode s) := h.withCode .nil nofun (Nat.zero_le _)

theorem Inv.losePacked : Inv (losePacked s) :=
  (h.withPacked .nil nofun (Nat.zero_le _)).withFree 0 s.cand s.script s.hostSaw s.drawn

theorem Inv.loseTable : Inv (loseTable s) := (h.withTable (freeTable_keeps s.cfg s.drawn)).draw 1

theorem Inv.loseEncoder (hf : s.status.fault = true) : Inv (loseEncoder s) :=
  (h.withEncoder (Config.freeDictE s.drawn) (Config.freeString s.drawn) fun hf' => nomatch hf.symm.trans hf').draw 1

theorem Inv.loseDecoder (hf : s.status.fault = true) : Inv (loseDecoder s) :=
  (h.withDecoder (Config.freeDictD s.drawn) (Config.freeString s.drawn) fun hf' => nomatch hf.symm.trans hf').draw 1

theorem Inv.loseCand : Inv (loseCand s) := h.withFree s.bitLen (Config.freeBits s.drawn) s.script s.hostSaw (s.drawn + 1)

/-- A host read keeps the invariant. -/
theorem Inv.hostRead (sp : Space) (i : Nat) : Inv (hostRead sp i s) := by
  obtain ⟨v, d, he⟩ := hostRead_cases sp i s
  rw [he]
  exact h.withFree s.bitLen s.cand s.script v d

/-- A write of a register keeps the invariant: a length is checked against its capacity (10_state.md R39). -/
theorem Inv.csrWrite (i : Nat) (v : Word) : Inv (csrWrite i v s) := by
  rcases csrWrite_cases i v s with he | ⟨-, hv, he⟩ | ⟨-, hv, he⟩ | ⟨-, hv, he⟩ | ⟨-, he⟩ <;> rw [he]
  · exact h
  · exact h.withText h.textForm h.textRange hv
  · exact h.withCode h.codeForm h.codeRange hv
  · exact h.withPacked h.packedForm h.packedRange hv
  · exact h.withFree v s.cand s.script s.hostSaw s.drawn

/-- A write of one element keeps the invariant (43_system.md R162). -/
theorem Inv.dataWrite (sp : Space) (i v : Nat) : Inv (dataWrite sp i v s) := by
  rcases dataWrite_cases sp i v s with he | ⟨-, he⟩ | ⟨-, hi, he⟩ | ⟨-, hi, he⟩ | ⟨-, hi, he⟩ | ⟨-, hi, he⟩ <;> rw [he]
  · exact h
  · exact h.csrWrite i _
  · refine h.withText (Memory.wf_set h.textForm _ _) (fun x hx => ?_) h.textLen
    rcases Memory.mem_set hx with rfl | hx
    · exact hi
    · exact h.textRange x hx
  · refine h.withCode (Memory.wf_set h.codeForm _ _) (fun x hx => ?_) h.codeLen
    rcases Memory.mem_set hx with rfl | hx
    · exact ⟨hi, Nat.mod_lt _ (Nat.two_pow_pos _)⟩
    · exact h.codeRange x hx
  · refine h.withPacked (Memory.wf_set h.packedForm _ _) (fun x hx => ?_) h.packedLen
    rcases Memory.mem_set hx with rfl | hx
    · exact hi
    · exact h.packedRange x hx
  · exact h.withTable (storeEntry_keeps h.tableForm hi h.tableRange)

end

end Sys2Proof.Machine
end

section
namespace Sys2Proof.Machine

/-! ## What the run of each command stays within -/

theorem lt_length_of_mem_ofList {α : Type} {l : List α} {x : Nat × α} (h : x ∈ Memory.ofList l) : x.1 < l.length :=
  (List.getElem?_eq_some_iff.1 (Memory.mem_ofList h)).1

theorem mem_of_mem_ofList {α : Type} {l : List α} {x : Nat × α} (h : x ∈ Memory.ofList l) : x.2 ∈ l :=
  List.mem_of_getElem? (Memory.mem_ofList h)

/-- The codes of `LZWE` fit CODE and `CODE_W`, and `NEXT_E` its range (40_lzw.md R102, 10_state.md R25). -/
theorem lzweRun_within {p : Params} (hp : p.WF) {bs : List Byte} {r : LzweRegs} (h : lzweRun p bs = .ok r) :
    r.out.length ≤ p.codeCap ∧ (∀ c ∈ r.out, c < 2 ^ p.codeW) ∧ 256 ≤ r.next ∧ r.next ≤ 2 ^ p.codeW := by
  obtain ⟨hw, -⟩ := hp
  obtain ⟨hcap, hdict⟩ := lzweRun_ok_inv (Nat.le_of_succ_le hw) h
  obtain ⟨r', hr', hout, hnext⟩ := lzweRun_ok hcap hdict
  obtain rfl : r' = r := Except.ok.inj (hr'.symm.trans h)
  refine ⟨hout ▸ hcap, fun c hc => ?_, by omega, by omega⟩
  rw [hout] at hc
  obtain ⟨j, hj, hcj⟩ := List.getElem_of_mem hc
  have hlt := encodeFrom_lt bs [] [] (fun hne => absurd rfl hne) j c (List.getElem?_eq_some_iff.2 ⟨hj, hcj⟩)
  simp only [List.length_nil] at hlt
  omega

/-- What every turn of `LZWD` keeps: its text fits TEXT, and `NEXT_D` its range (10_state.md R25). -/
def LzwdRegs.Within (p : Params) (r : LzwdRegs) : Prop := r.out.length ≤ p.textCap ∧ 256 ≤ r.next ∧ r.next ≤ 2 ^ p.codeW

theorem lzwdCode_within {p : Params} {i k : Nat} {r r' : LzwdRegs} (hr : r.Within p) (h : lzwdCode p i k r = .ok r') :
    r'.Within p := by
  obtain ⟨ho, hlo, hhi⟩ := hr
  obtain ⟨hfit, hn, rfl⟩ := lzwdCode_ok_cases h
  refine ⟨?_, ?_, ?_⟩ <;> simp only [List.length_append] <;> omega

theorem lzwdRun_within {p : Params} (hp : p.WF) {w : List Byte} {ks : List Nat} {r : LzwdRegs}
    (h : lzwdRun p w ks = .ok r) : r.Within p := by
  have h256 := Params.two_pow_codeW_ge hp
  obtain ⟨-, ht, -⟩ := hp
  rcases lzwdRun_ok_cases h with ⟨-, rfl⟩ | ⟨k0, ks', -, -, hloop⟩
  · exact ⟨Nat.zero_le _, Nat.le_refl _, h256⟩
  · exact forEach_keeps (fun _ q => q.Within p) (fun _ _ _ _ _ => lzwdCode_within) ⟨ht, Nat.le_refl _, h256⟩ hloop

/-- What every bit of the scan keeps: the codes fit CODE and have an entry in TABLE. -/
def ScanRegs.Within (p : Params) (t : Memory Entry) (r : ScanRegs) : Prop :=
  r.out.length ≤ p.codeCap ∧ ∀ c ∈ r.out, ∃ e, (c, e) ∈ t

theorem scanBit_within {p : Params} {t : Memory Entry} {i : Nat} {b : Bool} {r r' : ScanRegs} (hr : r.Within p t)
    (h : scanBit p t i b r = .ok r') : r'.Within p t := by
  obtain ⟨ho, hm⟩ := hr
  rcases scanBit_ok_cases h with ⟨-, rfl⟩ | ⟨c, hc, hne, rfl⟩
  · exact ⟨ho, hm⟩
  · refine ⟨by simp only [List.length_append, List.length_singleton]; omega, fun d hd => ?_⟩
    rcases List.mem_append.1 hd with hd | hd
    · exact hm d hd
    · exact mem_keys_of_codesSpelled (hc ▸ hd)

theorem scanRun_within {p : Params} {t : Memory Entry} {bits : List Bool} {r : ScanRegs} (h : scanRun p t bits = .ok r) :
    r.Within p t :=
  forEach_keeps (fun _ q => q.Within p t) (fun _ _ _ _ _ => scanBit_within) ⟨Nat.zero_le _, nofun⟩ h

/-- The bits of `PACK` fit PACKED. -/
theorem packRun_within {p : Params} {t : Memory Entry} {ks : List Nat} {bits : List Bool} (h : packRun p t ks = .ok bits) :
    bytesFor bits.length ≤ p.packedCap := by
  obtain ⟨-, -, hlen⟩ := packLoop_ok_inv h
  have := hlen (Nat.zero_le _)
  unfold bytesFor
  omega

/-- There are no more counts than codes, nor than codes of `CODE_W` bits (00_scope.md R9, `NSYM_MAX`). -/
theorem length_countCodes_le {p : Params} {ks : List Nat} (hl : ks.length ≤ p.codeCap) (hk : ∀ c ∈ ks, c < 2 ^ p.codeW) :
    (countCodes ks).length ≤ p.nsymMax := by
  have hnd : ((countCodes ks).map Prod.fst).Nodup :=
    (List.pairwise_map.2 (wf_countCodes ks)).imp Nat.ne_of_lt
  have hmem : ∀ c ∈ (countCodes ks).map Prod.fst, c ∈ ks := by
    intro c hc
    obtain ⟨x, hx, rfl⟩ := List.mem_map.1 hc
    exact ((mem_countCodes_iff ks _ _).1 hx).1
  have h1 := (hnd.subperm hmem).length_le
  have h2 := (hnd.subperm fun c hc => List.mem_range.2 (hk c (hmem c hc))).length_le
  rw [List.length_map] at h1 h2
  rw [List.length_range] at h2
  exact Nat.le_min.2 ⟨Nat.le_trans h1 hl, h2⟩

/-- The tree `HBLD` builds from counts is a tree (10_state.md R34, 41_huffman.md R124). -/
theorem treeForm_hbldStore {s : State} {f : Memory Nat} (hf : f.length ≤ s.cfg.nsymMax)
    (hc : ∀ x ∈ f, x.1 < 2 ^ s.cfg.codeW) : TreeForm (hbldStore f s) := by
  rcases eq_or_ne f [] with rfl | hne
  · exact { count := rfl, root := rfl, fits := Nat.zero_le _, children := nofun, leaves := nofun }
  obtain ⟨hlen, hleaf, ⟨x, hforest, -, -⟩, hmerge⟩ := buildNodes_spec hne
  refine { count := rfl, root := rfl, fits := ?_, children := hforest.children, leaves := fun k w c hk => ?_ }
  · rw [hbldStore_nodeCount, hbldStore_cfg, hlen, Params.nodeCap]; omega
  · rw [hbldStore_nodes] at hk
    rcases Nat.lt_or_ge k f.length with hlt | hge
    · rw [hleaf k hlt, leavesOf, List.getElem?_map, Option.map_eq_some_iff] at hk
      obtain ⟨y, hy, he⟩ := hk
      cases he
      exact hc y (List.mem_of_getElem? hy)
    · obtain ⟨l, r, a, b, hm⟩ := hmerge k hge (List.getElem?_eq_some_iff.1 hk).1
      rw [hm.node] at hk
      cases hk

/-- A path leads to a leaf of the node store. -/
theorem LeadsTo.leaf_mem {nodes : List Node} {k c : Nat} {q : List Bool} (h : LeadsTo nodes k q c) :
    ∃ j w : Nat, nodes[j]? = some (Node.leaf w c) := by
  induction h with
  | leaf hk => exact ⟨_, _, hk⟩
  | left _ _ ih => exact ih
  | right _ _ ih => exact ih

/-- An entry of a bitstring of 1 to `MAXLEN` bits is in range. -/
theorem Entry.ofBits_inRange {n : Nat} {bs : List Bool} (h0 : bs ≠ []) (hn : bs.length ≤ n) :
    1 ≤ (Entry.ofBits bs).len ∧ (Entry.ofBits bs).len ≤ n ∧ (Entry.ofBits bs).bits < 2 ^ (Entry.ofBits bs).len :=
  ⟨List.length_pos_iff.2 h0, hn, Entry.bits_ofBits_lt bs⟩

/-- The table `HGEN` makes of a tree has the form and the range of a table (41_huffman.md R126 to R128). -/
theorem genTable_within {s : State} (ht : TreeForm s) (hp : s.cfg.WF) {m : Memory Entry}
    (h : genTable s.cfg s.nodes s.nodeCount s.root = .ok m) :
    Memory.wf m ∧
      ∀ x ∈ m, x.1 < 2 ^ s.cfg.codeW ∧ 1 ≤ x.2.len ∧ x.2.len ≤ s.cfg.maxLen ∧ x.2.bits < 2 ^ x.2.len := by
  obtain ⟨-, -, -, -, -, -, -, hmax⟩ := hp
  rcases genTable_cases s.cfg s.nodes s.nodeCount s.root with
    ⟨-, g⟩ | ⟨-, -, g⟩ | ⟨w, c, -, hleaf, g⟩ | ⟨w, l, r, -, hint, g⟩ <;> rw [g] at h
  · cases h; exact ⟨.nil, nofun⟩
  · cases h
  · cases h
    refine ⟨wf_tableSet .nil _ _, fun x hx => ?_⟩
    rcases mem_tableSet hx with ⟨rfl, -⟩ | hx
    · exact ⟨ht.leaves _ w c hleaf, Entry.ofBits_inRange (List.cons_ne_nil _ _) hmax⟩
    · cases hx
  · obtain ⟨hwf, -, -, hlen, hmem⟩ := walk_ok h .nil fun _ => ⟨w, l, r, hint⟩
    refine ⟨hwf, fun x hx => ?_⟩
    rcases hmem x hx with hx | ⟨q, hq, he⟩
    · cases hx
    · obtain ⟨j, v, hj⟩ := hq.leaf_mem
      have hne : q ≠ [] := by
        rintro rfl
        cases hq with
        | leaf hk => rw [hint] at hk; cases hk
      rw [he]
      exact ⟨ht.leaves j v x.1 hj, Entry.ofBits_inRange hne (hlen q x.1 hq)⟩

/-! ## The invariant after each store -/

section
variable {s : State} (h : Inv s)
include h

/-- CODE filled with codes that fit. -/
theorem Inv.fillCode {l : List Nat} (hl : l.length ≤ s.cfg.codeCap) (hc : ∀ c ∈ l, c < 2 ^ s.cfg.codeW) :
    Inv { s with code := Memory.ofList l, codeLen := BitVec.ofNat 32 l.length } :=
  h.withCode (Memory.wf_ofList l)
    (fun _ hx => ⟨Nat.lt_of_lt_of_le (lt_length_of_mem_ofList hx) hl, hc _ (mem_of_mem_ofList hx)⟩)
    (Nat.le_trans (Nat.mod_le _ _) hl)

theorem Inv.lzweStore {bs : List Byte} {r : LzweRegs} (hr : lzweRun s.cfg bs = .ok r) : Inv (lzweStore r s) := by
  obtain ⟨hl, hc, hn⟩ := lzweRun_within h.params hr
  exact (h.fillCode hl hc).withEncoder r.dict r.w fun _ => hn

theorem Inv.lzwdStore {w : List Byte} {ks : List Nat} {r : LzwdRegs} (hr : lzwdRun s.cfg w ks = .ok r) :
    Inv (lzwdStore r s) := by
  obtain ⟨hl, hn⟩ := lzwdRun_within h.params hr
  have htext : Inv { s with text := Memory.ofList r.out, textLen := BitVec.ofNat 32 r.out.length } :=
    h.withText (Memory.wf_ofList r.out) (fun _ hx => Nat.lt_of_lt_of_le (lt_length_of_mem_ofList hx) hl)
      (Nat.le_trans (Nat.mod_le _ _) hl)
  exact (htext.withDecoder r.dict r.w fun _ => hn).withFlags s.status.resid r.desync

theorem Inv.hbldStore {ks : List Nat} (hl : ks.length ≤ s.cfg.codeCap) (hk : ∀ c ∈ ks, c < 2 ^ s.cfg.codeW) :
    Inv (hbldStore (countCodes ks) s) := by
  have hrange : ∀ x ∈ countCodes ks, x.1 < 2 ^ s.cfg.codeW ∧ 1 ≤ x.2 ∧ x.2 ≤ s.cfg.codeCap := by
    intro x hx
    obtain ⟨hmem, hcount⟩ := (mem_countCodes_iff ks x.1 x.2).1 hx
    exact ⟨hk _ hmem, pos_of_mem_countCodes hx, hcount ▸ Nat.le_trans List.count_le_length hl⟩
  exact { h with
    freqForm := wf_countCodes ks
    freqRange := hrange
    tree := treeForm_hbldStore (length_countCodes_le hl hk) fun x hx => (hrange x hx).1 }

theorem Inv.packStore {t : Memory Entry} {ks : List Nat} {bits : List Bool} (hr : packRun s.cfg t ks = .ok bits) :
    Inv (packStore bits s) := by
  have hl := packRun_within hr
  have hlen := length_packedBytes bits
  exact (h.withPacked (Memory.wf_ofList (packedBytes bits))
    (fun _ hx => Nat.lt_of_lt_of_le (lt_length_of_mem_ofList hx) (hlen ▸ hl)) (Nat.le_trans (Nat.mod_le _ _) hl)).withFree
    (BitVec.ofNat 32 bits.length) s.cand s.script s.hostSaw s.drawn

theorem Inv.scanStore {bits : List Bool} {r : ScanRegs} (hr : scanRun s.cfg s.table bits = .ok r) :
    Inv (scanStore r s) := by
  obtain ⟨hl, hm⟩ := scanRun_within hr
  have hcode : ∀ c ∈ r.out, c < 2 ^ s.cfg.codeW := by
    intro c hc
    obtain ⟨e, he⟩ := hm c hc
    exact (h.tableRange _ he).1
  exact ((h.fillCode hl hcode).withFree s.bitLen r.cand s.script s.hostSaw s.drawn).withFlags
    (!r.cand.isEmpty) s.status.desync

/-- Every end of a command keeps the invariant. A store, and what a fault loses, does not touch what completion and fault entry
write, so each is taken on the completed or faulted state. -/
theorem Inv.ends {t : State} {i : Instr} {op : BitVec 8} (hf : s.status.fault = false) (he : Ends (accept op s) i t) :
    Inv t := by
  have done := h.complete hf op
  have hks : ∀ c ∈ s.codeSource, c < 2 ^ s.cfg.codeW := fun c => codeSource_lt fun x hx => (h.codeRange x hx).2
  have hlen : s.codeSource.length ≤ s.cfg.codeCap := (length_codeSource s).trans_le h.codeLen
  cases he with
  | lzwe hr => exact (done.draw _).lzweStore hr
  | lzweFault he => exact ((h.raise (cause_of_lzweRun he) op).draw _).loseCode.loseEncoder rfl
  | lzwd hr => exact (done.draw _).lzwdStore hr
  | lzwdFault he => exact ((h.raise (cause_of_lzwdRun he) op).draw _).loseText.loseDecoder rfl
  | hbld => exact (done.draw _).hbldStore hlen hks
  | hgen hm => exact done.withTable (genTable_within h.tree h.params hm)
  | hgenFault he => exact (h.raise (by simp [cause_of_genTable he]) op).loseTable
  | pack hb => exact (done.draw _).packStore hb
  | packFault he => exact ((h.raise (cause_of_packRun he) op).draw _).losePacked
  | scan _ hr => exact (done.draw _).scanStore hr
  | scanFault _ he => exact ((h.raise (cause_of_scanRun he) op).draw _).loseCode.loseCand
  | bitlenRange _ => exact (h.raise (e := ⟨.bitlenRange, s.bitLen.toNat⟩) nofun op).loseCode.loseCand

/-- Every command keeps the invariant. -/
theorem Inv.exec {t : State} {i : Instr} (he : exec i s = .next t) : Inv t := by
  obtain ⟨-, ⟨-, rfl⟩ | ⟨-, -, rfl⟩ | ⟨-, hf, he⟩⟩ := exec_next_cases he
  · exact h.clear
  · exact h
  · exact h.ends hf he

theorem Inv.illegalCommand {t : State} {w : Word} (he : illegalCommand w s = .next t) : Inv t := by
  rcases illegalCommand_next_cases he with ⟨-, rfl⟩ | ⟨-, rfl⟩
  · exact h
  · exact h.raise (e := ⟨.illegalCmd, w.toNat⟩) nofun _

/-- Every act of the host keeps the invariant. -/
theorem Inv.hostEvent {t : State} {e : HostEvent} (he : hostEvent e s = .next t) : Inv t := by
  rcases hostEvent_next_cases he with rfl | ⟨sp, i, rfl⟩ | ⟨i, he⟩ | ⟨w, he⟩ | ⟨sp, i, v, rfl⟩
  · exact h.clear
  · exact h.hostRead sp i
  · exact h.exec he
  · exact h.illegalCommand he
  · exact h.dataWrite sp i v

end

/-! ## The statements about the invariant -/

/-- Settles O14: the step performs the head of the script on the state with the rest of it, and every act of the host keeps the
invariant. -/
theorem everyStepKeepsTheInvariant : Obligations.EveryStepKeepsTheInvariant := by
  intro s t h hstep
  rcases step_next_cases hstep with rfl | ⟨e, rest, he⟩
  · exact h
  · exact (h.withFree s.bitLen s.cand rest s.hostSaw s.drawn).hostEvent he

/-- Settles O13. -/
theorem invariantHoldsAtReset : Obligations.InvariantHoldsAtReset := fun _ => inv_resetWith

end Sys2Proof.Machine
end

section
namespace Sys2Proof.Machine

/-! ## What the ends of a command leave alone -/

section
variable {s t : State} {i : Instr}

/-- No command changes the parameters (10_state.md R43). -/
theorem Ends.cfg (h : Ends s i t) : t.cfg = s.cfg := by
  cases h <;> rfl

/-- Every command leaves the core not busy (10_state.md R29). -/
theorem Ends.busy (h : Ends s i t) : t.status.busy = false := by
  cases h <;> rfl

/-- Only a completing scan writes `RESID` (10_state.md R29). -/
theorem Ends.resid (h : Ends s i t) (hu : i ≠ .unpk) (hl : i ≠ .unpkl) : t.status.resid = s.status.resid := by
  cases h with
  | scan hn _ =>
    cases hn with
    | unpk => exact absurd rfl hu
    | unpkl _ => exact absurd rfl hl
  | _ => rfl

/-- Only a completing `LZWD` writes `DESYNC` (10_state.md R29). -/
theorem Ends.desync (h : Ends s i t) (hd : i ≠ .lzwd) : t.status.desync = s.status.desync := by
  cases h with
  | lzwd _ => exact absurd rfl hd
  | _ => rfl

theorem exec_cfg (h : exec i s = .next t) : t.cfg = s.cfg := by
  obtain ⟨-, ⟨-, rfl⟩ | ⟨-, -, rfl⟩ | ⟨-, -, he⟩⟩ := exec_next_cases h
  · rfl
  · rfl
  · exact he.cfg

theorem hostEvent_cfg {e : HostEvent} (h : hostEvent e s = .next t) : t.cfg = s.cfg := by
  rcases hostEvent_next_cases h with rfl | ⟨sp, k, rfl⟩ | ⟨i, hx⟩ | ⟨w, hx⟩ | ⟨sp, k, v, rfl⟩
  · rfl
  · obtain ⟨v, d, he⟩ := hostRead_cases sp k s
    rw [he]
  · exact exec_cfg hx
  · rcases illegalCommand_next_cases hx with ⟨-, rfl⟩ | ⟨-, rfl⟩ <;> rfl
  · exact dataWrite_cfg sp k v s

/-- What `UNPK` and `UNPKL` scan depends on the two lengths only. -/
theorem Scans.congr {n : Nat} (h : Scans s i n) (hp : t.packedLen = s.packedLen) (hb : t.bitLen = s.bitLen) :
    Scans t i n := by
  cases h with
  | unpk => rw [← hp]; exact .unpk
  | unpkl hr => rw [← hp, ← hb] at hr; rw [← hb]; exact .unpkl hr

end

/-! ## Hidden state (10_state.md R45) -/

section
variable {p : Params} {w w' : List Byte} {ks : List Nat}

/-- `W_D` as an earlier command left it plays no part in what `LZWD` raises. -/
theorem lzwdRun_error_congr {e : Raise} (h : lzwdRun p w ks = .error e) : lzwdRun p w' ks = .error e := by
  cases ks with
  | nil => cases h
  | cons k ks => exact h

/-- `W_D` as an earlier command left it plays no part in the results of `LZWD`; an empty source leaves it. -/
theorem lzwdRun_ok_congr {r : LzwdRegs} (h : lzwdRun p w ks = .ok r) : ∃ v, lzwdRun p w' ks = .ok { r with w := v } := by
  cases ks with
  | nil => cases h; exact ⟨w', rfl⟩
  | cons k ks => exact ⟨r.w, h⟩

/-- `LZWD` run again from the `W_D` it left gives the same registers. -/
theorem lzwdRun_again {r : LzwdRegs} (h : lzwdRun p w ks = .ok r) : lzwdRun p r.w ks = .ok r := by
  cases ks with
  | nil => cases h; rfl
  | cons k ks => exact h

end

/-- The state with other contents of the dictionaries, the working strings and `CAND`. -/
def State.withHidden (s : State) (dE : DictE) (wE : List Byte) (dD : Memory (List Byte)) (wD : List Byte) (cd : List Bool) :
    State := { s with dictE := dE, wE := wE, dictD := dD, wD := wD, cand := cd }

/-- From a state with other hidden contents a command ends alike: in the same state but for the hidden contents. -/
theorem Ends.withHidden {s t : State} {i : Instr} (h : Ends s i t) (dE : DictE) (wE : List Byte) (dD : Memory (List Byte))
    (wD : List Byte) (cd : List Bool) :
    ∃ t', Ends (s.withHidden dE wE dD wD cd) i t' ∧ t' = t.withHidden t'.dictE t'.wE t'.dictD t'.wD t'.cand := by
  cases h with
  | lzwe hr => exact ⟨_, .lzwe hr, rfl⟩
  | lzweFault he => exact ⟨_, .lzweFault he, rfl⟩
  | lzwd hr =>
    obtain ⟨v, hv⟩ := lzwdRun_ok_congr hr
    exact ⟨_, .lzwd hv, rfl⟩
  | lzwdFault he => exact ⟨_, .lzwdFault (lzwdRun_error_congr he), rfl⟩
  | hbld => exact ⟨_, .hbld, rfl⟩
  | hgen hm => exact ⟨_, .hgen hm, rfl⟩
  | hgenFault he => exact ⟨_, .hgenFault he, rfl⟩
  | pack hb => exact ⟨_, .pack hb, rfl⟩
  | packFault he => exact ⟨_, .packFault he, rfl⟩
  | scan hn hr => exact ⟨_, .scan (hn.congr rfl rfl) hr, rfl⟩
  | scanFault hn he => exact ⟨_, .scanFault (hn.congr rfl rfl) he, rfl⟩
  | bitlenRange h => exact ⟨_, .bitlenRange h, rfl⟩

/-! ## The same command again (10_state.md R48) -/

theorem textSource_congr {s t : State} (h : ∃ bs, s.text.Begins s.textLen bs) (ht : SameText s t) :
    t.textSource = s.textSource := by
  obtain ⟨bs, hs⟩ := h
  rw [textSource_of_begins hs, textSource_of_begins (s := t) (by rw [ht.1, ht.2]; exact hs)]

theorem codeSource_congr {s t : State} (h : ∃ ks, s.code.Begins s.codeLen ks) (ht : SameCode s t) :
    t.codeSource = s.codeSource := by
  obtain ⟨ks, hs⟩ := h
  rw [codeSource_of_begins hs, codeSource_of_begins (s := t) (by rw [ht.1, ht.2]; exact hs)]

theorem packedSource_congr {s t : State} (h : ∃ bs, s.packed.Begins s.packedLen bs) (ht : SamePacked s t) :
    t.packedSource = s.packedSource := by
  obtain ⟨bs, hs⟩ := h
  rw [packedSource_of_begins hs, packedSource_of_begins (s := t) (by rw [ht.1, ht.2]; exact hs)]

/-- A completed command, accepted again with its sources defined, ends as before: its destination is none of its sources. -/
theorem Ends.again {s t : State} {i : Instr} (h : Ends s i t) (hf : t.status.fault = false)
    (htext : ∃ bs, s.text.Begins s.textLen bs) (hcode : ∃ ks, s.code.Begins s.codeLen ks)
    (hpacked : ∃ bs, s.packed.Begins s.packedLen bs) :
    ∃ u, Ends (accept s.status.lastop t) i u ∧ u = { t with drawn := u.drawn } := by
  cases h with
  | @lzwe r hr =>
    have hsrc := textSource_congr htext (t := complete (lzweStore r (s.draw s.textLen.toNat))) ⟨rfl, rfl⟩
    exact ⟨_, .lzwe (by rw [textSource_accept, hsrc]; exact hr), rfl⟩
  | @lzwd r hr =>
    have hsrc := codeSource_congr hcode (t := complete (lzwdStore r (s.draw s.codeLen.toNat))) ⟨rfl, rfl⟩
    exact ⟨_, .lzwd (by rw [codeSource_accept, hsrc]; exact lzwdRun_again hr), rfl⟩
  | hbld =>
    have hsrc := codeSource_congr hcode
      (t := complete (hbldStore (countCodes s.codeSource) (s.draw s.codeLen.toNat))) ⟨rfl, rfl⟩
    exact ⟨_, .hbld, by rw [codeSource_accept, hsrc]; rfl⟩
  | hgen hm => exact ⟨_, .hgen hm, rfl⟩
  | @pack bits hb =>
    have hsrc := codeSource_congr hcode (t := complete (packStore bits (s.draw s.codeLen.toNat))) ⟨rfl, rfl⟩
    exact ⟨_, .pack (by rw [codeSource_accept, hsrc]; exact hb), rfl⟩
  | @scan _ n r hn hr =>
    have hsrc := packedSource_congr hpacked (t := complete (scanStore r (s.draw s.packedLen.toNat))) ⟨rfl, rfl⟩
    exact ⟨_, .scan (hn.congr rfl rfl) (by rw [packedSource_accept, hsrc]; exact hr), rfl⟩
  | lzweFault | lzwdFault | hgenFault | packFault | scanFault | bitlenRange => cases hf

/-! ## Registers and single accesses -/

@[simp] theorem Status.word_reset : Status.reset.word = 0 := by decide

/-- The flags of `STATUS`, bits 0 to 4 (10_state.md R37). -/
theorem Status.word_flags (st : Status) : st.word.getLsbD 0 = st.busy ∧ st.word.getLsbD 1 = st.done ∧
    st.word.getLsbD 2 = st.fault ∧ st.word.getLsbD 3 = st.resid ∧ st.word.getLsbD 4 = st.desync := by
  simp only [Status.word, ↓BitVec.getLsbD_append, BitVec.getLsbD_ofBool]
  simp

/-- `CAUSE` and `LASTOP` in `STATUS` (10_state.md R37). -/
theorem Status.word_fields (st : Status) :
    st.word.extractLsb' 8 4 = st.cause.code ∧ st.word.extractLsb' 16 8 = st.lastop := by
  simp (disch := decide) only [Status.word, ↓BitVec.extractLsb'_append_eq_of_le, ↓BitVec.extractLsb'_append_eq_of_add_le]
  simp

/-- The reserved fields of `STATUS` read 0 (10_state.md R44). -/
theorem Status.word_reserved (st : Status) :
    st.word.extractLsb' 5 3 = 0 ∧ st.word.extractLsb' 12 4 = 0 ∧ st.word.extractLsb' 24 8 = 0 := by
  simp (disch := decide) only [Status.word, ↓BitVec.extractLsb'_append_eq_of_le, ↓BitVec.extractLsb'_append_eq_of_add_le]
  simp

theorem csrRead_of_reserved (s : State) {i : Nat} (h : 17 ≤ i) : csrRead s i = 0 := by
  obtain ⟨k, rfl⟩ := Nat.exists_eq_add_of_le' h
  rfl

theorem csrWrite_of_reserved (s : State) {i : Nat} (v : Word) (h : 17 ≤ i) : csrWrite i v s = s := by
  obtain ⟨k, rfl⟩ := Nat.exists_eq_add_of_le' h
  rfl

theorem hostRead_csr (i : Nat) (s : State) : hostRead .csr i s = { s with hostSaw := some (csrRead s i).toNat } := rfl

/-- A read on a core that is not busy. -/
theorem hostEvent_read {s : State} (sp : Space) (i : Nat) (hb : s.status.busy = false) :
    hostEvent (.read sp i) s = .next (hostRead sp i s) := by
  simp [hostEvent, hb]

/-- A word written to a register other than `CMD`, on a core that is not busy. -/
theorem hostEvent_write_csr {s : State} {i : Nat} (v : Word) (hb : s.status.busy = false) (hi : i ≠ 0) :
    hostEvent (.write .csr i v.toNat) s = .next (csrWrite i v s) := by
  rw [hostEvent_write hb fun h => hi h.2, dataWrite, BitVec.ofNat_toNat, BitVec.setWidth_eq]

/-- A word written to `csr[CMD]` is presented as a command word (10_state.md R36). -/
theorem hostEvent_write_cmd (w : Word) (s : State) : hostEvent (.write .csr 0 w.toNat) s = present w s := by
  rw [hostEvent, if_pos ⟨rfl, rfl⟩, BitVec.ofNat_toNat, BitVec.setWidth_eq]

/-! ## The other statements -/

/-- Settles O15: no act of the host, a command among them, changes the parameters. -/
theorem parametersNeverChange : Obligations.ParametersNeverChange := by
  refine ⟨fun s t hstep => ?_, fun s => ⟨rfl, rfl, rfl, rfl, rfl⟩⟩
  rcases step_next_cases hstep with rfl | ⟨e, rest, he⟩
  · rfl
  · exact hostEvent_cfg (s := { s with script := rest }) he

/-- Settles O18, by the ends of each command. -/
theorem residAndDesyncHaveOneWriterEach : Obligations.ResidAndDesyncHaveOneWriterEach := by
  intro s t i h
  obtain ⟨-, ⟨rfl, rfl⟩ | ⟨hi, -, rfl⟩ | ⟨hi, -, he⟩⟩ := exec_next_cases h
  · exact ⟨fun _ _ hc => absurd rfl hc, fun _ hc => absurd rfl hc, fun _ => ⟨rfl, rfl⟩⟩
  · exact ⟨fun _ _ _ => rfl, fun _ _ => rfl, fun hc => absurd hc hi⟩
  · exact ⟨fun hu hl _ => he.resid hu hl, fun hd _ => he.desync hd, fun hc => absurd hc hi⟩

/-- Settles O19: `CLR` does not read the hidden state, and every end of another command is an end from any hidden state. -/
theorem noResultDependsOnHiddenState : Obligations.NoResultDependsOnHiddenState := by
  intro s t i dE wE dD wD cd h
  obtain ⟨hb, ⟨rfl, rfl⟩ | ⟨hi, hf, rfl⟩ | ⟨hi, hf, he⟩⟩ := exec_next_cases h
  · exact ⟨clear s, exec_clr_of_notBusy hb, rfl⟩
  · exact ⟨_, exec_of_faulted hb hf hi, rfl⟩
  · obtain ⟨t', he', ht⟩ := he.withHidden dE wE dD wD cd
    exact ⟨t', exec_of_ends ⟨hb, hf⟩ he', ht⟩

/-- Settles O20: the completed state is idle, and the command ends there as it did before. -/
theorem sameCommandTwiceSameResult : Obligations.SameCommandTwiceSameResult := by
  intro s t i hs hi htext hcode hpacked h hf
  have he := ends_of_exec hs hi h
  obtain ⟨u, hu, heq⟩ := he.again hf htext hcode hpacked
  exact ⟨u, exec_of_ends ⟨he.busy, hf⟩ hu, heq⟩

/-- Settles O4. -/
theorem stepRunsTheDecodedCommand : Obligations.StepRunsTheDecodedCommand := by
  intro s w i hw
  have hissue : ∀ (u : State) rest, u.script = .write .csr 0 w.toNat :: rest →
      step u = exec i { u with script := rest } := by
    intro u rest hu
    rw [step_of_script_cons hu, hostEvent_write_cmd, present_of_decode _ hw]
  refine ⟨hissue s, hissue (s.withFetchWord 32 w.toNat) s.script ?_⟩
  rw [State.withFetchWord, Nat.mod_eq_of_lt w.isLt]

/-- Settles O11: register by register. -/
theorem registersReadTheirResetValues : Obligations.RegistersReadTheirResetValues := by
  refine fun p => ⟨fun i hi => ?_, rfl, rfl, rfl, rfl, rfl, rfl, rfl⟩
  rcases Nat.lt_trichotomy i 1 with hlt | rfl | hgt
  · interval_cases i; rfl
  · exact Status.word_reset
  · interval_cases i <;> rfl

/-- Settles O52. -/
theorem statusWordHasEachFieldInItsPlace : Obligations.StatusWordHasEachFieldInItsPlace := by
  refine ⟨⟨rfl, rfl, rfl, rfl, rfl, rfl, rfl, rfl, rfl⟩, fun st => ?_⟩
  obtain ⟨busy, done, fault, resid, desync⟩ := st.word_flags
  obtain ⟨cause, lastop⟩ := st.word_fields
  obtain ⟨r5, r12, r24⟩ := st.word_reserved
  exact ⟨busy, done, fault, resid, desync, r5, cause, r12, lastop, r24⟩

/-- Settles O54. -/
theorem reservedCsrsReadZeroAndIgnoreWrites : Obligations.ReservedCsrsReadZeroAndIgnoreWrites := by
  intro s i v hb hi
  refine ⟨⟨_, hostEvent_read .csr i hb, ?_⟩, ?_, s.status.word_reserved⟩
  · rw [hostRead_csr, csrRead_of_reserved s hi]; rfl
  · rw [hostEvent_write hb (by omega), dataWrite, csrWrite_of_reserved s _ hi]

/-- Settles O55. -/
theorem lengthWritesAreCheckedAgainstTheCapacity : Obligations.LengthWritesAreCheckedAgainstTheCapacity := by
  intro s v hb
  have write {i : Nat} (hi : i ≠ 0) := hostEvent_write_csr v hb hi
  exact ⟨write (by decide), write (by decide), write (by decide), write (by decide)⟩

end Sys2Proof.Machine
end

section
/-! PROOFS of the statements about memory (20_memory.md): which command writes which space, said once for each writer (R74); what
a host read returns and how an element is laid out as one number; which writes are ignored; then the statements. -/

namespace Sys2Proof.Machine

/-! ## Which command writes which space (20_memory.md R74) -/

theorem Scans.unpk_or_unpkl {s : State} {i : Instr} {n : Nat} (h : Scans s i n) : i = .unpk ∨ i = .unpkl := by
  cases h with
  | unpk => exact .inl rfl
  | unpkl _ => exact .inr rfl

namespace Ends

variable {s t : State} {i : Instr} (h : Ends s i t)
include h

/-- Only `LZWD` writes TEXT and the decode-side dictionary. -/
theorem sameText_sameDecoder (hd : i ≠ .lzwd) : SameText s t ∧ SameDecoder s t := by
  cases h with
  | lzwd _ | lzwdFault _ => exact absurd rfl hd
  | _ => exact ⟨⟨rfl, rfl⟩, rfl, rfl, rfl⟩

/-- Only `LZWE` writes the encode-side dictionary. -/
theorem sameEncoder (he : i ≠ .lzwe) : SameEncoder s t := by
  cases h with
  | lzwe _ | lzweFault _ => exact absurd rfl he
  | _ => exact ⟨rfl, rfl, rfl⟩

/-- Only `LZWE`, `UNPK` and `UNPKL` write CODE. -/
theorem sameCode (he : i ≠ .lzwe) (hu : ¬(i = .unpk ∨ i = .unpkl)) : SameCode s t := by
  cases h with
  | lzwe _ | lzweFault _ => exact absurd rfl he
  | scan hn _ | scanFault hn _ => exact absurd hn.unpk_or_unpkl hu
  | bitlenRange _ => exact absurd (.inr rfl) hu
  | _ => exact ⟨rfl, rfl⟩

/-- Only `UNPK` and `UNPKL` write `CAND`. -/
theorem cand (hu : ¬(i = .unpk ∨ i = .unpkl)) : t.cand = s.cand := by
  cases h with
  | scan hn _ | scanFault hn _ => exact absurd hn.unpk_or_unpkl hu
  | bitlenRange _ => exact absurd (.inr rfl) hu
  | _ => rfl

/-- Only `PACK` writes PACKED and `BITLEN`. -/
theorem samePacked_bitLen (hp : i ≠ .pack) : SamePacked s t ∧ t.bitLen = s.bitLen := by
  cases h with
  | pack _ | packFault _ => exact absurd rfl hp
  | _ => exact ⟨⟨rfl, rfl⟩, rfl⟩

/-- Only `HGEN` writes TABLE. -/
theorem table (hg : i ≠ .hgen) : t.table = s.table := by
  cases h with
  | hgen _ | hgenFault _ => exact absurd rfl hg
  | _ => rfl

/-- Only `HBLD` writes FREQ and TREE. -/
theorem freq_sameTree (hb : i ≠ .hbld) : t.freq = s.freq ∧ SameTree s t := by
  cases h with
  | hbld => exact absurd rfl hb
  | _ => exact ⟨rfl, rfl, rfl, rfl⟩

/-- No command touches the parameters or the host's own side. -/
theorem sameOutside : SameOutside s t := by
  cases h <;> exact ⟨rfl, rfl, rfl⟩

/-- A completion leaves `FINFO` and `CAUSE`; only fault entry writes them (10_state.md R38, 60_exceptions.md R173). -/
theorem faultRecordKept : FaultRecordKept s t := by
  cases h with
  | lzweFault _ | lzwdFault _ | hgenFault _ | packFault _ | scanFault _ _ | bitlenRange _ => exact nofun
  | _ => exact fun _ => ⟨rfl, rfl⟩

end Ends

/-! ## An element as one number (30_encoding.md R88, R92) -/

/-- A field of `n` bits below further fields: the low bits are the field, the bits above them the rest. -/
theorem mod_div_of_field {d n : Nat} (hd : d < 2 ^ n) (q : Nat) : (d + 2 ^ n * q) % 2 ^ n = d ∧ (d + 2 ^ n * q) / 2 ^ n = q := by
  constructor
  · rw [Nat.add_mul_mod_self_left, Nat.mod_eq_of_lt hd]
  · rw [Nat.add_mul_div_left _ _ (Nat.two_pow_pos n), Nat.div_eq_of_lt hd, Nat.zero_add]

/-- A number laid out as a node record, `KIND`, `WEIGHT` and `SYM` below the child fields, read field by field
(30_encoding.md R92). -/
theorem fields_of_nodeRecord {kind w sym rest c k : Nat} (hkind : kind < 2) (hw : w < 2 ^ c) (hsym : sym < 2 ^ k) {v : Nat}
    (hv : v = kind + 2 ^ 1 * (w + 2 ^ c * (sym + 2 ^ k * rest))) :
    v % 2 = kind ∧ v / 2 % 2 ^ c = w ∧ v / 2 ^ (1 + c) % 2 ^ k = sym ∧ v / 2 ^ (1 + c + k) = rest := by
  obtain ⟨hkind', habove⟩ := mod_div_of_field (n := 1) hkind (w + 2 ^ c * (sym + 2 ^ k * rest))
  rw [← hv, pow_one] at hkind' habove
  obtain ⟨hw', hw''⟩ := mod_div_of_field hw (sym + 2 ^ k * rest)
  simp only [pow_add, pow_one, ← Nat.div_div_eq_div_mul, habove, hw'']
  exact ⟨hkind', hw', mod_div_of_field hsym rest⟩

theorem Entry.fields_of_value (p : Params) {e : Entry} (he : e.len < 2 ^ p.lenW) :
    e.value p % 2 ^ p.lenW = e.len ∧ e.value p / 2 ^ p.lenW = e.bits := by
  rw [Entry.value, Nat.mul_comm]
  exact mod_div_of_field he e.bits

/-- A leaf's record ends with `SYM`: its child fields are 0. -/
theorem Node.value_leaf (p : Params) (w sym : Nat) :
    (Node.leaf w sym).value p = 0 + 2 ^ 1 * (w + 2 ^ p.cntW * (sym + 2 ^ p.codeW * 0)) := by
  simp only [Node.value]
  ring

/-- An internal node's record has `SYM` 0. -/
theorem Node.value_internal (p : Params) (w l r : Nat) :
    (Node.internal w l r).value p = 1 + 2 ^ 1 * (w + 2 ^ p.cntW * (0 + 2 ^ p.codeW * (l + 2 ^ p.idxW * r))) := by
  simp only [Node.value]
  ring

/-! ## What a host read returns (43_system.md R161) -/

theorem hostSaw_hostRead_of_elementAt {s : State} {sp : Space} {i v : Nat} (h : elementAt s sp i = some v) :
    (hostRead sp i s).hostSaw = some v := by
  rw [hostRead, h]

/-- A read changes only the model's own `hostSaw` and `drawn` (20_memory.md R65; log entries 5, 6). -/
theorem hostRead_eq_self_but (sp : Space) (i : Nat) (s : State) :
    hostRead sp i s = { s with hostSaw := (hostRead sp i s).hostSaw, drawn := (hostRead sp i s).drawn } := by
  obtain ⟨v, d, he⟩ := hostRead_cases sp i s
  rw [he]

section
variable {s : State} {i : Nat}

theorem elementAt_text {b : Byte} (hi : i < s.cfg.textCap) (hb : s.text.get? i = some b) :
    elementAt s .text i = some b.toNat := by
  rw [elementAt, if_pos hi, hb, Option.map_some]

theorem elementAt_code {c : Nat} (hi : i < s.cfg.codeCap) (hc : s.code.get? i = some c) : elementAt s .code i = some c := by
  rw [elementAt, if_pos hi, hc]

theorem elementAt_packed {b : Byte} (hi : i < s.cfg.packedCap) (hb : s.packed.get? i = some b) :
    elementAt s .packed i = some b.toNat := by
  rw [elementAt, if_pos hi, hb, Option.map_some]

theorem elementAt_table (hi : i < 2 ^ s.cfg.codeW) : elementAt s .table i = some ((tableAt s.table i).value s.cfg) := if_pos hi

theorem elementAt_freq (hi : i < 2 ^ s.cfg.codeW) : elementAt s .freq i = some (freqAt s.freq i) := if_pos hi

theorem elementAt_tree {n : Node} (hi : i < s.nodeCount) (hn : s.nodes[i]? = some n) :
    elementAt s .tree i = some (n.value s.cfg) := by
  rw [elementAt, if_pos hi, hn, Option.map_some]

end

/-- `CMD` and the reserved numbers read 0 (10_state.md R36, R44). -/
theorem csrRead_of_cmd_or_reserved (s : State) {i : Nat} (h : i = 0 ∨ 17 ≤ i) : csrRead s i = 0 := by
  rcases h with rfl | h
  · rfl
  · exact csrRead_of_reserved s h

/-! ## Writes that are ignored (20_memory.md R63, 10_state.md R35) -/

/-- `STATUS`, `FINFO` and every register from 7 up are read-only. -/
theorem csrWrite_of_readOnly (s : State) {i : Nat} (v : Word) (h : i = 1 ∨ i = 2 ∨ 7 ≤ i) : csrWrite i v s = s := by
  rcases csrWrite_cases i v s with he | ⟨hi, -⟩ | ⟨hi, -⟩ | ⟨hi, -⟩ | ⟨hi, -⟩
  · exact he
  all_goals omega

theorem dataWrite_of_outOfRange {s : State} {sp : Space} {i : Nat} (v : Nat) (hsp : sp ≠ .csr) (hi : elementCount s.cfg sp ≤ i) :
    dataWrite sp i v s = s := by
  cases sp with
  | csr => exact absurd rfl hsp
  | freq | tree => rfl
  | text | code | packed | table => exact if_neg (Nat.not_lt.2 hi)

/-! ## The statements -/

/-- Settles O5. -/
theorem stepPerformsTheNextAccess : Obligations.StepPerformsTheNextAccess :=
  fun s => ⟨fun _ _ => step_of_script_cons, fun h => by simp only [step, h]⟩

/-- Settles O42. -/
theorem streamBitsAreMostSignificantFirst : Obligations.StreamBitsAreMostSignificantFirst := getElem?_streamBits

/-- Settles O29: neither command is the writer of what it leaves. -/
theorem lzwCommandsLeaveTheRestUnchanged : Obligations.LzwCommandsLeaveTheRestUnchanged := by
  refine ⟨fun s t hs h => ?_, fun s t hs h => ?_⟩
  · have he := ends_of_exec hs (by decide) h
    obtain ⟨htext, hdecoder⟩ := he.sameText_sameDecoder nofun
    obtain ⟨hpacked, hbitLen⟩ := he.samePacked_bitLen nofun
    obtain ⟨hfreq, htree⟩ := he.freq_sameTree nofun
    exact ⟨htext, hpacked, hbitLen, he.table nofun, hfreq, htree, hdecoder, he.cand (by decide), he.sameOutside,
      he.faultRecordKept, he.resid nofun nofun, he.desync nofun⟩
  · have he := ends_of_exec hs (by decide) h
    obtain ⟨hpacked, hbitLen⟩ := he.samePacked_bitLen nofun
    obtain ⟨hfreq, htree⟩ := he.freq_sameTree nofun
    exact ⟨he.sameCode nofun (by decide), hpacked, hbitLen, he.table nofun, hfreq, htree, he.sameEncoder nofun,
      he.cand (by decide), he.sameOutside, he.faultRecordKept, he.resid nofun nofun⟩

/-- Settles O39: neither command is the writer of what it leaves. -/
theorem huffmanCommandsLeaveTheRestUnchanged : Obligations.HuffmanCommandsLeaveTheRestUnchanged := by
  refine ⟨fun s t hs h => ?_, fun s t hs h => ?_⟩
  · have he := ends_of_exec hs (by decide) h
    obtain ⟨htext, hdecoder⟩ := he.sameText_sameDecoder nofun
    obtain ⟨hpacked, hbitLen⟩ := he.samePacked_bitLen nofun
    exact ⟨htext, he.sameCode nofun (by decide), hpacked, hbitLen, he.table nofun, he.sameEncoder nofun, hdecoder,
      he.cand (by decide), he.sameOutside, he.faultRecordKept, he.resid nofun nofun, he.desync nofun⟩
  · have he := ends_of_exec hs (by decide) h
    obtain ⟨htext, hdecoder⟩ := he.sameText_sameDecoder nofun
    obtain ⟨hpacked, hbitLen⟩ := he.samePacked_bitLen nofun
    obtain ⟨hfreq, htree⟩ := he.freq_sameTree nofun
    exact ⟨htext, he.sameCode nofun (by decide), hpacked, hbitLen, hfreq, htree, he.sameEncoder nofun, hdecoder,
      he.cand (by decide), he.sameOutside, he.faultRecordKept, he.resid nofun nofun, he.desync nofun⟩

/-- Settles O50: no command here is the writer of what it leaves. -/
theorem packCommandsLeaveTheRestUnchanged : Obligations.PackCommandsLeaveTheRestUnchanged := by
  refine ⟨fun s t hs h => ?_, fun s t i hs hi h => ?_⟩
  · have he := ends_of_exec hs (by decide) h
    obtain ⟨htext, hdecoder⟩ := he.sameText_sameDecoder nofun
    obtain ⟨hfreq, htree⟩ := he.freq_sameTree nofun
    exact ⟨htext, he.sameCode nofun (by decide), he.table nofun, hfreq, htree, he.sameEncoder nofun, hdecoder,
      he.cand (by decide), he.sameOutside, he.faultRecordKept, he.resid nofun nofun, he.desync nofun⟩
  · have hne {j : Instr} (hu : .unpk ≠ j) (hl : .unpkl ≠ j) : i ≠ j := by
      rcases hi with rfl | rfl <;> assumption
    have he := ends_of_exec hs (hne nofun nofun) h
    obtain ⟨htext, hdecoder⟩ := he.sameText_sameDecoder (hne nofun nofun)
    obtain ⟨hpacked, hbitLen⟩ := he.samePacked_bitLen (hne nofun nofun)
    obtain ⟨hfreq, htree⟩ := he.freq_sameTree (hne nofun nofun)
    exact ⟨htext, hpacked, hbitLen, he.table (hne nofun nofun), hfreq, htree, he.sameEncoder (hne nofun nofun), hdecoder,
      he.sameOutside, he.faultRecordKept, he.desync (hne nofun nofun)⟩

/-- Settles O53: the layouts by their fields, the read by the element it returns. -/
theorem hostReadsChangeNothing : Obligations.HostReadsChangeNothing := by
  refine ⟨fun p e => Entry.fields_of_value p, fun p w sym v hw hsym hv => ?_, fun p w l r v hw hl hv => ?_,
    fun s sp i hb => ⟨hostRead sp i s, hostEvent_read sp i hb, hostRead_eq_self_but sp i s, ?_, ?_, ?_, ?_, ?_, ?_, ?_, ?_⟩⟩
  · exact fields_of_nodeRecord (by decide) hw hsym (hv.trans (Node.value_leaf p w sym))
  · obtain ⟨hkind, hweight, hsym, hrest⟩ :=
      fields_of_nodeRecord (by decide) hw (Nat.two_pow_pos _) (hv.trans (Node.value_internal p w l r))
    obtain ⟨hleft, hright⟩ := mod_div_of_field hl r
    rw [pow_add _ (1 + p.cntW + p.codeW), ← Nat.div_div_eq_div_mul, hrest]
    exact ⟨hkind, hweight, hsym, hleft, hright⟩
  · rintro rfl; rfl
  · rintro rfl
    refine ⟨fun hi => ?_, ?_⟩
    · rw [hostRead_csr, csrRead_of_cmd_or_reserved s hi]; rfl
    · and_intros <;> (rintro rfl; rfl)
  · rintro b rfl hi hb; exact hostSaw_hostRead_of_elementAt (elementAt_text hi hb)
  · rintro c rfl hi hc; exact hostSaw_hostRead_of_elementAt (elementAt_code hi hc)
  · rintro b rfl hi hb; exact hostSaw_hostRead_of_elementAt (elementAt_packed hi hb)
  · rintro rfl hi; exact hostSaw_hostRead_of_elementAt (elementAt_table hi)
  · rintro rfl hi; exact hostSaw_hostRead_of_elementAt (elementAt_freq hi)
  · rintro n rfl hi hn; exact hostSaw_hostRead_of_elementAt (elementAt_tree hi hn)

/-- Settles O58. -/
theorem readOnlyAndOutOfRangeWritesAreIgnored : Obligations.ReadOnlyAndOutOfRangeWritesAreIgnored := by
  intro s sp i v hb h
  have hcmd : ¬(sp = .csr ∧ i = 0) := by
    rintro ⟨rfl, rfl⟩
    simp at h
  have hsame : dataWrite sp i v s = s := by
    rcases h with rfl | rfl | ⟨rfl, hi⟩ | ⟨hsp, hi⟩
    · rfl
    · rfl
    · exact csrWrite_of_readOnly s _ hi
    · exact dataWrite_of_outOfRange v hsp hi
  rw [hostEvent_write hb hcmd, hsame]

end Sys2Proof.Machine
end

section
/-! PROOFS of the statements about the encodings (30_encoding.md): a command word by its two fields; a word that is no command;
TABLE entries; then the statements. -/

namespace Sys2Proof.Machine

/-! ## A command word by its two fields (30_encoding.md R80 to R84) -/

theorem toNat_opField (w : Word) : (opField w).toNat = w.toNat % 2 ^ 8 := by
  simp [opField]

theorem toNat_zeroField (w : Word) : (zeroField w).toNat = w.toNat / 2 ^ 8 := by
  rw [zeroField, BitVec.extractLsb'_toNat, Nat.shiftRight_eq_div_pow, Nat.mod_eq_of_lt]
  have := w.isLt
  omega

/-- A word is its two fields. -/
theorem zeroField_append_opField (w : Word) : zeroField w ++ opField w = w := by
  apply BitVec.eq_of_toNat_eq
  rw [BitVec.toNat_append, toNat_zeroField, toNat_opField, ← Nat.shiftLeft_add_eq_or_of_lt (Nat.mod_lt _ (by decide)),
    Nat.shiftLeft_eq, Nat.div_add_mod']

theorem encodedWordDecodes (i : Instr) : Laws.EncodedWordDecodes.Statement i := by
  cases i with
  | clr => exact Laws.EncodedWordDecodes.clr
  | lzwe => exact Laws.EncodedWordDecodes.lzwe
  | lzwd => exact Laws.EncodedWordDecodes.lzwd
  | hbld => exact Laws.EncodedWordDecodes.hbld
  | hgen => exact Laws.EncodedWordDecodes.hgen
  | pack => exact Laws.EncodedWordDecodes.pack
  | unpk => exact Laws.EncodedWordDecodes.unpk
  | unpkl => exact Laws.EncodedWordDecodes.unpkl

/-- What the decoder makes of an opcode: one of the eight, or reserved (30_encoding.md R82, R84). -/
theorem decodeOp_cases (op : BitVec 8) :
    (∃ i, op = opcode i ∧ decodeOp op = .ok i) ∨ (8 ≤ op.toNat ∧ decodeOp op = .error .reservedOpcode) := by
  unfold decodeOp
  split
  · next h => exact .inl ⟨.clr, BitVec.eq_of_toNat_eq h, rfl⟩
  · next h => exact .inl ⟨.lzwe, BitVec.eq_of_toNat_eq h, rfl⟩
  · next h => exact .inl ⟨.lzwd, BitVec.eq_of_toNat_eq h, rfl⟩
  · next h => exact .inl ⟨.hbld, BitVec.eq_of_toNat_eq h, rfl⟩
  · next h => exact .inl ⟨.hgen, BitVec.eq_of_toNat_eq h, rfl⟩
  · next h => exact .inl ⟨.pack, BitVec.eq_of_toNat_eq h, rfl⟩
  · next h => exact .inl ⟨.unpk, BitVec.eq_of_toNat_eq h, rfl⟩
  · next h => exact .inl ⟨.unpkl, BitVec.eq_of_toNat_eq h, rfl⟩
  · exact .inr ⟨by grind, rfl⟩

/-- What the decoder makes of a word: the command it encodes, or a rejection of a word that is 8 or more. -/
theorem decode_cases (w : Word) :
    (∃ i, w = encode i ∧ decode w = .ok i) ∨ (8 ≤ w.toNat ∧ ∃ e, decode w = .error e) := by
  by_cases hz : zeroField w = 0
  · have hw : decode w = decodeOp (opField w) := if_pos hz
    rw [hw]
    rcases decodeOp_cases (opField w) with ⟨i, hop, hd⟩ | ⟨hge, hd⟩
    · refine .inl ⟨i, ?_, hd⟩
      rw [← zeroField_append_opField w, hz, hop]
      rfl
    · rw [toNat_opField] at hge
      exact .inr ⟨Nat.le_trans hge (Nat.mod_le _ _), _, hd⟩
  · have hne : (zeroField w).toNat ≠ 0 := fun h => hz (BitVec.eq_of_toNat_eq h)
    rw [toNat_zeroField] at hne
    exact .inr ⟨by omega, _, if_neg hz⟩

theorem decode_encode (i : Instr) : decode (encode i) = .ok i := by
  obtain ⟨-, -, -, hd⟩ := encodedWordDecodes i
  exact hd

theorem toNat_encode_lt (i : Instr) : (encode i).toNat < 8 := by
  cases i <;> decide

/-- A word decodes to a command exactly when it is that command's word. -/
theorem decode_eq_ok_iff {w : Word} {i : Instr} : decode w = .ok i ↔ w = encode i := by
  constructor
  · intro h
    rcases decode_cases w with ⟨j, hw, hd⟩ | ⟨-, e, hd⟩
    · cases h.symm.trans hd
      exact hw
    · cases h.symm.trans hd
  · rintro rfl
    exact decode_encode i

/-- The illegal words are the numbers from 8 up. -/
theorem decode_eq_error_iff {w : Word} : (∃ e, decode w = .error e) ↔ 8 ≤ w.toNat := by
  rcases decode_cases w with ⟨i, rfl, hd⟩ | ⟨hge, he⟩
  · have hlt := toNat_encode_lt i
    rw [hd]
    exact ⟨nofun, fun hge => absurd hge (by omega)⟩
  · exact iff_of_true he hge

/-- A low byte of 8 or more, or a bit set above it (30_encoding.md R83): the number is 8 or more. -/
theorem illegal_iff_le_toNat (w : Word) : (8 ≤ w.toNat % 2 ^ 8 ∨ w.toNat / 2 ^ 8 ≠ 0) ↔ 8 ≤ w.toNat := by
  omega

/-! ## A word that is no command -/

theorem present_of_decode_error {w : Word} (s : State) (h : ∃ e, decode w = .error e) : present w s = illegalCommand w s := by
  obtain ⟨e, he⟩ := h
  simp only [present, he]

theorem illegalCommand_of_idle {s : State} (hs : Idle s) (w : Word) :
    illegalCommand w s = .next (raise ⟨.illegalCmd, w.toNat⟩ (accept (BitVec.ofNat 8 w.toNat) s)) := by
  obtain ⟨hb, hf⟩ := hs
  rw [illegalCommand, command_of_idle hb hf, BitVec.ofNat_toNat]

/-! ## TABLE entries (30_encoding.md R88) -/

/-- The number laid out from `LEN` and `BITS` holds them again. -/
theorem Entry.ofValue_value {p : Params} {e : Entry} (hl : e.len < 2 ^ p.lenW) (hb : e.bits < 2 ^ p.maxLen) :
    Entry.ofValue p (e.value p) = e := by
  obtain ⟨hlen, hbits⟩ := Entry.fields_of_value p hl
  rw [Entry.ofValue, hlen, hbits, Nat.mod_eq_of_lt hb]

/-- A written TABLE entry whose fields fit is stored by the rule of 30_encoding.md R88. -/
theorem hostEvent_write_entry {s : State} {c : Nat} {e : Entry} (hb : s.status.busy = false) (hc : c < 2 ^ s.cfg.codeW)
    (hl : e.len < 2 ^ s.cfg.lenW) (he : e.bits < 2 ^ s.cfg.maxLen) :
    hostEvent (.write .table c (e.value s.cfg)) s = .next { s with table := storeEntry s.cfg s.table c e } := by
  rw [hostEvent_write (sp := .table) hb (fun h => nomatch h.1), dataWrite, if_pos hc, Entry.ofValue_value hl he]

/-- What TABLE reads as after a write of an entry of at most `MAXLEN` bits. -/
theorem tableAt_storeEntry {p : Params} {t : Memory Entry} {e : Entry} (ht : Memory.wf t) (he : e.len ≤ p.maxLen)
    (c d : Nat) :
    tableAt (storeEntry p t c e) d = if d = c then { len := e.len, bits := e.bits % 2 ^ e.len } else tableAt t d := by
  rw [storeEntry, if_pos he]
  split
  · next h =>
    subst h
    refine tableAt_tableSet_same ht d _ fun h0 => ?_
    simp only at h0
    simp only [h0, pow_zero, Nat.mod_one]
  · next h => exact tableAt_tableSet_other t _ h

/-! ## The statements on words, entries and the packed buffer -/

/-- Settles O2. -/
theorem decodeAndEncodeAgree : Obligations.DecodeAndEncodeAgree := fun _ _ _ => decode_eq_ok_iff

/-- Settles O3. -/
theorem decodeRejectsExactlyTheIllegalWords : Obligations.DecodeRejectsExactlyTheIllegalWords :=
  fun w => decode_eq_error_iff.trans (illegal_iff_le_toNat w).symm

/-- Settles O1: the eight words are those of the commands. -/
theorem eightWordsDecodeAndThreeAreIllegal : Obligations.EightWordsDecodeAndThreeAreIllegal :=
  ⟨decode_encode .clr, decode_encode .lzwe, decode_encode .lzwd, decode_encode .hbld, decode_encode .hgen,
    decode_encode .pack, decode_encode .unpk, decode_encode .unpkl, by decide, by decide, by decide⟩

/-- Settles O6: fault entry on the accepted word. -/
theorem illegalWordRaisesIllegalCmd : Obligations.IllegalWordRaisesIllegalCmd := by
  intro s w hs hw
  have hd := decode_eq_error_iff.2 ((illegal_iff_le_toNat w).1 hw)
  refine ⟨_, (hostEvent_write_cmd w s).trans ((present_of_decode_error s hd).trans (illegalCommand_of_idle hs w)),
    faultedWith_raise rfl, rfl, rfl, ?_⟩
  simp only [raise, accept, BitVec.ofNat_toNat, BitVec.setWidth_eq]

/-- Settles O51. -/
theorem entryAndBitstringAreOneToOne : Obligations.EntryAndBitstringAreOneToOne := by
  refine ⟨fun bs => ⟨Entry.toBits_ofBits bs, Entry.bits_ofBits_lt bs⟩, fun e => Entry.ofBits_toBits, fun e i hi => ?_⟩
  rw [Entry.toBits, List.getElem?_map, List.getElem?_range hi, Option.map_some]

/-- Settles O56. -/
theorem tableWritesClearTheBitsAboveLen : Obligations.TableWritesClearTheBitsAboveLen := by
  intro s c len bits hb ht hc hl hbits
  have hwrite := hostEvent_write_entry (e := { len := len, bits := bits }) hb hc hl hbits
  unfold Entry.value at hwrite
  refine ⟨fun hgt => ?_, fun hle => ⟨_, hwrite, rfl, ?_, fun d hd => ?_⟩⟩
  · rw [hwrite, storeEntry, if_neg (Nat.not_le.2 hgt)]
  · rw [tableAt_storeEntry ht hle, if_pos rfl]
  · rw [tableAt_storeEntry ht hle, if_neg hd]

/-- Settles O40: the loop ends with the concatenated entries, and PACKED is filled with their bytes. -/
theorem packWritesTheConcatenatedBits : Obligations.PackWritesTheConcatenatedBits := by
  intro s ks hs hcode hcap hk hfit
  have hlen := length_bitsOfCodes s.table ks
  have hrun : packRun s.cfg s.table s.codeSource = .ok (bitsOfCodes s.table ks) := by
    rw [codeSource_of_begins hcode]
    exact packLoop_ok 0 hk (by rw [List.length_nil]; omega)
  have hbitLen : (BitVec.ofNat 32 (bitsOfCodes s.table ks).length).toNat = (bitsOfCodes s.table ks).length := by
    rw [BitVec.toNat_ofNat, Nat.mod_eq_of_lt]; omega
  have hpackedLen : (BitVec.ofNat 32 (bytesFor (bitsOfCodes s.table ks).length)).toNat =
      bytesFor (bitsOfCodes s.table ks).length := by
    rw [BitVec.toNat_ofNat, Nat.mod_eq_of_lt]; unfold bytesFor; omega
  refine ⟨_, (exec_pack_of_idle hs).trans (packBody_of_ok hrun), completed_complete rfl hs.2, ?_, ?_, fun j hj => ?_,
    fun j hj => ?_⟩
  · exact hbitLen.trans hlen
  · exact hpackedLen.trans (congrArg bytesFor hbitLen.symm)
  · simp only [complete_packedLen, packStore_packedLen, hpackedLen] at hj
    refine ⟨packedByte (bitsOfCodes s.table ks) j, ?_, fun p => getLsbD_packedByte _ j p⟩
    rw [complete_packed, packStore_packed, Memory.get?_ofList, packedBytes, List.getElem?_map, List.getElem?_range hj,
      Option.map_some]
  · simp only [complete_packedLen, packStore_packedLen, hpackedLen] at hj
    rw [complete_packed, packStore_packed, Memory.get?_ofList, List.getElem?_eq_none]
    rwa [length_packedBytes]

end Sys2Proof.Machine
end

section
/-! PROOFS of the statement about the lines of a host script (30_encoding.md R94, R95): one rule for each kind of line. -/

namespace Sys2Proof.Machine

/-! ## An element written to a buffer -/

section
variable {s : State} {i : Nat}

theorem dataWrite_text (hi : i < s.cfg.textCap) (m : Memory Byte) (b : Byte) :
    dataWrite .text i b.toNat { s with text := m } = { s with text := m.set i b } := by
  rw [dataWrite, if_pos hi, BitVec.ofNat_toNat, BitVec.setWidth_eq]

theorem dataWrite_code (hi : i < s.cfg.codeCap) (m : Memory Nat) {k : Nat} (hk : k < 2 ^ s.cfg.codeW) :
    dataWrite .code i k { s with code := m } = { s with code := m.set i k } := by
  rw [dataWrite, if_pos hi, Nat.mod_eq_of_lt hk]

theorem dataWrite_packed (hi : i < s.cfg.packedCap) (m : Memory Byte) (b : Byte) :
    dataWrite .packed i b.toNat { s with packed := m } = { s with packed := m.set i b } := by
  rw [dataWrite, if_pos hi, BitVec.ofNat_toNat, BitVec.setWidth_eq]

end

/-! ## A line that loads a buffer -/

theorem runLines_singleton (l : Line) (s : State) : runLines [l] s = runLine l s := andThen_pure (runLine l s)

/-- A load of a source: its elements, then the length register; the elements past it stay. `σ` is the state as a function of
the loaded memory, `enc` the number that is written for an element. -/
theorem runSteps_loadRun {α : Type} {σ : Memory α → State} {enc : α → Nat} {sp : Space} {lenReg : Nat} {l : List α}
    (hsp : sp ≠ .csr) (hreg : lenReg ≠ 0) (hb : ∀ m, (σ m).status.busy = false) (hl : l.length < 2 ^ 32)
    (hwrite : ∀ m i, i < l.length → ∀ a ∈ l, dataWrite sp i (enc a) (σ m) = σ (m.set i a))
    (es : List HostEvent) (m : Memory α) :
    ∃ m', runSteps (loadRun sp lenReg (l.map enc)).length { σ m with script := loadRun sp lenReg (l.map enc) ++ es } =
        .next { csrWrite lenReg (BitVec.ofNat 32 l.length) (σ m') with script := es } ∧
      m'.Begins (BitVec.ofNat 32 l.length) l ∧ ∀ j, l.length ≤ j → m'.get? j = m.get? j := by
  obtain ⟨m', hrun, hget⟩ := runSteps_writes hsp hb (.write .csr lenReg l.length :: es) 1 l 0 m (Nat.zero_add _).le hwrite
  have hlen : (BitVec.ofNat 32 l.length).toNat = l.length := by rw [BitVec.toNat_ofNat, Nat.mod_eq_of_lt hl]
  refine ⟨m', ?_, ⟨hlen, fun i hi => ?_⟩, fun j hj => ?_⟩
  · rw [runSteps_write (s := σ m') es 0 (hb m') fun h => hreg h.2, runSteps_zero, dataWrite] at hrun
    rw [← hrun]
    simp only [loadRun, List.length_append, List.length_map, List.length_zipIdx, List.length_singleton, List.append_assoc,
      List.singleton_append]
  · rw [hget, if_pos (by omega), Nat.sub_zero]
  · rw [hget, if_neg (by omega)]

section
variable {s : State} (hb : s.status.busy = false)
include hb

theorem runLines_loadText {bytes : List Byte} (hcap : s.cfg.textCap < 2 ^ 32) (hl : bytes.length ≤ s.cfg.textCap) :
    ∃ m, runLines [.loadText bytes] s = .next { s with text := m, textLen := BitVec.ofNat 32 bytes.length } ∧
      m.Begins (BitVec.ofNat 32 bytes.length) bytes ∧ ∀ j, bytes.length ≤ j → m.get? j = s.text.get? j := by
  obtain ⟨m, hrun, hbegins, hpast⟩ := runSteps_loadRun (σ := fun m => { s with text := m }) (enc := BitVec.toNat) (sp := .text)
    (lenReg := 3) nofun nofun (fun _ => hb) (Nat.lt_of_le_of_lt hl hcap)
    (fun m _ hi b _ => dataWrite_text (Nat.lt_of_lt_of_le hi hl) m b) s.script s.text
  refine ⟨m, (runLines_singleton _ s).trans (hrun.trans ?_), hbegins, hpast⟩
  rw [csrWrite, if_pos (hbegins.1.trans_le hl)]

theorem runLines_loadCode {ks : List Nat} (hcap : s.cfg.codeCap < 2 ^ 32) (hl : ks.length ≤ s.cfg.codeCap)
    (hk : ∀ k ∈ ks, k < 2 ^ s.cfg.codeW) :
    ∃ m, runLines [.loadCode ks] s = .next { s with code := m, codeLen := BitVec.ofNat 32 ks.length } ∧
      m.Begins (BitVec.ofNat 32 ks.length) ks ∧ ∀ j, ks.length ≤ j → m.get? j = s.code.get? j := by
  obtain ⟨m, hrun, hbegins, hpast⟩ := runSteps_loadRun (σ := fun m => { s with code := m }) (enc := id) (sp := .code)
    (lenReg := 4) nofun nofun (fun _ => hb) (Nat.lt_of_le_of_lt hl hcap)
    (fun m _ hi k hmem => dataWrite_code (Nat.lt_of_lt_of_le hi hl) m (hk k hmem)) s.script s.code
  rw [List.map_id] at hrun
  refine ⟨m, (runLines_singleton _ s).trans (hrun.trans ?_), hbegins, hpast⟩
  rw [csrWrite, if_pos (hbegins.1.trans_le hl)]

theorem runLines_loadPacked {bytes : List Byte} (hcap : s.cfg.packedCap < 2 ^ 32) (hl : bytes.length ≤ s.cfg.packedCap) :
    ∃ m, runLines [.loadPacked bytes] s = .next { s with packed := m, packedLen := BitVec.ofNat 32 bytes.length } ∧
      m.Begins (BitVec.ofNat 32 bytes.length) bytes ∧ ∀ j, bytes.length ≤ j → m.get? j = s.packed.get? j := by
  obtain ⟨m, hrun, hbegins, hpast⟩ := runSteps_loadRun (σ := fun m => { s with packed := m }) (enc := BitVec.toNat) (sp := .packed)
    (lenReg := 5) nofun nofun (fun _ => hb) (Nat.lt_of_le_of_lt hl hcap)
    (fun m _ hi b _ => dataWrite_packed (Nat.lt_of_lt_of_le hi hl) m b) s.script s.packed
  refine ⟨m, (runLines_singleton _ s).trans (hrun.trans ?_), hbegins, hpast⟩
  rw [csrWrite, if_pos (hbegins.1.trans_le hl)]

end

/-! ## The lines that write TABLE -/

/-- The present entries `LOAD TABLE` makes absent, as entries of no bits. -/
def unlisted (t : Memory Entry) (l : List (Nat × List Bool)) : List (Nat × List Bool) :=
  (t.filter fun x => decide (x.1 ∉ l.map Prod.fst)).map fun x => (x.1, [])

theorem events_loadTable (s : State) (l : List (Nat × List Bool)) :
    (Line.loadTable l).events s = (unlisted s.table l ++ l).flatMap fun x => writeEntry s.cfg x.1 x.2 := by
  rw [List.flatMap_append, unlisted, List.flatMap_map]
  rfl

theorem mem_unlisted {t : Memory Entry} {l : List (Nat × List Bool)} {x : Nat × List Bool} (h : x ∈ unlisted t l) :
    (∃ e, (x.1, e) ∈ t) ∧ x.1 ∉ l.map Prod.fst ∧ x.2 = [] := by
  obtain ⟨y, hy, rfl⟩ := List.mem_map.1 h
  obtain ⟨hmem, hnot⟩ := List.mem_filter.1 hy
  exact ⟨⟨y.2, hmem⟩, of_decide_eq_true hnot, rfl⟩

theorem mem_unlisted_of_mem {t : Memory Entry} {l : List (Nat × List Bool)} {c : Nat} {e : Entry} (h : (c, e) ∈ t)
    (hc : c ∉ l.map Prod.fst) : (c, []) ∈ unlisted t l :=
  List.mem_map.2 ⟨(c, e), List.mem_filter.2 ⟨h, decide_eq_true hc⟩, rfl⟩

theorem not_mem_keys_unlisted_append {t : Memory Entry} {l : List (Nat × List Bool)} {c : Nat} (hu : (c, []) ∉ unlisted t l)
    (hc : c ∉ l.map Prod.fst) : c ∉ (unlisted t l ++ l).map Prod.fst := by
  rw [List.map_append, List.mem_append, not_or]
  refine ⟨fun h => ?_, hc⟩
  obtain ⟨⟨d, bits⟩, hx, rfl⟩ := List.mem_map.1 h
  obtain ⟨-, -, rfl⟩ := mem_unlisted hx
  exact hu hx

/-- The codes `LOAD TABLE` writes are different. -/
theorem nodup_unlisted_append {t : Memory Entry} {l : List (Nat × List Bool)} (ht : Memory.wf t)
    (hl : (l.map Prod.fst).Nodup) :
    ((unlisted t l ++ l).map Prod.fst).Nodup := by
  rw [List.map_append]
  refine List.Nodup.append ?_ hl fun c hc => ?_
  · rw [unlisted, List.map_map]
    exact List.pairwise_map.2 ((ht.filter _).imp Nat.ne_of_lt)
  · obtain ⟨x, hx, rfl⟩ := List.mem_map.1 hc
    obtain ⟨-, hnot, -⟩ := mem_unlisted hx
    exact hnot

theorem runLines_loadTable {s : State} {l : List (Nat × List Bool)} (hb : s.status.busy = false)
    (hr : ∀ x ∈ s.table, x.1 < 2 ^ s.cfg.codeW) (hl : ∀ x ∈ l, x.1 < 2 ^ s.cfg.codeW ∧ x.2.length ≤ s.cfg.maxLen) :
    runLines [.loadTable l] s = .next { s with
      table := (unlisted s.table l ++ l).foldl (fun t x => tableSet t x.1 (Entry.ofBits x.2)) s.table } := by
  rw [runLines_singleton, runLine, events_loadTable]
  refine runSteps_writeEntries s.script 0 (unlisted s.table l ++ l) s hb fun x hx => ?_
  rcases List.mem_append.1 hx with hx | hx
  · obtain ⟨⟨e, he⟩, -, hnil⟩ := mem_unlisted hx
    rw [hnil]
    exact ⟨hr _ he, Nat.zero_le _⟩
  · exact hl x hx

/-- `WR TABLE` of a bitstring longer than `MAXLEN` changes nothing (30_encoding.md R88; log entry 17). -/
theorem runLines_wrTable_of_tooLong {s : State} (c : Nat) {bits : List Bool} (hb : s.status.busy = false)
    (hl : s.cfg.maxLen < bits.length) : runLines [.wrTable c bits] s = .next s := by
  rw [runLines_singleton]
  rcases Nat.lt_or_ge c (2 ^ s.cfg.codeW) with hc | hc
  · have hrun := runSteps_writeEntry (bits := bits) s.script 0 hb hc
    rw [if_neg (Nat.not_le.2 hl)] at hrun
    exact hrun
  · have hignored := dataWrite_of_outOfRange (s := s) (sp := .table) ((Entry.ofBits bits).value s.cfg) nofun hc
    simp only [runLine, Line.events, writeEntry]
    split
    · refine (runSteps_write (sp := .table) s.script 0 hb fun h => nomatch h.1).trans ?_
      rw [hignored, runSteps_zero]
    · rfl

/-! ## The lines that issue several commands (30_encoding.md R95) -/

/-- Commands one after another. -/
def execAll : List Instr → State → Result
  | [], s => .next s
  | i :: is, s => andThen (exec i s) (execAll is)

/-- A run of command issues is the commands in order, each on the state the one before it left. -/
theorem runSteps_issues (is : List Instr) (s : State) :
    runSteps (is.map issue).length { s with script := is.map issue ++ s.script } = execAll is s := by
  induction is generalizing s with
  | nil => rfl
  | cons i is ih =>
    rw [List.map_cons, List.length_cons, List.cons_append, runSteps_issue, execAll]
    cases he : exec i s with
    | next t => rw [andThen_next, andThen_next, ← ih t, exec_script he]
    | fault e => rfl
    | refused e => rfl

theorem runLines_issues {l : Line} {is : List Instr} (s : State) (hl : l.events s = is.map issue) :
    runLines [l] s = execAll is s := by
  rw [runLines_singleton, runLine, hl, runSteps_issues]

/-! ## The statement -/

/-- Settles O60, line by line. -/
theorem hostScriptLinesActAsGiven : Obligations.HostScriptLinesActAsGiven := by
  refine ⟨fun s bytes hb hcap hl => ?_, fun s ks hb hcap hl hk => ?_, fun s bytes hb hcap hl => ?_,
    fun s l hb ht hr hn hl => ?_, fun s c bits hb hl => runLines_wrTable_of_tooLong c hb hl, fun s => ⟨?_, ?_, ?_⟩⟩
  · obtain ⟨m, hrun, hbegins, hpast⟩ := runLines_loadText hb hcap hl
    exact ⟨_, hrun, rfl, hbegins, hpast⟩
  · obtain ⟨m, hrun, hbegins, hpast⟩ := runLines_loadCode hb hcap hl hk
    exact ⟨_, hrun, rfl, hbegins, hpast⟩
  · obtain ⟨m, hrun, hbegins, hpast⟩ := runLines_loadPacked hb hcap hl
    exact ⟨_, hrun, rfl, hbegins, hpast⟩
  · obtain ⟨hlisted, hother, -⟩ := tableAt_foldl_tableSet (unlisted s.table l ++ l) ht (nodup_unlisted_append ht hn)
    refine ⟨_, runLines_loadTable hb hr hl, rfl, fun x hx => hlisted x (List.mem_append_right _ hx), fun c hc => ?_⟩
    by_cases hold : (c, []) ∈ unlisted s.table l
    · exact congrArg Entry.len (hlisted _ (List.mem_append_left _ hold))
    · have hkeep := hother c (not_mem_keys_unlisted_append hold hc)
      have habsent : s.table.get? c = none := Memory.get?_eq_none_of_not_mem fun x hx hxc =>
        hold (hxc ▸ mem_unlisted_of_mem hx (hxc ▸ hc))
      refine (congrArg Entry.len hkeep).trans ?_
      rw [tableAt, habsent, Option.getD_none]
  · exact (runLines_issues (is := [.lzwe, .hbld, .hgen, .pack]) s rfl).trans
      (by simp only [execAll, andThen_pure, andThen_assoc])
  · exact (runLines_issues (is := [.unpk, .lzwd]) s rfl).trans (by simp only [execAll, andThen_pure])
  · exact (runLines_issues (is := [.unpkl, .lzwd]) s rfl).trans (by simp only [execAll, andThen_pure])

end Sys2Proof.Machine
end

section
/-! PROOFS of the statements about the dictionary coder (40_lzw.md): the runs of `LZWE` and `LZWD` that complete and those that
raise, against the reference; what the encode-side dictionary keeps; then the statements. -/

namespace Sys2Proof.Machine

/-- A loop that comes through its first `i` elements raises what the next one raises. -/
theorem forEach_error_of_take {α σ : Type} {body : Nat → α → σ → Except Raise σ} {xs : List α} {n i : Nat} {r q : σ}
    {e : Raise} (hi : i < xs.length) (hpre : forEach body n (xs.take i) r = .ok q) (hx : body (n + i) xs[i] q = .error e) :
    forEach body n xs r = .error e := by
  have hsplit : xs = xs.take i ++ xs[i] :: xs.drop (i + 1) := by
    rw [← List.drop_eq_getElem_cons, List.take_append_drop]
  have hlen : (xs.take i).length = i := List.length_take_of_le (Nat.le_of_lt hi)
  rw [hsplit, forEach_append, hpre]
  simp only [forEach_cons, hlen, hx]

/-! ## Runs and commands -/

/-- The length register of a list that fits a buffer reads as its length. -/
theorem toNat_ofNat_length {α : Type} {l : List α} {cap : Nat} (hl : l.length ≤ cap) (hcap : cap < 2 ^ 32) :
    (BitVec.ofNat 32 l.length).toNat = l.length := by
  rw [BitVec.toNat_ofNat, Nat.mod_eq_of_lt (by omega)]

section
variable {s t : State}

theorem exec_lzwe_of_ok {bs : List Byte} {r : LzweRegs} (hs : Idle s) (hsrc : s.text.Begins s.textLen bs)
    (h : lzweRun s.cfg bs = .ok r) :
    exec .lzwe s = .next (complete (lzweStore r ((accept 1 s).draw s.textLen.toNat))) :=
  exec_of_ends hs (.lzwe (by rw [textSource_accept, textSource_of_begins hsrc]; exact h))

theorem exec_lzwe_of_error {bs : List Byte} {e : Raise} (hs : Idle s) (hsrc : s.text.Begins s.textLen bs)
    (h : lzweRun s.cfg bs = .error e) : ∃ t, exec .lzwe s = .next t ∧ FaultedWith 1 e.cause e.info t :=
  ⟨_, exec_of_ends hs (.lzweFault (by rw [textSource_accept, textSource_of_begins hsrc]; exact h)), faultedWith_raise rfl⟩

theorem exec_lzwd_of_ok {ks : List Nat} {r : LzwdRegs} (hs : Idle s) (hsrc : s.code.Begins s.codeLen ks)
    (h : lzwdRun s.cfg s.wD ks = .ok r) :
    exec .lzwd s = .next (complete (lzwdStore r ((accept 2 s).draw s.codeLen.toNat))) :=
  exec_of_ends hs (.lzwd (by rw [codeSource_accept, codeSource_of_begins hsrc]; exact h))

theorem exec_lzwd_of_error {ks : List Nat} {e : Raise} (hs : Idle s) (hsrc : s.code.Begins s.codeLen ks)
    (h : lzwdRun s.cfg s.wD ks = .error e) : ∃ t, exec .lzwd s = .next t ∧ FaultedWith 2 e.cause e.info t :=
  ⟨_, exec_of_ends hs (.lzwdFault (by rw [codeSource_accept, codeSource_of_begins hsrc]; exact h)), faultedWith_raise rfl⟩

/-- An `LZWE` that answers without a fault stored the registers of a run that came through. -/
theorem lzweRun_of_exec (hs : Idle s) (h : exec .lzwe s = .next t) (hf : t.status.fault = false) :
    ∃ r, lzweRun s.cfg s.textSource = .ok r ∧ t = complete (lzweStore r ((accept 1 s).draw s.textLen.toNat)) := by
  cases ends_of_exec hs (by decide) h with
  | lzwe hr => exact ⟨_, hr, rfl⟩
  | lzweFault _ => cases hf
  | scan hn _ | scanFault hn _ => cases hn

/-- An `LZWD` that answers without a fault stored the registers of a run that came through. -/
theorem lzwdRun_of_exec (hs : Idle s) (h : exec .lzwd s = .next t) (hf : t.status.fault = false) :
    ∃ r, lzwdRun s.cfg s.wD s.codeSource = .ok r ∧ t = complete (lzwdStore r ((accept 2 s).draw s.codeLen.toNat)) := by
  cases ends_of_exec hs (by decide) h with
  | lzwd hr => exact ⟨_, hr, rfl⟩
  | lzwdFault _ => cases hf
  | scan hn _ | scanFault hn _ => cases hn

end

/-! ## Where `LZWE` raises (40_lzw.md R101) -/

section
variable {p : Params} {bs : List Byte}

/-- A code is due and CODE is full. -/
theorem lzweByte_of_codeFull {i : Nat} {c : Byte} {r : LzweRegs} (hk : dictCode r.dict (r.w ++ [c]) = none)
    (ho : r.out.length = p.codeCap) : lzweByte p i c r = .error ⟨.outOverflow, i⟩ := by
  simp [lzweByte, hk, ho]

/-- A code is due and fits, and the dictionary is full. -/
theorem lzweByte_of_dictFull {i : Nat} {c : Byte} {r : LzweRegs} (hk : dictCode r.dict (r.w ++ [c]) = none)
    (ho : r.out.length < p.codeCap) (hn : r.next = 2 ^ p.codeW) : lzweByte p i c r = .error ⟨.dictFull, i⟩ := by
  simp [lzweByte, hk, Nat.ne_of_lt ho, hn]

/-- The loop of `LZWE` on a text all of whose codes but the last fit: the last code is the one still to be flushed, and a
further byte that extends the match makes no code more. -/
theorem lzweLoop_before_flush (hne : bs ≠ []) (hcap : (Reference.lzwEncode bs).length ≤ p.codeCap + 1)
    (hdict : 256 + ((Reference.lzwEncode bs).length - 1) ≤ 2 ^ p.codeW) :
    ∃ q, forEach (lzweByte p) 0 bs lzweStart = .ok q ∧ q.w ≠ [] ∧ (Reference.lzwEncode bs).length = q.out.length + 1 ∧
      q.next = 256 + q.out.length ∧
      ∀ c, (dictCode q.dict (q.w ++ [c])).isSome = true →
        (Reference.lzwEncode (bs ++ [c])).length = (Reference.lzwEncode bs).length := by
  obtain ⟨q, added, w, hloop, hq, hrest, -, hnext, hw⟩ := lzweLoop_ok (p := p) (bs := bs) 0 encoderHolds_start
    (by simpa [lzweStart, Reference.lzwEncode] using hcap) (by simpa [lzweStart, Reference.lzwEncode] using hdict)
  simp only [lzweStart, List.length_nil, List.drop_zero, Nat.sub_zero] at hrest hnext
  have hwne : w ≠ [] := fun h => hne (hw h).2
  have hlen : (Reference.lzwEncode bs).length = q.out.length + 1 := by
    have h := hrest []
    rw [List.append_nil, Reference.encodeFrom, if_neg hwne] at h
    rw [Reference.lzwEncode, h, List.length_append, List.length_singleton]
  refine ⟨q, hloop, by rwa [hq.str], hlen, hnext, fun c hc => ?_⟩
  have hknown : Reference.known added (w ++ [c]) = true := by
    rw [hq.str, hq.dict] at hc
    by_contra hk
    simp [hk] at hc
  have h := hrest [c]
  rw [Reference.encodeFrom, if_pos hknown, Reference.encodeFrom, if_neg (by simp)] at h
  rw [hlen, Reference.lzwEncode, h, List.length_append, List.length_singleton]

/-- The loop of `LZWE` up to a byte that emits a code. -/
theorem lzweLoop_before_emission {i : Nat} (h1 : 1 ≤ i) (hi : i < bs.length)
    (hemit : (Reference.lzwEncode (bs.take (i + 1))).length = (Reference.lzwEncode (bs.take i)).length + 1)
    (hcap : (Reference.lzwEncode (bs.take i)).length ≤ p.codeCap + 1)
    (hdict : 256 + ((Reference.lzwEncode (bs.take i)).length - 1) ≤ 2 ^ p.codeW) :
    ∃ q, forEach (lzweByte p) 0 (bs.take i) lzweStart = .ok q ∧
      (Reference.lzwEncode (bs.take i)).length = q.out.length + 1 ∧ q.next = 256 + q.out.length ∧
      dictCode q.dict (q.w ++ [bs[i]]) = none := by
  have hne : bs.take i ≠ [] := List.ne_nil_of_length_pos (by rw [List.length_take]; omega)
  obtain ⟨q, hloop, -, hlen, hnext, hext⟩ := lzweLoop_before_flush hne hcap hdict
  refine ⟨q, hloop, hlen, hnext, ?_⟩
  by_contra hk
  have h := hext bs[i] (Option.isSome_iff_ne_none.2 hk)
  rw [List.take_append_getElem hi] at h
  omega

theorem lzweRun_of_loop_error {e : Raise} (h : forEach (lzweByte p) 0 bs lzweStart = .error e) : lzweRun p bs = .error e := by
  simp only [lzweRun, h]

theorem lzweRun_overflows_at_byte {i : Nat} (h1 : 1 ≤ i) (hi : i < bs.length)
    (hemit : (Reference.lzwEncode (bs.take (i + 1))).length = (Reference.lzwEncode (bs.take i)).length + 1)
    (hfull : (Reference.lzwEncode (bs.take i)).length = p.codeCap + 1) (hdict : 256 + p.codeCap ≤ 2 ^ p.codeW) :
    lzweRun p bs = .error ⟨.outOverflow, i⟩ := by
  obtain ⟨q, hloop, hlen, -, hk⟩ := lzweLoop_before_emission (p := p) h1 hi hemit (by omega) (by omega)
  refine lzweRun_of_loop_error (forEach_error_of_take hi hloop ?_)
  rw [Nat.zero_add]
  exact lzweByte_of_codeFull hk (by omega)

theorem lzweRun_fills_dictionary_at_byte (h256 : 256 ≤ 2 ^ p.codeW) {i : Nat} (h1 : 1 ≤ i) (hi : i < bs.length)
    (hemit : (Reference.lzwEncode (bs.take (i + 1))).length = (Reference.lzwEncode (bs.take i)).length + 1)
    (hfull : 255 + (Reference.lzwEncode (bs.take i)).length = 2 ^ p.codeW)
    (hcap : (Reference.lzwEncode (bs.take i)).length ≤ p.codeCap) :
    lzweRun p bs = .error ⟨.dictFull, i⟩ := by
  obtain ⟨q, hloop, hlen, hnext, hk⟩ := lzweLoop_before_emission (p := p) h1 hi hemit (by omega) (by omega)
  refine lzweRun_of_loop_error (forEach_error_of_take hi hloop ?_)
  rw [Nat.zero_add]
  exact lzweByte_of_dictFull hk (by omega) (by omega)

theorem lzweRun_overflows_at_flush (hfull : (Reference.lzwEncode bs).length = p.codeCap + 1)
    (hdict : 256 + p.codeCap ≤ 2 ^ p.codeW) : lzweRun p bs = .error ⟨.outOverflow, bs.length⟩ := by
  have hne : bs ≠ [] := by
    rintro rfl
    cases hfull
  obtain ⟨q, hloop, hw, hlen, -⟩ := lzweLoop_before_flush (p := p) hne (by omega) (by omega)
  simp only [lzweRun, hloop, lzweFlush, if_neg hw]
  exact if_pos (by omega)

end

/-! ## What the encode-side dictionary keeps (40_lzw.md R102) -/

/-- The strings of `DICT_E`. -/
def LzweRegs.keys (r : LzweRegs) : List (List Byte) := r.dict.map Prod.fst

/-- The dictionary of `LZWE` between two bytes: codes in order, no string twice, every byte a string, every longer string grown
from another by a byte; the match so far is a string of it (R102 (a) to (c)). -/
structure EncoderKeys (r : LzweRegs) : Prop where
  codes : r.dict.map Prod.snd = List.range r.next
  nodup : r.keys.Nodup
  bytes : ∀ c : Byte, [c] ∈ r.keys
  grown : ∀ w ∈ r.keys, 2 ≤ w.length → w.dropLast ∈ r.keys
  current : r.w ≠ [] → r.w ∈ r.keys

theorem keys_lzweStart : lzweStart.keys = (List.range 256).map fun b => [BitVec.ofNat 8 b] := by
  simp [LzweRegs.keys, lzweStart, initE]

theorem encoderKeys_start : EncoderKeys lzweStart where
  codes := by
    rw [lzweStart, initE, List.map_map]
    exact List.map_id _
  nodup := by
    rw [keys_lzweStart]
    refine List.nodup_range.map_on fun a ha b hb hab => ?_
    have h : a % 256 = b % 256 := congrArg BitVec.toNat (List.singleton_injective hab)
    rw [List.mem_range] at ha hb
    omega
  bytes c := by
    rw [LzweRegs.keys, ← dictCode_isSome_iff, lzweStart, dictCode_initE]
    rfl
  grown w hw hlen := by
    rw [keys_lzweStart] at hw
    obtain ⟨b, -, rfl⟩ := List.mem_map.1 hw
    simp at hlen
  current h := absurd rfl h

/-- The match grown by a byte that keeps it in the dictionary. -/
theorem EncoderKeys.extend {r : LzweRegs} (h : EncoderKeys r) {w : List Byte} (hw : w ∈ r.keys) :
    EncoderKeys { r with w := w } :=
  { h with current := fun _ => hw }

theorem LzweRegs.keys_insert (r : LzweRegs) (w v : List Byte) (c n : Nat) (out : List Nat) :
    LzweRegs.keys { dict := r.dict ++ [(w, c)], next := n, w := v, out := out } = r.keys ++ [w] := by
  simp [LzweRegs.keys]

/-- The insertion of the match grown by a byte that takes it out of the dictionary. -/
theorem EncoderKeys.insert {r : LzweRegs} (h : EncoderKeys r) {c : Byte} {out : List Nat} (hnew : r.w ++ [c] ∉ r.keys) :
    EncoderKeys { dict := r.dict ++ [(r.w ++ [c], r.next)], next := r.next + 1, w := [c], out := out } := by
  constructor
  case codes => rw [List.map_append, h.codes, List.range_succ]; rfl
  all_goals rw [LzweRegs.keys_insert]
  case nodup => exact List.nodup_append'.2 ⟨h.nodup, List.nodup_singleton _, List.disjoint_singleton.2 hnew⟩
  case bytes => exact fun d => List.mem_append_left _ (h.bytes d)
  case current => exact fun _ => List.mem_append_left _ (h.bytes c)
  case grown =>
    intro w hw hlen
    refine List.mem_append_left _ ?_
    rcases List.mem_append.1 hw with hw | hw
    · exact h.grown w hw hlen
    · obtain rfl := List.mem_singleton.1 hw
      rw [List.dropLast_concat]
      refine h.current fun hnil => ?_
      simp [hnil] at hlen

theorem lzweByte_keeps_encoderKeys {p : Params} {i : Nat} {c : Byte} {r r' : LzweRegs} (hr : EncoderKeys r)
    (h : lzweByte p i c r = .ok r') : EncoderKeys r' := by
  rcases lzweByte_ok_cases h with ⟨hk, rfl⟩ | ⟨hk, -, -, rfl⟩
  · exact hr.extend ((dictCode_isSome_iff _ _).1 hk)
  · exact hr.insert ((dictCode_eq_none_iff _ _).1 hk)

theorem encoderKeys_of_lzweRun {p : Params} {bs : List Byte} {r : LzweRegs} (h : lzweRun p bs = .ok r) : EncoderKeys r := by
  obtain ⟨q, hloop, hflush⟩ := lzweRun_ok_cases h
  have hq : EncoderKeys q :=
    forEach_keeps (fun _ q => EncoderKeys q) (fun _ _ _ _ _ => lzweByte_keeps_encoderKeys) encoderKeys_start hloop
  rcases lzweFlush_ok_cases hflush with ⟨-, rfl⟩ | ⟨-, -, rfl⟩
  · exact hq
  · exact { hq with }

/-! ## The run of `LZWD` (40_lzw.md R104) -/

section
variable {p : Params} {w : List Byte} {k0 : Nat} {ks : List Nat}

/-- The registers of `LZWD` after the seed. -/
def lzwdSeed (k0 : Nat) : LzwdRegs :=
  { dict := initD, next := 256, w := [BitVec.ofNat 8 k0], out := [BitVec.ofNat 8 k0], desync := false }

theorem lzwdRun_cons_of_le (h0 : k0 ≤ 255) : lzwdRun p w (k0 :: ks) = forEach (lzwdCode p) 1 ks (lzwdSeed k0) :=
  if_neg (Nat.not_lt.2 h0)

theorem lzwdRun_of_bad_first_code (h0 : 255 < k0) : lzwdRun p w (k0 :: ks) = .error ⟨.badFirstCode, k0⟩ := if_pos h0

/-- The codes after the first, all of which fit. -/
theorem lzwdLoop_from_seed (k0 : Nat) (hcap : (Reference.lzwDecode (k0 :: ks)).length ≤ p.textCap)
    (hdict : 256 + ks.length ≤ 2 ^ p.codeW) :
    ∃ q added v, forEach (lzwdCode p) 1 ks (lzwdSeed k0) = .ok q ∧ DecoderHolds q added v ∧
      q.out = Reference.lzwDecode (k0 :: ks) ∧ q.next = 256 + ks.length ∧
      (∀ ys, Reference.lzwDecode (k0 :: (ks ++ ys)) = q.out ++ Reference.decodeFrom added v ys) ∧
      (q.desync = true ↔ ∃ j k : Nat, ks[j]? = some k ∧ 256 + j < k) := by
  rw [Reference.lzwDecode, List.length_cons] at hcap
  obtain ⟨q, added, v, hloop, hq, hout, hnext, hrest, hdesync⟩ := lzwdLoop_ok (p := p) (ks := ks) 1 (decoderHolds_seed k0)
    (by rw [List.length_singleton]; omega) hdict
  refine ⟨q, added, v, hloop, hq, hout, hnext, fun ys => ?_, by simpa using hdesync⟩
  rw [hout, Reference.lzwDecode, hrest ys, List.append_assoc, List.singleton_append]

/-- The run of `LZWD` on codes whose text and insertions fit. -/
theorem lzwdRun_ok (w : List Byte) (hfirst : ∀ k, ks.head? = some k → k ≤ 255)
    (hcap : (Reference.lzwDecode ks).length ≤ p.textCap) (hdict : 256 + (ks.length - 1) ≤ 2 ^ p.codeW) :
    ∃ r, lzwdRun p w ks = .ok r ∧ r.out = Reference.lzwDecode ks ∧ r.next = 256 + (ks.length - 1) ∧
      (r.desync = true ↔ ∃ i k : Nat, 1 ≤ i ∧ ks[i]? = some k ∧ 255 + i < k) := by
  cases ks with
  | nil => exact ⟨_, rfl, rfl, rfl, by simp⟩
  | cons k0 ks =>
    obtain ⟨q, -, -, hloop, -, hout, hnext, -, hdesync⟩ := lzwdLoop_from_seed k0 hcap hdict
    refine ⟨q, (lzwdRun_cons_of_le (hfirst k0 rfl)).trans hloop, hout, hnext, hdesync.trans ⟨?_, ?_⟩⟩
    · rintro ⟨j, k, hk, hlt⟩
      exact ⟨j + 1, k, by omega, hk, by omega⟩
    · rintro ⟨i, k, hi, hk, hlt⟩
      obtain ⟨j, rfl⟩ : ∃ j, i = j + 1 := ⟨i - 1, by omega⟩
      exact ⟨j, k, hk, by omega⟩

/-- The text outgrows TEXT at this code. -/
theorem lzwdCode_of_textFull {i k : Nat} {r : LzwdRegs} (h : p.textCap < r.out.length + (lzwdEntry r k).length) :
    lzwdCode p i k r = .error ⟨.outOverflow, i⟩ := if_pos h

/-- The text fits, and the dictionary is full. -/
theorem lzwdCode_of_dictFull {i k : Nat} {r : LzwdRegs} (h : r.out.length + (lzwdEntry r k).length ≤ p.textCap)
    (hn : r.next = 2 ^ p.codeW) : lzwdCode p i k r = .error ⟨.dictFull, i⟩ :=
  (if_neg (Nat.not_lt.2 h)).trans (if_pos hn)

/-- The loop of `LZWD` up to code `j` after the first, the codes before which fit. -/
theorem lzwdLoop_before_code {j : Nat} (hj : j < ks.length)
    (hcap : (Reference.lzwDecode (k0 :: ks.take j)).length ≤ p.textCap) (hdict : 256 + j ≤ 2 ^ p.codeW) :
    ∃ q, forEach (lzwdCode p) 1 (ks.take j) (lzwdSeed k0) = .ok q ∧ q.next = 256 + j ∧
      (Reference.lzwDecode (k0 :: ks.take (j + 1))).length = q.out.length + (lzwdEntry q ks[j]).length := by
  have hlen : (ks.take j).length = j := List.length_take_of_le (Nat.le_of_lt hj)
  obtain ⟨q, added, v, hloop, hq, -, hnext, hrest, -⟩ := lzwdLoop_from_seed (p := p) (ks := ks.take j) k0 hcap
    (by rw [hlen]; exact hdict)
  refine ⟨q, hloop, by rw [hnext, hlen], ?_⟩
  have h := hrest [ks[j]]
  rw [List.take_append_getElem hj] at h
  rw [h, lzwdEntry_of_holds hq, Reference.decodeFrom, Reference.decodeFrom, List.append_nil, List.length_append]

theorem lzwdRun_overflows_at_code {j : Nat} (h0 : k0 ≤ 255) (hj : j < ks.length)
    (hcap : (Reference.lzwDecode (k0 :: ks.take j)).length ≤ p.textCap) (hdict : 256 + j ≤ 2 ^ p.codeW)
    (hfull : p.textCap < (Reference.lzwDecode (k0 :: ks.take (j + 1))).length) :
    lzwdRun p w (k0 :: ks) = .error ⟨.outOverflow, 1 + j⟩ := by
  obtain ⟨q, hloop, -, hlen⟩ := lzwdLoop_before_code hj hcap hdict
  rw [lzwdRun_cons_of_le h0]
  exact forEach_error_of_take hj hloop (lzwdCode_of_textFull (hlen ▸ hfull))

theorem lzwdRun_fills_dictionary_at_code {j : Nat} (h0 : k0 ≤ 255) (hj : j < ks.length)
    (hcap : (Reference.lzwDecode (k0 :: ks.take j)).length ≤ p.textCap)
    (hfits : (Reference.lzwDecode (k0 :: ks.take (j + 1))).length ≤ p.textCap) (hfull : 256 + j = 2 ^ p.codeW) :
    lzwdRun p w (k0 :: ks) = .error ⟨.dictFull, 1 + j⟩ := by
  obtain ⟨q, hloop, hnext, hlen⟩ := lzwdLoop_before_code hj hcap (Nat.le_of_eq hfull)
  rw [lzwdRun_cons_of_le h0]
  exact forEach_error_of_take hj hloop (lzwdCode_of_dictFull (hlen ▸ hfits) (hnext.trans hfull))

end

/-- The registers of `LZWD` hold some state of the reference. -/
def LzwdRegs.HoldsReference (r : LzwdRegs) : Prop := ∃ added w, DecoderHolds r added w

theorem lzwdCode_keeps_holdsReference {p : Params} {i k : Nat} {r r' : LzwdRegs} (hr : r.HoldsReference)
    (h : lzwdCode p i k r = .ok r') : r'.HoldsReference := by
  obtain ⟨added, w, hr⟩ := hr
  obtain ⟨-, -, rfl⟩ := lzwdCode_ok_cases h
  exact ⟨_, _, decoderHolds_next hr k _ _⟩

/-- A run of `LZWD` over a source that is not empty, as far as it came. -/
theorem holdsReference_of_lzwdRun {p : Params} {w : List Byte} {ks : List Nat} {r : LzwdRegs} (hne : ks ≠ [])
    (h : lzwdRun p w ks = .ok r) : r.HoldsReference := by
  rcases lzwdRun_ok_cases h with ⟨hks, -⟩ | ⟨k0, ks', -, -, hloop⟩
  · exact absurd hks hne
  · exact forEach_keeps (fun _ q => q.HoldsReference) (fun _ _ _ _ _ => lzwdCode_keeps_holdsReference)
      ⟨_, _, decoderHolds_seed k0⟩ hloop

/-- The reference has a string for exactly the codes below the next one. -/
theorem stringOf_isSome_iff (added : List (List Byte)) (k : Nat) :
    (Reference.stringOf added k).isSome = true ↔ k < 256 + added.length := by
  rw [← Nat.not_le, ← stringOf_isNone_iff, Bool.not_eq_true, Option.isNone_eq_false_iff]

theorem LzwdRegs.HoldsReference.keys {r : LzwdRegs} (h : r.HoldsReference) (k : Nat) :
    (r.dict.get? k).isSome = true ↔ k < r.next := by
  obtain ⟨added, w, h⟩ := h
  rw [h.dict, h.next, stringOf_isSome_iff]

theorem LzwdRegs.HoldsReference.str_ne_nil {r : LzwdRegs} (h : r.HoldsReference) : r.w ≠ [] := by
  obtain ⟨added, w, h⟩ := h
  exact h.str ▸ h.seeded

/-- The keys of `DICT_D` after a run of `LZWD`, its source empty or not. -/
theorem lzwdRun_keys {p : Params} {w : List Byte} {ks : List Nat} {r : LzwdRegs} (h : lzwdRun p w ks = .ok r) (k : Nat) :
    (r.dict.get? k).isSome = true ↔ k < r.next := by
  cases ks with
  | nil => cases h; rw [get?_initD]; exact stringOf_isSome_iff [] k
  | cons k0 ks => exact (holdsReference_of_lzwdRun (List.cons_ne_nil _ _) h).keys k

/-! ## The statements -/

/-- Settles O22, by the run on a text whose codes fit. -/
theorem lzweWritesTheCodesOfTheText : Obligations.LzweWritesTheCodesOfTheText := by
  intro s bs hs hsrc hcap32 hcap hdict
  obtain ⟨r, hr, hout, hnext⟩ := lzweRun_ok hcap hdict
  refine ⟨_, exec_lzwe_of_ok hs hsrc hr, completed_complete rfl hs.2, ?_, ?_, hnext⟩
  · rw [← hout]; exact holds_ofList _
  · rw [← hout] at hcap ⊢; exact toNat_ofNat_length hcap hcap32

/-- Settles O23: the run raises where its output ends. -/
theorem lzweFaultsWhereItsOutputEnds : Obligations.LzweFaultsWhereItsOutputEnds := by
  intro s bs hs hsrc hw
  have h256 : 2 ^ 8 ≤ 2 ^ s.cfg.codeW := Nat.pow_le_pow_right (by decide) hw
  have faults {e : Raise} := exec_lzwe_of_error (e := e) hs hsrc
  refine ⟨fun i h1 hi hemit => ⟨fun hfull hdict => ?_, fun hfull hcap => ?_⟩, fun hfull hdict => ?_⟩
  · exact faults (lzweRun_overflows_at_byte h1 hi hemit hfull hdict)
  · exact faults (lzweRun_fills_dictionary_at_byte h256 h1 hi hemit hfull hcap)
  · exact faults (lzweRun_overflows_at_flush hfull hdict)

/-- Settles O24: every byte of the run keeps the form of the dictionary. -/
theorem lzweDictionaryIsInjective : Obligations.LzweDictionaryIsInjective := by
  intro s t hs h hf
  obtain ⟨r, hr, rfl⟩ := lzweRun_of_exec hs h hf
  have hkeys := encoderKeys_of_lzweRun hr
  exact ⟨hkeys.codes, hkeys.nodup, hkeys.grown⟩

/-- Settles O25, by the run on codes whose text fits. -/
theorem lzwdWritesTheTextOfTheCodes : Obligations.LzwdWritesTheTextOfTheCodes := by
  intro s ks hs hsrc hcap32 _ hfirst hcap hdict
  obtain ⟨r, hr, hout, hnext, hdesync⟩ := lzwdRun_ok s.wD hfirst hcap hdict
  refine ⟨_, exec_lzwd_of_ok hs hsrc hr, completed_complete rfl hs.2, ?_, ?_, hnext, hdesync⟩
  · rw [← hout]; exact holds_ofList _
  · rw [← hout] at hcap ⊢; exact toNat_ofNat_length hcap hcap32

/-- Settles O26: code `i` of the source is code `i - 1` after the seed. -/
theorem lzwdFaultsAtTheFirstCodeThatDoesNotFit : Obligations.LzwdFaultsAtTheFirstCodeThatDoesNotFit := by
  intro s k0 ks hs hsrc
  have faults {e : Raise} := exec_lzwd_of_error (e := e) hs hsrc
  refine ⟨fun h0 => faults (lzwdRun_of_bad_first_code h0), fun h0 _ i h1 hi hcap hdict => ?_⟩
  obtain ⟨j, rfl⟩ : ∃ j, i = 1 + j := ⟨i - 1, by omega⟩
  rw [List.length_cons] at hi
  rw [Nat.add_comm 1 j] at hcap
  refine ⟨fun hfull => ?_, fun hfits hfull => ?_⟩
  · rw [Nat.add_comm 1 j] at hfull
    exact faults (lzwdRun_overflows_at_code h0 (by omega) hcap (by omega) hfull)
  · rw [Nat.add_comm 1 j] at hfits
    exact faults (lzwdRun_fills_dictionary_at_code h0 (by omega) hcap hfits (by omega))

/-- Settles O27: every code of the run keeps the registers in step with the reference. -/
theorem lzwdDictionaryKeysAreAllBelowNext : Obligations.LzwdDictionaryKeysAreAllBelowNext := by
  intro s t hs h hf
  obtain ⟨r, hr, rfl⟩ := lzwdRun_of_exec hs h hf
  refine ⟨lzwdRun_keys hr, fun hlen => (holdsReference_of_lzwdRun (fun hnil => hlen ?_) hr).str_ne_nil⟩
  have hzero := congrArg List.length hnil
  rw [length_codeSource] at hzero
  exact BitVec.eq_of_toNat_eq hzero

/-- Settles O28: the codes that `LZWE` stored decode to the text, and none is above the next code to be created. -/
theorem lzwdUndoesLzwe : Obligations.LzwdUndoesLzwe := by
  intro s t bs hs hp hsrc hlen h hf
  obtain ⟨hw, ht1, ht32, -, hc32, -⟩ := hp
  obtain ⟨r, hr, -⟩ := lzweRun_of_exec hs h hf
  rw [textSource_of_begins hsrc] at hr
  obtain ⟨hcap, hdict⟩ := lzweRun_ok_inv (Nat.le_of_succ_le hw) hr
  obtain ⟨t', h', -, hcode, hcodeLen, hnextE⟩ := lzweWritesTheCodesOfTheText s bs hs hsrc hc32 hcap hdict
  obtain rfl : t' = t := Host.Outcome.next.inj (h'.symm.trans h)
  have hbound : ∀ j k : Nat, (Reference.lzwEncode bs)[j]? = some k → k < 256 + j :=
    encodeFrom_lt bs [] [] (fun hne => absurd rfl hne)
  have hcfg := exec_cfg h
  obtain ⟨u, hu, hdone, htext, htextLen, hnextD, hdesync⟩ := lzwdWritesTheTextOfTheCodes t' (Reference.lzwEncode bs)
    ⟨(ends_of_exec hs (by decide) h).busy, hf⟩ (hcode.begins hcodeLen) (hcfg ▸ ht32) (hcfg ▸ ht1)
    (fun k hk => Nat.le_of_lt_succ (hbound 0 k (by rwa [← List.head?_eq_getElem?])))
    (by rw [lzwDecode_lzwEncode, hcfg]; exact hlen) (by rw [hcfg]; exact hdict)
  rw [lzwDecode_lzwEncode] at htext htextLen
  refine ⟨u, hu, hdone, htext, htextLen, ?_, hnextD.trans hnextE.symm⟩
  rw [← Bool.not_eq_true, hdesync]
  rintro ⟨i, k, -, hk, hlt⟩
  have := hbound i k hk
  omega

end Sys2Proof.Machine
end

section
/-! PROOFS of the statements about the Huffman tree builder and the code generator (41_huffman.md): what `HBLD` and `HGEN`
answer; the nodes of a built tree; what the table of a tree holds; then the statements. -/

namespace Sys2Proof.Machine

/-! ## What `HBLD` and `HGEN` answer -/

section
variable {s t : State} {ks : List Nat}

/-- `HBLD` on defined codes stores their counts and the tree of the counts. -/
theorem exec_hbld_of_begins (hs : Idle s) (hsrc : s.code.Begins s.codeLen ks) :
    exec .hbld s = .next (complete (hbldStore (countCodes ks) ((accept 3 s).draw s.codeLen.toNat))) := by
  rw [← codeSource_of_begins hsrc]
  exact exec_of_ends hs .hbld

/-- `HBLD` stores the tree of the counts, its source defined or not, and leaves the core idle with its parameters. -/
theorem exec_hbld_next (hs : Idle s) (h : exec .hbld s = .next t) :
    Idle t ∧ t.cfg = s.cfg ∧ t.freq = countCodes s.codeSource ∧ t.nodes = buildNodes t.freq ∧
      t.nodeCount = t.nodes.length ∧ t.root = t.nodeCount - 1 := by
  cases ends_of_exec hs (by decide) h with
  | hbld => exact ⟨⟨rfl, hs.2⟩, rfl, rfl, rfl, rfl, rfl⟩
  | scan hn _ | scanFault hn _ => cases hn

theorem exec_hgen_of_ok {m : Memory Entry} (hs : Idle s) (h : genTable s.cfg s.nodes s.nodeCount s.root = .ok m) :
    exec .hgen s = .next (complete (hgenStore m (accept 4 s))) := exec_of_ends hs (.hgen h)

theorem exec_hgen_of_error {e : Raise} (hs : Idle s)
    (h : genTable s.cfg s.nodes s.nodeCount s.root = .error (some e)) :
    exec .hgen s = .next (raise e (loseTable (accept 4 s))) := exec_of_ends hs (.hgenFault h)

/-- What `HGEN` can answer: the table of its tree, or a fault where the tree has none. -/
theorem exec_hgen_next_cases (hs : Idle s) (h : exec .hgen s = .next t) :
    (t.status.fault = false ∧ genTable s.cfg s.nodes s.nodeCount s.root = .ok t.table) ∨
      (t.status.fault = true ∧ ∃ e, genTable s.cfg s.nodes s.nodeCount s.root = .error (some e)) := by
  cases ends_of_exec hs (by decide) h with
  | hgen hm => exact .inl ⟨hs.2, hm⟩
  | hgenFault he => exact .inr ⟨rfl, _, he⟩
  | scan hn _ | scanFault hn _ => cases hn

end

/-! ## The nodes of a built tree (41_huffman.md R122 to R124) -/

/-- A node of a built tree is a leaf of a count, or it was made by the merge rule. -/
theorem buildNodes_cases {f : Memory Nat} {k : Nat} {n : Node} (h : (buildNodes f)[k]? = some n) :
    (∃ x, f[k]? = some x ∧ n = .leaf x.2 x.1) ∨ ∃ l r a b, MergedAt (buildNodes f) k l r a b := by
  rcases eq_or_ne f [] with rfl | hne
  · cases h
  obtain ⟨-, hleaf, -, hmerge⟩ := buildNodes_spec hne
  rcases Nat.lt_or_ge k f.length with hlt | hge
  · rw [hleaf k hlt, leavesOf, List.getElem?_map, Option.map_eq_some_iff] at h
    obtain ⟨x, hx, rfl⟩ := h
    exact .inl ⟨x, hx, rfl⟩
  · exact .inr (hmerge k hge (List.getElem?_eq_some_iff.1 h).1)

/-- Every internal node of a built tree was made by the merge rule (41_huffman.md R123). -/
theorem mergedAt_of_internal {f : Memory Nat} {k w l r : Nat} (h : (buildNodes f)[k]? = some (Node.internal w l r)) :
    ∃ a b, MergedAt (buildNodes f) k l r a b := by
  rcases buildNodes_cases h with ⟨x, -, hx⟩ | ⟨l', r', a, b, hm⟩
  · cases hx
  · obtain ⟨-, rfl, rfl⟩ := Node.internal.inj (Option.some.inj (hm.node.symm.trans h))
    exact ⟨a, b, hm⟩

/-- Every leaf of a built tree is one of the counts. -/
theorem mem_of_leaf {f : Memory Nat} {k w c : Nat} (h : (buildNodes f)[k]? = some (Node.leaf w c)) : (c, w) ∈ f := by
  rcases buildNodes_cases h with ⟨x, hx, hn⟩ | ⟨l, r, a, b, hm⟩
  · cases hn
    exact List.mem_of_getElem? hx
  · rw [hm.node] at h
    cases h

/-- The leaves of a built tree, in the order of the counts (41_huffman.md R122). -/
theorem getElem?_buildNodes_of_leaf {f : Memory Nat} {j : Nat} {x : Nat × Nat} (h : f[j]? = some x) :
    (buildNodes f)[j]? = some (.leaf x.2 x.1) := by
  have hleaf : (leavesOf f)[j]? = some (.leaf x.2 x.1) := by rw [leavesOf, List.getElem?_map, h]; rfl
  rw [buildNodes, List.getElem?_append_left (List.getElem?_eq_some_iff.1 hleaf).1]
  exact hleaf

theorem length_buildNodes (f : Memory Nat) : (buildNodes f).length = 2 * f.length - 1 := by
  rcases eq_or_ne f [] with rfl | hne
  · rfl
  · exact (buildNodes_spec hne).1

/-- The root of a built tree carries all the counts (41_huffman.md R124). -/
theorem weight_root_buildNodes {f : Memory Nat} (hf : f ≠ []) :
    ∃ a, (buildNodes f)[(buildNodes f).length - 1]? = some a ∧ a.weight = (f.map Prod.snd).sum := by
  obtain ⟨-, -, ⟨x, hforest, hsum, hidx⟩, -⟩ := buildNodes_spec hf
  obtain ⟨a, ha, hw⟩ := hforest.weight x (List.mem_singleton_self x)
  exact ⟨a, hidx ▸ ha, hw.trans hsum⟩

/-- The leaves that the root of a built tree reaches are the listed counts. -/
theorem leadsTo_root_iff {f : Memory Nat} (c : Nat) :
    (∃ path, LeadsTo (buildNodes f) ((buildNodes f).length - 1) path c) ↔ ∃ n, (c, n) ∈ f := by
  constructor
  · rintro ⟨path, hpath⟩
    obtain ⟨j, w, hj⟩ := hpath.leaf_mem
    exact ⟨w, mem_of_leaf hj⟩
  · rintro ⟨n, hn⟩
    obtain ⟨j, hj⟩ := List.getElem?_of_mem hn
    obtain ⟨-, -, ⟨x, hforest, -, hidx⟩, -⟩ := buildNodes_spec (List.ne_nil_of_mem hn)
    obtain ⟨q, hq, -⟩ := hforest.reached (.leaf (getElem?_buildNodes_of_leaf hj))
    exact ⟨q ++ [], hidx ▸ hq⟩

/-! ## The table of a tree (41_huffman.md R126, R127) -/

/-- `m` holds the paths of a tree: the bitstring of a path to a leaf of its code in every entry, an entry for every leaf, and
nothing listed that is absent. -/
structure HoldsPaths (nodes : List Node) (root : Nat) (m : Memory Entry) : Prop where
  form : Memory.wf m
  present : ∀ x ∈ m, x.2.len ≠ 0
  path : ∀ c, (tableAt m c).len ≠ 0 → ∃ path, LeadsTo nodes root path c ∧ tableAt m c = Entry.ofBits path
  covers : ∀ path c, LeadsTo nodes root path c → (tableAt m c).len ≠ 0

section
variable {p : Params} {nodes : List Node} {count root : Nat} {m : Memory Entry}

/-- A path from an internal node has an edge. -/
theorem LeadsTo.ne_nil_of_internal {k w l r c : Nat} {path : List Bool} (hk : nodes[k]? = some (Node.internal w l r))
    (h : LeadsTo nodes k path c) : path ≠ [] := by
  rintro rfl
  cases h with
  | leaf hk' => rw [hk] at hk'; cases hk'

/-- A walk from an internal root that completes leaves the paths of the tree. -/
theorem holdsPaths_of_walk {depth w l r : Nat} (hroot : nodes[root]? = some (Node.internal w l r))
    (h : walk p nodes depth root [] [] = .ok m) : HoldsPaths nodes root m := by
  obtain ⟨hwf, hother, hleaf, -, hmem⟩ := walk_ok h .nil fun _ => ⟨w, l, r, hroot⟩
  have len_ne_zero {path : List Bool} {c : Nat} (hp : LeadsTo nodes root path c) : (Entry.ofBits path).len ≠ 0 :=
    fun h0 => hp.ne_nil_of_internal hroot (List.length_eq_zero_iff.1 h0)
  refine ⟨hwf, fun x hx => ?_, fun c hc => ?_, fun path c hp => ?_⟩
  · rcases hmem x hx with hx | ⟨q, hq, he⟩
    · cases hx
    · rw [he]; exact len_ne_zero hq
  · by_cases hreach : ∃ q, LeadsTo nodes root q c
    · exact hleaf c hreach
    · rw [hother c hreach] at hc; exact absurd rfl hc
  · obtain ⟨q, hq, he⟩ := hleaf c ⟨path, hp⟩
    rw [he]; exact len_ne_zero hq

/-- A path that ends at a leaf goes no further, so none begins another (41_huffman.md R129 (c)). -/
theorem HoldsPaths.prefixFree (h : HoldsPaths nodes root m) : PrefixFree m := by
  intro c d hcd hc hd hpre
  obtain ⟨u, hu, hcu⟩ := h.path c hc
  obtain ⟨v, hv, hdv⟩ := h.path d hd
  rw [hcu, hdv, Entry.toBits_ofBits, Entry.toBits_ofBits] at hpre
  obtain ⟨rest, rfl⟩ := hpre
  exact hcd (hu.prefix_eq hv).2

theorem tableAt_singleton (c d : Nat) (e : Entry) : tableAt [(c, e)] d = if c = d then e else { len := 0, bits := 0 } := by
  rw [tableAt, Memory.get?_cons]
  split <;> rfl

/-- What `HGEN` makes of a tree that is not empty: entries for exactly the leaves reached from the root, none beginning
another, and nothing listed that is absent. -/
theorem genTable_ok (hcount : count ≠ 0) (h : genTable p nodes count root = .ok m) :
    Memory.wf m ∧ (∀ x ∈ m, x.2.len ≠ 0) ∧ PrefixFree m ∧
      ∀ c, (tableAt m c).len ≠ 0 ↔ ∃ path, LeadsTo nodes root path c := by
  rcases genTable_cases p nodes count root with ⟨h0, -⟩ | ⟨-, -, g⟩ | ⟨w, c, -, hleaf, g⟩ | ⟨w, l, r, -, hint, g⟩
  · exact absurd h0 hcount
  · rw [g] at h; cases h
  · rw [g] at h
    obtain rfl : [(c, Entry.ofBits [false])] = m := Except.ok.inj h
    have only {d : Nat} : (tableAt [(c, Entry.ofBits [false])] d).len ≠ 0 ↔ c = d := by
      rw [tableAt_singleton]; split <;> simp_all
    refine ⟨List.pairwise_singleton _ _, by simp, fun d d' hne hd hd' => ?_, fun d => ?_⟩
    · exact absurd ((only.1 hd).symm.trans (only.1 hd')) hne
    · rw [only]
      constructor
      · rintro rfl; exact ⟨[], .leaf hleaf⟩
      · rintro ⟨path, hp⟩
        exact (LeadsTo.prefix_eq (.leaf hleaf) (s := path) hp).2
  · rw [g] at h
    have hpaths := holdsPaths_of_walk hint h
    refine ⟨hpaths.form, hpaths.present, hpaths.prefixFree, fun c => ⟨fun hc => ?_, fun ⟨path, hp⟩ => hpaths.covers path c hp⟩⟩
    obtain ⟨path, hp, -⟩ := hpaths.path c hc
    exact ⟨path, hp⟩

/-- A table whose present entries are those of the codes of a list counts the codes that differ (10_state.md R41). -/
theorem tableCount_eq_length_dedup {ks : List Nat} (hwf : Memory.wf m) (hpresent : ∀ x ∈ m, x.2.len ≠ 0)
    (hiff : ∀ c, (tableAt m c).len ≠ 0 ↔ c ∈ ks) : tableCount m = ks.dedup.length := by
  have hall : tableCount m = m.length :=
    List.countP_eq_length.2 fun x hx => decide_eq_true (Nat.one_le_iff_ne_zero.2 (hpresent x hx))
  have hnodup : (m.map Prod.fst).Nodup := (List.pairwise_map.2 hwf).imp Nat.ne_of_lt
  have hkeys (c : Nat) : c ∈ m.map Prod.fst ↔ c ∈ ks.dedup := by
    rw [List.mem_dedup, ← hiff c]
    constructor
    · intro hc
      obtain ⟨x, hx, rfl⟩ := List.mem_map.1 hc
      rw [tableAt, (Memory.get?_eq_some_iff hwf).2 hx]
      exact hpresent x hx
    · intro hc
      cases hg : m.get? c with
      | none => rw [tableAt, hg] at hc; exact absurd rfl hc
      | some e => exact List.mem_map.2 ⟨(c, e), Memory.mem_of_get? hg, rfl⟩
  rw [hall, ← List.length_map Prod.fst]
  exact ((List.perm_ext_iff_of_nodup hnodup (List.nodup_dedup ks)).2 hkeys).length_eq

/-- On a tree with an internal root `HGEN` is the walk, and the walk comes to an end (41_huffman.md R126). -/
theorem genTable_of_internal {s : State} {w l r : Nat} (ht : TreeForm s)
    (hroot : s.nodes[s.root]? = some (Node.internal w l r)) :
    (∃ m, genTable s.cfg s.nodes s.nodeCount s.root = .ok m ∧ walk s.cfg s.nodes s.nodeCount s.root [] [] = .ok m) ∨
      ∃ e, genTable s.cfg s.nodes s.nodeCount s.root = .error (some e) ∧
        walk s.cfg s.nodes s.nodeCount s.root [] [] = .error (some e) := by
  have hlt := (List.getElem?_eq_some_iff.1 hroot).1
  have hcount : s.nodeCount ≠ 0 := by have := ht.count; omega
  have hgen : genTable s.cfg s.nodes s.nodeCount s.root = walk s.cfg s.nodes s.nodeCount s.root [] [] := by
    simp [genTable, hcount, hroot]
  rw [hgen]
  cases hw : walk s.cfg s.nodes s.nodeCount s.root [] [] with
  | ok m => exact .inl ⟨m, rfl, rfl⟩
  | error e =>
    cases e with
    | none => exact absurd hw (walk_ne_error_none ht.children (ht.count ▸ hlt) hlt)
    | some e => exact .inr ⟨e, rfl, rfl⟩

end

/-! ## The statements -/

/-- Settles O30, by the counts of the codes and their sum. -/
theorem hbldCountsTheCodes : Obligations.HbldCountsTheCodes := by
  intro s ks hs hsrc
  exact ⟨_, exec_hbld_of_begins hs hsrc, completed_complete rfl hs.2, freqAt_countCodes ks, sum_countCodes ks⟩

/-- Settles O31: the counts are listed in ascending order of code, and the merge rule makes every later node. -/
theorem hbldBuildsATreeOverTheDistinctCodes : Obligations.HbldBuildsATreeOverTheDistinctCodes := by
  intro s t ks syms hs hsrc hsorted hmem h
  rw [exec_hbld_of_begins hs hsrc] at h
  cases h
  have hf := map_fst_countCodes hsorted hmem
  have hlen : (countCodes ks).length = syms.length := by rw [hf, List.length_map]
  refine ⟨?_, rfl, rfl, fun j c hj => ?_, fun k hk hlt => ?_, fun hne => ?_⟩
  · rw [← hlen]; exact length_buildNodes _
  · exact getElem?_buildNodes_of_leaf (x := (c, ks.count c)) (by rw [hf, List.getElem?_map, hj]; rfl)
  · rcases buildNodes_cases (List.getElem?_eq_getElem hlt) with ⟨x, hx, -⟩ | ⟨l, r, a, b, hm⟩
    · have := (List.getElem?_eq_some_iff.1 hx).1
      omega
    · exact ⟨l, r, a, b, hm.left, hm.right, hm.node, hm.below⟩
  · have hcounts : countCodes ks ≠ [] := fun h0 => hne (List.length_eq_zero_iff.1 (by rw [← sum_countCodes, h0]; rfl))
    rw [← sum_countCodes ks]
    exact weight_root_buildNodes hcounts

/-- Settles O32: every internal node was made by the merge rule. -/
theorem hbldMergesTheTwoLightestNodes : Obligations.HbldMergesTheTwoLightestNodes := by
  intro s t k w l r hs h hk a b ha hb
  obtain ⟨-, -, -, hnodes, -⟩ := exec_hbld_next hs h
  rw [hnodes] at hk ha hb ⊢
  obtain ⟨a', b', hm⟩ := mergedAt_of_internal hk
  obtain rfl : a' = a := Option.some.inj (hm.left.symm.trans ha)
  obtain rfl : b' = b := Option.some.inj (hm.right.symm.trans hb)
  exact ⟨hm.orphans, hm.order, hm.least⟩

/-- Settles O33: the counts of a permutation are the same, and all else is a function of the counts and the parameters. -/
theorem treeAndTableDependOnTheCountsOnly : Obligations.TreeAndTableDependOnTheCountsOnly := by
  intro s s' t t' ks ks' hs hs' hcfg hsrc hsrc' hperm h h'
  obtain ⟨ht, htcfg, hfreq, hnodes, hcount, hroot⟩ := exec_hbld_next hs h
  obtain ⟨ht', htcfg', hfreq', hnodes', hcount', hroot'⟩ := exec_hbld_next hs' h'
  rw [codeSource_of_begins hsrc] at hfreq
  rw [codeSource_of_begins hsrc'] at hfreq'
  have efreq : t.freq = t'.freq := by rw [hfreq, hfreq', countCodes_congr hperm.count_eq]
  have enodes : t.nodes = t'.nodes := by rw [hnodes, hnodes', efreq]
  have ecount : t.nodeCount = t'.nodeCount := by rw [hcount, hcount', enodes]
  have eroot : t.root = t'.root := by rw [hroot, hroot', ecount]
  refine ⟨efreq, enodes, ecount, eroot, fun u u' hu hu' => ?_⟩
  have hgen := exec_hgen_next_cases ht hu
  rw [enodes, ecount, eroot, htcfg, hcfg, ← htcfg'] at hgen
  rcases hgen with ⟨hf, hok⟩ | ⟨hf, e, he⟩ <;> rcases exec_hgen_next_cases ht' hu' with ⟨hf', hok'⟩ | ⟨hf', e', he'⟩
  · exact ⟨hf.trans hf'.symm, fun _ => Except.ok.inj (hok.symm.trans hok')⟩
  · rw [he'] at hok; cases hok
  · rw [hok'] at he; cases he
  · exact ⟨hf.trans hf'.symm, fun hnot => by rw [hf] at hnot; cases hnot⟩

/-- Settles O34: the empty tree has the empty table. -/
theorem hgenOfTheEmptyTreeIsEmpty : Obligations.HgenOfTheEmptyTreeIsEmpty := by
  intro s hs hcount
  have hgen : genTable s.cfg s.nodes s.nodeCount s.root = .ok [] := by rw [genTable, if_pos hcount]
  exact ⟨_, exec_hgen_of_ok hs hgen, completed_complete rfl hs.2, fun c => rfl, rfl⟩

/-- Settles O35: the table of a single leaf lists the one entry `0`. -/
theorem hgenOfASingleLeafIsOneBit : Obligations.HgenOfASingleLeafIsOneBit := by
  intro s w c hs hcount hroot
  have hgen : genTable s.cfg s.nodes s.nodeCount s.root = .ok [(c, { len := 1, bits := 0 })] := by
    rw [genTable, if_neg hcount, hroot]; rfl
  refine ⟨_, exec_hgen_of_ok hs hgen, completed_complete rfl hs.2, ?_, fun d hd => ?_, rfl⟩
  · exact (tableAt_singleton c c _).trans (if_pos rfl)
  · exact congrArg Entry.len ((tableAt_singleton c d _).trans (if_neg (Ne.symm hd)))

/-- Settles O36: a walk that raised would have met a path beyond `MAXLEN`. -/
theorem hgenWritesTheRootToLeafPaths : Obligations.HgenWritesTheRootToLeafPaths := by
  intro s w l r hs ht hroot hshort
  rcases genTable_of_internal ht hroot with ⟨m, hgen, hwalk⟩ | ⟨e, -, hwalk⟩
  · have hpaths := holdsPaths_of_walk hroot hwalk
    exact ⟨_, exec_hgen_of_ok hs hgen, completed_complete rfl hs.2, hpaths.path, hpaths.covers⟩
  · obtain ⟨-, q, hq, hlong, -⟩ := walk_error hwalk .nil fun _ => ⟨w, l, r, hroot⟩
    exact absurd hlong (Nat.not_lt.2 (hshort q e.info hq))

/-- Settles O37: a walk that completed would have met no path beyond `MAXLEN`. -/
theorem hgenFaultsAtTheFirstLongPath : Obligations.HgenFaultsAtTheFirstLongPath := by
  intro s w l r hs ht hroot hlong
  rcases genTable_of_internal ht hroot with ⟨m, -, hwalk⟩ | ⟨e, hgen, hwalk⟩
  · obtain ⟨path, c, hpath, hlen⟩ := hlong
    obtain ⟨-, -, -, hshort, -⟩ := walk_ok hwalk .nil fun _ => ⟨w, l, r, hroot⟩
    exact absurd hlen (Nat.not_lt.2 (hshort path c hpath))
  · obtain ⟨hcause, q, hq, hlen, hfirst⟩ := walk_error hwalk .nil fun _ => ⟨w, l, r, hroot⟩
    exact ⟨_, q, e.info, exec_hgen_of_error hs hgen, hcause ▸ faultedWith_raise rfl, hq, hlen, hfirst⟩

/-- Settles O38: the table's entries are those of the leaves, and the leaves are those of the codes that occur. -/
theorem builtTablesArePrefixFree : Obligations.BuiltTablesArePrefixFree := by
  intro s t u ks hs hsrc h hu hf
  obtain ⟨ht, -, hfreq, hnodes, hcount, hroot⟩ := exec_hbld_next hs h
  rw [codeSource_of_begins hsrc] at hfreq
  obtain ⟨-, hgen⟩ := (exec_hgen_next_cases ht hu).resolve_right fun hfault => by rw [hf] at hfault; cases hfault.1
  rw [hroot, hcount, hnodes, hfreq] at hgen
  rcases eq_or_ne ks [] with rfl | hne
  · rw [← (Except.ok.inj hgen : [] = u.table)]
    exact ⟨fun c d _ hc => absurd rfl hc, by simp, rfl⟩
  · have hlen : (buildNodes (countCodes ks)).length ≠ 0 := by
      obtain ⟨k, hk⟩ := List.exists_mem_of_ne_nil ks hne
      have := List.length_pos_of_mem ((mem_countCodes_iff ks k _).2 ⟨hk, rfl⟩)
      rw [length_buildNodes]; omega
    obtain ⟨hwf, hpresent, hprefix, hleaves⟩ := genTable_ok hlen hgen
    have hcodes (c : Nat) : (tableAt u.table c).len ≠ 0 ↔ c ∈ ks := by
      rw [hleaves, leadsTo_root_iff]
      simp only [mem_countCodes_iff, exists_and_left, exists_eq, and_true]
    exact ⟨hprefix, hcodes, tableCount_eq_length_dedup hwf hpresent hcodes⟩

end Sys2Proof.Machine
end

section
/-! PROOFS of the statements about the bit-packer and the bit-unpacker (42_bitpack.md): where `PACK` raises; what the scan of
`UNPK` and `UNPKL` answers on bits the table cuts; what `PACK` leaves for it; then the statements. -/

namespace Sys2Proof.Machine

/-! ## Where `PACK` raises (42_bitpack.md R140) -/

theorem packCode_of_absent {p : Params} {t : Memory Entry} {c : Nat} (i : Nat) (bits : List Bool)
    (h : (tableAt t c).len = 0) : packCode p t i c bits = .error ⟨.tableMiss, i⟩ := if_pos h

theorem packCode_of_packedFull {p : Params} {t : Memory Entry} {c : Nat} (i : Nat) {bits : List Bool}
    (h : (tableAt t c).len ≠ 0) (hfull : 8 * p.packedCap < bits.length + (tableAt t c).len) :
    packCode p t i c bits = .error ⟨.outOverflow, i⟩ := (if_neg h).trans (if_pos hfull)

/-- `PACK` whose first `i` codes fit faults with what its code `i` raises. -/
theorem exec_pack_of_error_at {s : State} {ks : List Nat} {i k : Nat} {e : Raise} (hs : Idle s)
    (hcode : s.code.Begins s.codeLen ks) (hi : ks[i]? = some k) (hk : ∀ j ∈ ks.take i, (tableAt s.table j).len ≠ 0)
    (hfit : (bitsOfCodes s.table (ks.take i)).length ≤ 8 * s.cfg.packedCap)
    (he : packCode s.cfg s.table i k (bitsOfCodes s.table (ks.take i)) = .error e) :
    ∃ t, exec .pack s = .next t ∧ FaultedWith 5 e.cause e.info t := by
  obtain ⟨hlt, rfl⟩ := List.getElem?_eq_some_iff.1 hi
  have hrun : packRun s.cfg s.table s.codeSource = .error e := by
    rw [codeSource_of_begins hcode]
    refine forEach_error_of_take hlt (packLoop_ok 0 hk ?_) ?_
    · rwa [List.length_nil, Nat.zero_add]
    · rwa [Nat.zero_add, List.nil_append]
  exact ⟨_, exec_of_ends hs (.packFault hrun), faultedWith_raise rfl⟩

/-! ## What the scan answers (42_bitpack.md R144) -/

section
variable {s : State} {i : Instr} {m : Nat} {bytes : List Byte} {codes : List Nat} {rest : List Bool}

/-- `UNPK` or `UNPKL` on defined bytes whose scanned bits the table cuts into codes that fit. -/
theorem exec_of_spells (hs : Idle s) (hsrc : s.packed.Begins s.packedLen bytes) (hcap : s.cfg.codeCap < 2 ^ 32)
    (hm : Scans s i m) (hcut : Spells s.table ((streamBits bytes).take m) codes rest)
    (hfit : codes.length ≤ s.cfg.codeCap) :
    ∃ t, exec i s = .next t ∧ Completed (opcode i) t ∧ t.code.Holds codes ∧ t.codeLen.toNat = codes.length ∧
      t.cand = rest ∧ (t.status.resid = true ↔ rest ≠ []) := by
  have hrun : scanRun s.cfg s.table ((streamBits s.packedSource).take m) = .ok { cand := rest, out := codes } := by
    rw [packedSource_of_begins hsrc]
    exact scanLoop_of_spells hcut 0 [] (by rwa [List.length_nil, Nat.zero_add])
  exact ⟨_, exec_of_ends hs (.scan (hm.congr rfl rfl) hrun), completed_complete rfl hs.2, holds_ofList codes,
    toNat_ofNat_length hfit hcap, rfl, by simp⟩

/-- A scan that has cut its first `n` bits into codes that fit raises what bit `n` raises. -/
theorem exec_of_scan_error_at {n : Nat} {b : Bool} {e : Raise} (hs : Idle s) (hsrc : s.packed.Begins s.packedLen bytes)
    (hb : (streamBits bytes)[n]? = some b) (hcut : Spells s.table ((streamBits bytes).take n) codes rest)
    (hfit : codes.length ≤ s.cfg.codeCap) (he : scanBit s.cfg s.table n b { cand := rest, out := codes } = .error e)
    (hm : Scans s i m) (hn : n < m) : ∃ t, exec i s = .next t ∧ FaultedWith (opcode i) e.cause e.info t := by
  obtain ⟨hlt, rfl⟩ := List.getElem?_eq_some_iff.1 hb
  have hpre := scanLoop_of_spells hcut 0 [] (by rwa [List.length_nil, Nat.zero_add])
  have hrun : scanRun s.cfg s.table ((streamBits s.packedSource).take m) = .error e := by
    rw [packedSource_of_begins hsrc]
    refine forEach_error_of_take (i := n) (q := { cand := rest, out := codes }) (by rw [List.length_take]; omega) ?_ ?_
    · rw [List.take_take, Nat.min_eq_left (Nat.le_of_lt hn)]
      exact hpre
    · rwa [Nat.zero_add, List.getElem_take]
  exact ⟨_, exec_of_ends hs (.scanFault (hm.congr rfl rfl) hrun), faultedWith_raise rfl⟩

/-- A bit of the stream lies in the bits `UNPK` scans. -/
theorem lt_of_getElem?_streamBits {n : Nat} {b : Bool} (hsrc : s.packed.Begins s.packedLen bytes)
    (hb : (streamBits bytes)[n]? = some b) : n < 8 * s.packedLen.toNat := by
  rw [hsrc.1, ← length_streamBits]
  exact (List.getElem?_eq_some_iff.1 hb).1

end

theorem scanBit_of_shared {p : Params} {t : Memory Entry} (n : Nat) {b : Bool} {r : ScanRegs}
    (h : 2 ≤ (codesSpelled t (r.cand ++ [b])).length) : scanBit p t n b r = .error ⟨.tableMulti, n⟩ := by
  match hm : codesSpelled t (r.cand ++ [b]), h with
  | _ :: _ :: _, _ => simp only [scanBit, hm]

theorem scanBit_of_codeFull {p : Params} {t : Memory Entry} (n : Nat) {b : Bool} {c : Nat} {r : ScanRegs}
    (h : codesSpelled t (r.cand ++ [b]) = [c]) (hfull : r.out.length = p.codeCap) :
    scanBit p t n b r = .error ⟨.outOverflow, n⟩ := by
  simp only [scanBit, h, if_pos hfull]

/-- Each code is listed once, so two or more are listed exactly when two different codes have the entry. -/
theorem two_le_length_codesSpelled_iff {t : Memory Entry} (ht : Memory.wf t) (u : List Bool) :
    2 ≤ (codesSpelled t u).length ↔ ∃ c d, c ≠ d ∧ HasEntry t c u ∧ HasEntry t d u := by
  rw [← List.toFinset_card_of_nodup (nodup_codesSpelled ht u), Nat.succ_le_iff, Finset.one_lt_card]
  simp only [List.mem_toFinset, mem_codesSpelled ht, HasEntry]
  exact ⟨fun ⟨c, hc, d, hd, hne⟩ => ⟨c, d, hne, hc, hd⟩, fun ⟨c, d, hne, hc, hd⟩ => ⟨c, hc, d, hd, hne⟩⟩

/-! ## What `PACK` leaves for the scan (42_bitpack.md R145) -/

/-- What a `PACK` that did not fault leaves for the scan: every code has an entry, and PACKED holds the bytes of the codes'
bits, `BITLEN` their number. -/
theorem exec_pack_not_faulted {s t : State} {ks : List Nat} (hinv : Inv s) (hs : Idle s)
    (hcode : s.code.Begins s.codeLen ks) (h : exec .pack s = .next t) (hf : t.status.fault = false) :
    Idle t ∧ t.cfg = s.cfg ∧ t.table = s.table ∧ (∀ k ∈ ks, (tableAt s.table k).len ≠ 0) ∧
      t.packed.Begins t.packedLen (packedBytes (bitsOfCodes s.table ks)) ∧
      t.bitLen.toNat = (bitsOfCodes s.table ks).length := by
  obtain ⟨-, -, -, -, -, -, hcap, -⟩ := hinv.params
  cases ends_of_exec hs (by decide) h with
  | @pack bits hrun =>
    rw [codeSource_accept, codeSource_of_begins hcode] at hrun
    obtain ⟨hk, hbits, hlen⟩ := packLoop_ok_inv hrun
    rw [List.nil_append] at hbits
    have hlen : bits.length ≤ 8 * s.cfg.packedCap := hlen (Nat.zero_le _)
    have hbytes : (packedBytes bits).length ≤ s.cfg.packedCap := (length_packedBytes bits).trans_le (packRun_within hrun)
    subst hbits
    refine ⟨⟨rfl, hs.2⟩, rfl, rfl, hk, begins_ofList ?_, toNat_ofNat_length hlen (by omega)⟩
    rw [complete_packedLen, packStore_packedLen, ← length_packedBytes]
    exact toNat_ofNat_length hbytes (by omega)
  | packFault _ => cases hf
  | scan hn _ | scanFault hn _ => cases hn

/-! ## The padding (42_bitpack.md R145 (b)) -/

@[simp] theorem Entry.toBits_zeros (d : Nat) : ({ len := d, bits := 0 } : Entry).toBits = List.replicate d false := by
  simp [Entry.toBits, List.map_const']

theorem bitsOfCodes_replicate_of_zeros {t : Memory Entry} {z d : Nat} (hz : tableAt t z = { len := d, bits := 0 })
    (n : Nat) : bitsOfCodes t (List.replicate n z) = List.replicate (n * d) false := by
  induction n with
  | zero => rw [Nat.zero_mul]; rfl
  | succ n ih =>
    rw [List.replicate_succ, bitsOfCodes_cons, ih, hz, Entry.toBits_zeros, ← List.replicate_add, Nat.succ_mul, Nat.add_comm]

/-- The bits of an entry of a state with the invariant lie below its length. -/
theorem Inv.bits_tableAt_lt {s : State} (h : Inv s) (c : Nat) : (tableAt s.table c).bits < 2 ^ (tableAt s.table c).len := by
  unfold tableAt
  cases hg : s.table.get? c with
  | none => exact Nat.one_pos
  | some e =>
    obtain ⟨-, -, -, hbits⟩ := h.tableRange _ (Memory.mem_of_get? hg)
    exact hbits

/-- Zeros that begin with no entry are left over. -/
theorem spells_zeros_residue {t : Memory Entry} (ht : Memory.wf t) {q : Nat}
    (h : ∀ c d, d ≠ 0 → d ≤ q → ¬ HasEntry t c (List.replicate d false)) :
    Spells t (List.replicate q false) [] (List.replicate q false) := by
  refine .residue fun u hne hu => List.eq_nil_iff_forall_not_mem.2 fun c hc => ?_
  have hzeros : u = List.replicate u.length false :=
    List.eq_replicate_iff.2 ⟨rfl, fun b hb => List.eq_of_mem_replicate (hu.subset hb)⟩
  have hle : u.length ≤ q := by simpa using hu.length_le
  refine h c u.length (mt List.length_eq_zero_iff.1 hne) hle ?_
  rw [← hzeros]
  exact (mem_codesSpelled ht u c).1 hc

/-- An all-zero entry of `d` bits cuts zeros into copies of its code; what is left over is shorter than it. -/
theorem spells_zeros {t : Memory Entry} (ht : Memory.wf t) (hp : PrefixFree t) {z d : Nat} (hd : d ≠ 0)
    (hz : tableAt t z = { len := d, bits := 0 }) (p : Nat) :
    Spells t (List.replicate p false) (List.replicate (p / d) z) (List.replicate (p % d) false) := by
  have hzlen : (tableAt t z).len ≠ 0 := by rwa [hz]
  have hrest : Spells t (List.replicate (p % d) false) [] (List.replicate (p % d) false) := by
    refine spells_zeros_residue ht fun c q hq hqd hc => ?_
    obtain ⟨hclen, hcbits⟩ := hc
    have hlt : q < d := Nat.lt_of_le_of_lt hqd (Nat.mod_lt _ (Nat.pos_of_ne_zero hd))
    have hcz : c ≠ z := by
      rintro rfl
      rw [hz, Entry.toBits_zeros] at hcbits
      have := congrArg List.length hcbits
      simp only [List.length_replicate] at this
      omega
    refine hp c z hcz hclen hzlen ?_
    rw [hcbits, hz, Entry.toBits_zeros]
    exact List.prefix_replicate_iff.2 ⟨by simp; omega, by simp⟩
  have hcut := Spells.codes ht hp (ks := List.replicate (p / d) z)
    (fun k hk => by rwa [List.eq_of_mem_replicate hk]) hrest
  rwa [List.append_nil, bitsOfCodes_replicate_of_zeros hz, ← List.replicate_add, Nat.div_add_mod'] at hcut

/-- `UNPK` after `PACK` under a prefix-free table: the codes, then what the table makes of the padding. -/
theorem exec_unpk_after_pack {s t : State} {ks more : List Nat} {rest : List Bool} (hinv : Inv s) (hs : Idle s)
    (hcode : s.code.Begins s.codeLen ks) (hp : PrefixFree s.table) (h : exec .pack s = .next t)
    (hf : t.status.fault = false)
    (hpad : Spells s.table (List.replicate (8 * t.packedLen.toNat - t.bitLen.toNat) false) more rest)
    (hfit : ks.length + more.length ≤ s.cfg.codeCap) :
    ∃ u, exec .unpk t = .next u ∧ Completed 6 u ∧ u.code.Holds (ks ++ more) ∧
      u.codeLen.toNat = ks.length + more.length ∧ (u.status.resid = true ↔ rest ≠ []) := by
  obtain ⟨ht, hcfg, htable, hk, hpacked, hbitLen⟩ := exec_pack_not_faulted hinv hs hcode h hf
  obtain ⟨-, -, -, -, hcap, -⟩ := hinv.params
  rw [hpacked.1, hbitLen, length_packedBytes] at hpad
  have hcut : Spells t.table ((streamBits (packedBytes (bitsOfCodes s.table ks))).take (8 * t.packedLen.toNat))
      (ks ++ more) rest := by
    rw [hpacked.1, ← length_streamBits, List.take_length, streamBits_packedBytes, htable]
    exact Spells.codes hinv.tableForm hp hk hpad
  rw [← List.length_append, ← hcfg] at hfit
  obtain ⟨u, hu, hdone, hholds, hlen, -, hresid⟩ := exec_of_spells ht hpacked (hcfg ▸ hcap) .unpk hcut hfit
  exact ⟨u, hu, hdone, hholds, hlen.trans List.length_append, hresid⟩

/-! ## The statements -/

/-- Settles O41: the loop comes through the codes before the bad one, which raises. -/
theorem packFaultsAtTheFirstBadCode : Obligations.PackFaultsAtTheFirstBadCode := by
  intro s ks i k hs hcode hi hk hfit
  rw [← length_bitsOfCodes] at hfit
  refine ⟨fun habsent => ?_, fun hpresent hfull => ?_⟩
  · exact exec_pack_of_error_at hs hcode hi hk hfit (packCode_of_absent i _ habsent)
  · rw [List.take_add_one, hi, List.map_append, List.sum_append, ← length_bitsOfCodes] at hfull
    exact exec_pack_of_error_at hs hcode hi hk hfit (packCode_of_packedFull i hpresent (by simpa using hfull))

/-- Settles O43: `UNPK` scans the whole stream. -/
theorem unpkCutsTheWholeStream : Obligations.UnpkCutsTheWholeStream := by
  intro s bytes codes rest hs hsrc hcap hcut hfit
  refine exec_of_spells hs hsrc hcap .unpk ?_ hfit
  rwa [hsrc.1, ← length_streamBits, List.take_length]

/-- Settles O44: in range the scan of the first `BITLEN` bits, above it the range check's fault. -/
theorem unpklCutsTheFirstBitlenBits : Obligations.UnpklCutsTheFirstBitlenBits :=
  ⟨fun _ _ _ _ hs hsrc hcap hrange hcut hfit => exec_of_spells hs hsrc hcap (.unpkl hrange) hcut hfit,
    fun _ hs hrange => ⟨_, exec_of_ends hs (.bitlenRange hrange), faultedWith_raise rfl, rfl⟩⟩

/-- Settles O45: both commands scan the same bits, and only `LASTOP` tells them apart. -/
theorem unpklOnAFullBufferIsUnpk : Obligations.UnpklOnAFullBufferIsUnpk := by
  intro s t hs hfull h
  have hrange : Scans (accept 7 s) .unpkl (8 * s.packedLen.toNat) := hfull ▸ .unpkl (Nat.le_of_eq hfull)
  cases ends_of_exec hs (by decide) h with
  | scan hn hr =>
    cases hn with
    | unpk => exact exec_of_ends hs (.scan hrange hr)
  | scanFault hn he =>
    cases hn with
    | unpk => exact exec_of_ends hs (.scanFault hrange he)

/-- Settles O46: the scan comes through the bits before the completing one, which raises. -/
theorem scanFaultsAtTheCompletingBit : Obligations.ScanFaultsAtTheCompletingBit := by
  refine ⟨fun m u hm => ⟨mem_codesSpelled hm u, nodup_codesSpelled hm u, two_le_length_codesSpelled_iff hm u⟩,
    fun s bytes codes rest n b hs hsrc hb hcut hfit => ?_⟩
  have hn := lt_of_getElem?_streamBits hsrc hb
  have raises {e : Raise} (he : scanBit s.cfg s.table n b { cand := rest, out := codes } = .error e) :
      (∃ t, exec .unpk s = .next t ∧ FaultedWith 6 e.cause e.info t) ∧
      (n < s.bitLen.toNat → s.bitLen.toNat ≤ 8 * s.packedLen.toNat →
        ∃ t, exec .unpkl s = .next t ∧ FaultedWith 7 e.cause e.info t) :=
    ⟨exec_of_scan_error_at hs hsrc hb hcut hfit he .unpk hn,
      fun hlt hrange => exec_of_scan_error_at hs hsrc hb hcut hfit he (.unpkl hrange) hlt⟩
  exact ⟨fun hshared => raises (scanBit_of_shared n hshared), fun c hc hfull => raises (scanBit_of_codeFull n hc hfull)⟩

/-- Settles O47: the first `BITLEN` bits are the bits of the codes, and nothing is left over. -/
theorem unpklUndoesPack : Obligations.UnpklUndoesPack := by
  intro s t ks hinv hs hcode hp h hf
  obtain ⟨ht, hcfg, htable, hk, hpacked, hbitLen⟩ := exec_pack_not_faulted hinv hs hcode h hf
  obtain ⟨-, -, -, -, hcap, -⟩ := hinv.params
  have hrange : t.bitLen.toNat ≤ 8 * t.packedLen.toNat := by
    rw [hpacked.1, hbitLen, length_packedBytes, bytesFor]; omega
  have hcut : Spells t.table ((streamBits (packedBytes (bitsOfCodes s.table ks))).take t.bitLen.toNat) ks [] := by
    rw [streamBits_packedBytes, hbitLen, List.take_left, htable]
    simpa using Spells.codes hinv.tableForm hp hk (spells_zeros_residue (q := 0) hinv.tableForm (by omega))
  obtain ⟨u, hu, hdone, hholds, hlen, -, hresid⟩ := exec_of_spells ht hpacked (hcfg ▸ hcap) (.unpkl hrange) hcut
    (by rw [hcfg, ← hcode.1]; exact hinv.codeLen)
  exact ⟨u, hu, hdone, hholds, hlen, by simpa using hresid⟩

/-- Settles O48: the padding is zeros, which only an all-zero entry can cut. -/
theorem unpkReadsThePadding : Obligations.UnpkReadsThePadding := by
  rintro s t ks p hinv hs hcode hp h hf rfl
  refine ⟨fun z d hd hz hfit => ?_, fun hnone => ?_⟩
  · obtain ⟨u, hu, hdone, hholds, hlen, hresid⟩ := exec_unpk_after_pack hinv hs hcode hp h hf
      (spells_zeros hinv.tableForm hp hd hz _) (by rwa [List.length_replicate])
    rw [List.length_replicate] at hlen
    exact ⟨u, hu, hdone, hholds, hlen, by rw [hresid, Ne, List.replicate_eq_nil_iff]⟩
  · have hpad := spells_zeros_residue hinv.tableForm fun c d hd hle hc => hnone c d hd hle <|
      Entry.toBits_inj (hinv.bits_tableAt_lt c) (Nat.two_pow_pos d) (hc.2.trans (Entry.toBits_zeros d).symm)
    obtain ⟨u, hu, hdone, hholds, hlen, hresid⟩ := exec_unpk_after_pack hinv hs hcode hp h hf hpad
      (by rw [List.length_nil, Nat.add_zero, ← hcode.1]; exact hinv.codeLen)
    rw [List.append_nil] at hholds
    exact ⟨u, hu, hdone, hholds, hlen, by rw [hresid, Ne, List.replicate_eq_nil_iff]⟩

end Sys2Proof.Machine
end

section
/-! PROOFS of the statements about the system (43_system.md): `CLR` leaves the reset values (R160); a host write in range stores
one element of a buffer (R162, 20_memory.md R64). -/

namespace Sys2Proof.Machine

@[simp] theorem tableCount_nil : tableCount [] = 0 := rfl

@[simp] theorem freqAt_nil (c : Nat) : freqAt [] c = 0 := rfl

theorem sameOutside_clear (s : State) : SameOutside s (clear s) := ⟨clear_cfg s, clear_script s, clear_hostSaw s⟩

/-- A buffer is read off a state by `view` and replaced in `s` by `update`; a write that sets an element of it changes nothing
else. -/
theorem hostEvent_write_stores_one_element {α : Type} {s : State} {sp : Space} {i v : Nat} {view : State → Memory α}
    {update : Memory α → State} {x : α} (hb : s.status.busy = false) (hsp : sp ≠ .csr) (hview : ∀ m, view (update m) = m)
    (hw : dataWrite sp i v s = update ((view s).set i x)) :
    ∃ t, hostEvent (.write sp i v) s = .next t ∧ t = update (view t) ∧
      (view t).get? i = some x ∧ ∀ j, j ≠ i → (view t).get? j = (view s).get? j := by
  refine ⟨update ((view s).set i x), ?_, ?_, ?_, fun j hj => ?_⟩
  · rw [hostEvent_write hb fun h => hsp h.1, hw]
  · rw [hview]
  · rw [hview, Memory.get?_set_same]
  · rw [hview, Memory.get?_set_other _ _ hj]

/-- Settles O9: `CLR` answers the cleared state, every item of which is at its reset value. -/
theorem clrReturnsAllStateToReset : Obligations.ClrReturnsAllStateToReset := by
  intro s hb
  refine ⟨clear s, exec_clr_of_notBusy hb, ?_⟩
  simp [sameOutside_clear]

/-- Settles O57, buffer by buffer. -/
theorem bufferWritesStoreOneElement : Obligations.BufferWritesStoreOneElement := by
  refine fun s i v hb => ⟨fun hi => ?_, fun hi => ?_, fun hi => ?_⟩
  · exact hostEvent_write_stores_one_element (view := State.text) (update := fun m => { s with text := m }) hb nofun
      (fun _ => rfl) (if_pos hi)
  · exact hostEvent_write_stores_one_element (view := State.code) (update := fun m => { s with code := m }) hb nofun
      (fun _ => rfl) (if_pos hi)
  · exact hostEvent_write_stores_one_element (view := State.packed) (update := fun m => { s with packed := m }) hb nofun
      (fun _ => rfl) (if_pos hi)

end Sys2Proof.Machine
end

section
/-! PROOFS of the statements about exceptions (60_exceptions.md): the one fault on record and the ways out of the faulted state
(R174, R175); what fault entry leaves (R173); larger parameters (R172). -/

namespace Sys2Proof.Machine

/-! ## The faulted state (60_exceptions.md R174, R175) -/

section
variable {s t : State}

theorem present_of_busy (w : Word) (hb : s.status.busy = true) : present w s = .refused .accessWhileBusy := by
  rcases decode_cases w with ⟨i, -, hd⟩ | ⟨-, he⟩
  · rw [present_of_decode s hd, exec_of_busy hb]
  · rw [present_of_decode_error s he, illegalCommand, command_of_busy hb]

/-- While faulted a word but the `CLR` word, command or not, is ignored. -/
theorem present_of_faulted {w : Word} (hb : s.status.busy = false) (hf : s.status.fault = true) (hw : w ≠ encode .clr) :
    present w s = .next s := by
  rcases decode_cases w with ⟨i, rfl, hd⟩ | ⟨-, he⟩
  · rw [present_of_decode s hd, exec_of_faulted hb hf fun hi => hw (congrArg encode hi)]
  · rw [present_of_decode_error s he, illegalCommand, command_of_faulted hb hf]

/-- What a word written to `csr[CMD]` can lead to while faulted: the `CLR` word clears, any other changes nothing. -/
theorem present_next_cases_of_faulted {w : Word} (hf : s.status.fault = true) (h : present w s = .next t) :
    (w = encode .clr ∧ t = clear s) ∨ (w ≠ encode .clr ∧ t = s) := by
  cases hb : s.status.busy with
  | true => rw [present_of_busy w hb] at h; cases h
  | false =>
    by_cases hw : w = encode .clr
    · subst hw
      rw [present_of_decode s (decode_encode .clr), exec_clr_of_notBusy hb] at h
      cases h
      exact .inl ⟨rfl, rfl⟩
    · rw [present_of_faulted hb hf hw] at h
      cases h
      exact .inr ⟨hw, rfl⟩

@[simp] theorem dataWrite_finfo (sp : Space) (i v : Nat) (s : State) : (dataWrite sp i v s).finfo = s.finfo := by
  rcases dataWrite_cases sp i v s with he | ⟨-, he⟩ | ⟨-, -, he⟩ | ⟨-, -, he⟩ | ⟨-, -, he⟩ | ⟨-, -, he⟩ <;> rw [he]
  rcases csrWrite_cases i (BitVec.ofNat 32 v) s with hc | ⟨-, -, hc⟩ | ⟨-, -, hc⟩ | ⟨-, -, hc⟩ | ⟨-, hc⟩ <;> rw [hc]

/-- A read, wherever it is answered, keeps `STATUS` and `FINFO`. -/
theorem hostEvent_read_keeps_faultRecord {sp : Space} {i : Nat} (h : hostEvent (.read sp i) s = .next t) :
    t.status = s.status ∧ t.finfo = s.finfo := by
  simp only [hostEvent] at h
  split at h
  · cases h
  · cases h
    obtain ⟨v, d, he⟩ := hostRead_cases sp i s
    rw [he]
    exact ⟨rfl, rfl⟩

/-- A write that is no command issue, wherever it is answered, keeps `STATUS` and `FINFO`. -/
theorem hostEvent_write_keeps_faultRecord {sp : Space} {i v : Nat} (hcmd : ¬(sp = .csr ∧ i = 0))
    (h : hostEvent (.write sp i v) s = .next t) : t.status = s.status ∧ t.finfo = s.finfo := by
  simp only [hostEvent, if_neg hcmd] at h
  split at h
  · cases h
  · cases h
    exact ⟨dataWrite_status sp i v s, dataWrite_finfo sp i v s⟩

end

/-- Settles O7. -/
theorem faultedCoreIgnoresAllButClr : Obligations.FaultedCoreIgnoresAllButClr := by
  refine fun s hb hf => ⟨fun w hw => ?_, fun sp i => ?_, fun sp i v hcmd => ?_⟩
  · rw [hostEvent_write_cmd, present_of_faulted hb hf hw]
  · have h := hostEvent_read sp i hb
    exact ⟨_, h, hostEvent_read_keeps_faultRecord h⟩
  · have h := hostEvent_write (v := v) hb hcmd
    exact ⟨_, h, hostEvent_write_keeps_faultRecord hcmd h⟩

/-- Settles O8, by the kinds of access: reset and the `CLR` word clear, every other access keeps the record of the fault. -/
theorem onlyClrAndResetLeaveTheFaultedState : Obligations.OnlyClrAndResetLeaveTheFaultedState := by
  intro s t e hf h
  cases e with
  | reset => cases h; exact ⟨fun _ => rfl, fun hn => absurd (.inl rfl) hn⟩
  | read sp i => exact ⟨by simp, fun _ => hostEvent_read_keeps_faultRecord h⟩
  | write sp i v =>
    by_cases hcmd : sp = .csr ∧ i = 0
    · obtain ⟨rfl, rfl⟩ := hcmd
      rcases present_next_cases_of_faulted hf h with ⟨hw, rfl⟩ | ⟨hw, rfl⟩
      · exact ⟨fun _ => rfl, fun hn => absurd (.inr ⟨v, rfl, hw⟩) hn⟩
      · exact ⟨by simp [hw], fun _ => ⟨rfl, rfl⟩⟩
    · refine ⟨?_, fun _ => hostEvent_write_keeps_faultRecord hcmd h⟩
      rintro (he | ⟨v', he, -⟩) <;> cases he
      exact absurd ⟨rfl, rfl⟩ hcmd

/-! ## Fault entry (60_exceptions.md R173) -/

/-- A command that faults raises a cause in a state with `STATUS` as accepted and the destination lost; TABLE, the
destination of `HGEN`, R173 leaves unspecified. -/
theorem Ends.fault_cases {s t : State} {i : Instr} (h : Ends s i t) (hs : s.status.fault = false)
    (ht : t.status.fault = true) :
    ∃ e u, t = raise e u ∧ e.cause ≠ .none ∧ u.status = s.status ∧
      (((i = .lzwe ∨ i = .unpk ∨ i = .unpkl) ∧ u.codeLen = 0 ∧ u.code = []) ∨
        (i = .lzwd ∧ u.textLen = 0 ∧ u.text = []) ∨
        (i = .pack ∧ u.packedLen = 0 ∧ u.bitLen = 0 ∧ u.packed = []) ∨ i = .hgen) := by
  cases h with
  | lzweFault he => exact ⟨_, _, rfl, cause_of_lzweRun he, rfl, .inl ⟨.inl rfl, rfl, rfl⟩⟩
  | lzwdFault he => exact ⟨_, _, rfl, cause_of_lzwdRun he, rfl, .inr (.inl ⟨rfl, rfl, rfl⟩)⟩
  | hgenFault he => exact ⟨_, _, rfl, by simp [cause_of_genTable he], rfl, .inr (.inr (.inr rfl))⟩
  | packFault he => exact ⟨_, _, rfl, cause_of_packRun he, rfl, .inr (.inr (.inl ⟨rfl, rfl, rfl, rfl⟩))⟩
  | scanFault hn he => exact ⟨_, _, rfl, cause_of_scanRun he, rfl, .inl ⟨.inr hn.unpk_or_unpkl, rfl, rfl⟩⟩
  | bitlenRange _ => exact ⟨_, _, rfl, nofun, rfl, .inl ⟨.inr (.inr rfl), rfl, rfl⟩⟩
  | lzwe | lzwd | hbld | hgen | pack | scan => exact absurd ht (by simp [hs])

/-- Settles O17: `CLR` does not fault, and the faulted state of any other command is a `raise`, which writes no destination. -/
theorem faultEntryOfEveryCommand : Obligations.FaultEntryOfEveryCommand := by
  intro s t i hs h ht
  have hclr : i ≠ .clr := by
    rintro rfl
    rw [exec_clr_of_notBusy hs.1] at h
    cases h
    cases ht
  obtain ⟨e, u, rfl, hcause, hstatus, hdest⟩ := (ends_of_exec hs hclr h).fault_cases hs.2 ht
  refine ⟨hcause, rfl, rfl, by simp [hstatus], by simp [hstatus], by simp [hstatus], hclr, ?_⟩
  rcases hdest with ⟨rfl | rfl | rfl, hlen, hmem⟩ | ⟨rfl, hlen, hmem⟩ | ⟨rfl, hlen, hbit, hmem⟩ | rfl <;> simp [*]

/-! ## Larger parameters (60_exceptions.md R172) -/

/-- What every turn of `LZWE` keeps: its codes fit CODE, and the dictionary is at most full. -/
def LzweRegs.Within (p : Params) (r : LzweRegs) : Prop := r.out.length ≤ p.codeCap ∧ r.next ≤ 2 ^ p.codeW

section
variable {p q : Params}

theorem lzweByte_within {i : Nat} {c : Byte} {r r' : LzweRegs} (hr : r.Within p) (h : lzweByte p i c r = .ok r') :
    r'.Within p := by
  obtain ⟨ho, hn⟩ := hr
  rcases lzweByte_ok_cases h with ⟨-, rfl⟩ | ⟨-, ho', hn', rfl⟩
  · exact ⟨ho, hn⟩
  · have hemit := length_lzweEmit_le r
    constructor <;> simp only <;> omega

theorem lzweByte_ok_of_le (hw : p.codeW ≤ q.codeW) (hc : p.codeCap ≤ q.codeCap) {i : Nat} {c : Byte} {r r' : LzweRegs}
    (hr : r.Within p) (h : lzweByte p i c r = .ok r') : lzweByte q i c r = .ok r' ∧ r'.Within p := by
  refine ⟨?_, lzweByte_within hr h⟩
  obtain ⟨ho, hn⟩ := hr
  rcases lzweByte_ok_cases h with ⟨hk, rfl⟩ | ⟨hk, ho', hn', rfl⟩
  · exact if_pos hk
  · have hpow : 2 ^ p.codeW ≤ 2 ^ q.codeW := Nat.pow_le_pow_right (by decide) hw
    have hcode : r.out.length ≠ q.codeCap := by omega
    have hdict : r.next ≠ 2 ^ q.codeW := by omega
    simp [lzweByte, hk, hcode, hdict]

theorem lzweFlush_ok_of_le (hc : p.codeCap ≤ q.codeCap) {n : Nat} {r r' : LzweRegs} (hr : r.Within p)
    (h : lzweFlush p n r = .ok r') : lzweFlush q n r = .ok r' := by
  obtain ⟨ho, -⟩ := hr
  rcases lzweFlush_ok_cases h with ⟨hnil, rfl⟩ | ⟨hne, ho', rfl⟩
  · exact if_pos hnil
  · exact (if_neg hne).trans (if_neg (by omega))

/-- A run of `LZWE` that completes does so under larger parameters. -/
theorem lzweRun_ok_of_le (h256 : 256 ≤ 2 ^ p.codeW) (hw : p.codeW ≤ q.codeW) (hc : p.codeCap ≤ q.codeCap) {bs : List Byte}
    {r : LzweRegs} (h : lzweRun p bs = .ok r) : lzweRun q bs = .ok r := by
  obtain ⟨r', hloop, hflush⟩ := lzweRun_ok_cases h
  obtain ⟨hloop', hr'⟩ := forEach_congr_ok (LzweRegs.Within p) (fun _ _ _ _ => lzweByte_ok_of_le hw hc)
    ⟨Nat.zero_le _, h256⟩ hloop
  simp only [lzweRun, hloop', lzweFlush_ok_of_le hc hr' hflush]

theorem lzwdCode_ok_of_le (hw : p.codeW ≤ q.codeW) (ht : p.textCap ≤ q.textCap) {i k : Nat} {r r' : LzwdRegs}
    (hr : r.Within p) (h : lzwdCode p i k r = .ok r') : lzwdCode q i k r = .ok r' ∧ r'.Within p := by
  refine ⟨?_, lzwdCode_within hr h⟩
  obtain ⟨-, -, hn⟩ := hr
  obtain ⟨hfit, hn', rfl⟩ := lzwdCode_ok_cases h
  have hpow : 2 ^ p.codeW ≤ 2 ^ q.codeW := Nat.pow_le_pow_right (by decide) hw
  exact (if_neg (by omega)).trans (if_neg (by omega))

/-- A run of `LZWD` that completes does so under larger parameters. -/
theorem lzwdRun_ok_of_le (hp : p.WF) (hw : p.codeW ≤ q.codeW) (ht : p.textCap ≤ q.textCap) {w : List Byte} {ks : List Nat}
    {r : LzwdRegs} (h : lzwdRun p w ks = .ok r) : lzwdRun q w ks = .ok r := by
  have h256 := Params.two_pow_codeW_ge hp
  obtain ⟨-, h1, -⟩ := hp
  rcases lzwdRun_ok_cases h with ⟨rfl, rfl⟩ | ⟨k0, ks, rfl, h0, hloop⟩
  · rfl
  · have hseed : (lzwdSeed k0).Within p := ⟨h1, Nat.le_refl _, h256⟩
    rw [lzwdRun_cons_of_le h0]
    exact (forEach_congr_ok (LzwdRegs.Within p) (fun _ _ _ _ => lzwdCode_ok_of_le hw ht) hseed hloop).1

/-- A table that `HGEN` makes is made under a larger `MAXLEN`. -/
theorem genTable_ok_of_le (hm : p.maxLen ≤ q.maxLen) {nodes : List Node} {count root : Nat} {m : Memory Entry}
    (h : genTable p nodes count root = .ok m) : genTable q nodes count root = .ok m := by
  rcases genTable_cases p nodes count root with ⟨h0, g⟩ | ⟨-, -, g⟩ | ⟨w, c, h0, hn, g⟩ | ⟨w, l, r, h0, hn, g⟩ <;> rw [g] at h
  · simpa [genTable, h0] using h
  · cases h
  · simpa [genTable, h0, hn] using h
  · simpa [genTable, h0, hn] using walk_ok_of_le hm h

/-- A run of `PACK` that completes does so under a larger `PACKED_CAP`. -/
theorem packRun_ok_of_le (hc : p.packedCap ≤ q.packedCap) {t : Memory Entry} {ks : List Nat} {bits : List Bool}
    (h : packRun p t ks = .ok bits) : packRun q t ks = .ok bits := by
  obtain ⟨hk, rfl, hlen⟩ := packLoop_ok_inv h
  have hfit := hlen (Nat.zero_le _)
  exact packLoop_ok 0 hk (by simp only [List.length_append] at hfit; omega)

theorem scanBit_ok_of_le (hc : p.codeCap ≤ q.codeCap) {t : Memory Entry} {i : Nat} {b : Bool} {r r' : ScanRegs}
    (hr : r.Within p t) (h : scanBit p t i b r = .ok r') : scanBit q t i b r = .ok r' ∧ r'.Within p t := by
  refine ⟨?_, scanBit_within hr h⟩
  obtain ⟨ho, -⟩ := hr
  rcases scanBit_ok_cases h with ⟨hm, rfl⟩ | ⟨c, hm, ho', rfl⟩
  · simp only [scanBit, hm]
  · simp only [scanBit, hm]
    exact if_neg (by omega)

/-- A scan that completes does so under a larger `CODE_CAP`. -/
theorem scanRun_ok_of_le (hc : p.codeCap ≤ q.codeCap) {t : Memory Entry} {bits : List Bool} {r : ScanRegs}
    (h : scanRun p t bits = .ok r) : scanRun q t bits = .ok r := by
  have hstart : ScanRegs.Within p t { cand := [], out := [] } := ⟨Nat.zero_le _, nofun⟩
  exact (forEach_congr_ok (ScanRegs.Within p t) (fun _ _ _ _ => scanBit_ok_of_le hc) hstart h).1

end

/-- `p` is `q` with no parameter raised. -/
structure Params.AtMost (p q : Params) : Prop where
  codeW : p.codeW ≤ q.codeW
  textCap : p.textCap ≤ q.textCap
  codeCap : p.codeCap ≤ q.codeCap
  packedCap : p.packedCap ≤ q.packedCap
  maxLen : p.maxLen ≤ q.maxLen

/-- A command that completes on defined codes ends under larger parameters in the same state but for these. -/
theorem Ends.withParams {s t : State} {i : Instr} {p : Params} (h : Ends s i t) (hf : t.status.fault = false)
    (hwf : s.cfg.WF) (hcode : ∃ ks, s.code.Begins s.codeLen ks) (hle : Params.AtMost s.cfg p) :
    Ends { s with cfg := p } i { t with cfg := p } := by
  have hsrc : State.codeSource { s with cfg := p } = s.codeSource := codeSource_congr hcode ⟨rfl, rfl⟩
  cases h with
  | lzwe hr => exact .lzwe (lzweRun_ok_of_le (Params.two_pow_codeW_ge hwf) hle.codeW hle.codeCap hr)
  | lzwd hr => exact .lzwd (lzwdRun_ok_of_le hwf hle.codeW hle.textCap (hsrc ▸ hr))
  | hbld => rw [← hsrc]; exact .hbld
  | hgen hm => exact .hgen (genTable_ok_of_le hle.maxLen hm)
  | pack hb => exact .pack (packRun_ok_of_le hle.packedCap (hsrc ▸ hb))
  | scan hn hr => exact .scan (hn.congr rfl rfl) (scanRun_ok_of_le hle.codeCap hr)
  | lzweFault | lzwdFault | hgenFault | packFault | scanFault | bitlenRange => cases hf

/-- Settles O21: the command completes under the larger parameters too, and a completed end is the command's answer. -/
theorem raisingAParameterKeepsTheResult : Obligations.RaisingAParameterKeepsTheResult := by
  intro s t i p hs hwf hcode hw ht hc hpk hm hi h hf
  exact exec_of_ends (s := { s with cfg := p }) hs
    ((ends_of_exec hs hi h).withParams hf hwf hcode ⟨hw, ht, hc, hpk, hm⟩)

end Sys2Proof.Machine
end

section
/-! PROOFS of the statements about reset and hazards (70_reset_and_hazards.md): the reset input and what runs from reset (R190,
R191); accesses while busy (R194); every command ends (R198); the full round trip (R200). -/

namespace Sys2Proof.Machine

/-! ## Every command ends (70_reset_and_hazards.md R198) -/

section
variable {s t : State} {i : Instr}

/-- `HGEN` does not stop on a tree: its root is there, and so is every node its walk visits. -/
theorem TreeForm.genTable_ne_error_none (h : TreeForm s) (p : Params) :
    genTable p s.nodes s.nodeCount s.root ≠ .error none := by
  rcases genTable_cases p s.nodes s.nodeCount s.root with
    ⟨-, g⟩ | ⟨hcount, hnone, -⟩ | ⟨w, c, -, -, g⟩ | ⟨w, l, r, -, hroot, g⟩
  · rw [g]; nofun
  · have hlen := h.count
    have hlast := h.root
    have := List.getElem?_eq_none_iff.1 hnone
    omega
  · rw [g]; nofun
  · have hlt := (List.getElem?_eq_some_iff.1 hroot).1
    rw [g]
    exact walk_ne_error_none h.children (h.count ▸ hlt) hlt

theorem Scans.exists_ends {n : Nat} (hn : Scans s i n) : ∃ t, Ends s i t := by
  cases hr : scanRun s.cfg s.table ((streamBits s.packedSource).take n) with
  | ok r => exact ⟨_, .scan hn hr⟩
  | error e => exact ⟨_, .scanFault hn hr⟩

/-- On a tree, a command other than `CLR` has an end: its run comes through or raises. -/
theorem TreeForm.exists_ends (h : TreeForm s) (hi : i ≠ .clr) : ∃ t, Ends s i t := by
  cases i with
  | clr => exact absurd rfl hi
  | lzwe =>
    cases hr : lzweRun s.cfg s.textSource with
    | ok r => exact ⟨_, .lzwe hr⟩
    | error e => exact ⟨_, .lzweFault hr⟩
  | lzwd =>
    cases hr : lzwdRun s.cfg s.wD s.codeSource with
    | ok r => exact ⟨_, .lzwd hr⟩
    | error e => exact ⟨_, .lzwdFault hr⟩
  | hbld => exact ⟨_, .hbld⟩
  | hgen =>
    match hr : genTable s.cfg s.nodes s.nodeCount s.root with
    | .ok m => exact ⟨_, .hgen hr⟩
    | .error (some e) => exact ⟨_, .hgenFault hr⟩
    | .error none => exact absurd hr (h.genTable_ne_error_none s.cfg)
  | pack =>
    cases hr : packRun s.cfg s.table s.codeSource with
    | ok bits => exact ⟨_, .pack hr⟩
    | error e => exact ⟨_, .packFault hr⟩
  | unpk => exact Scans.exists_ends .unpk
  | unpkl =>
    rcases Nat.lt_or_ge (8 * s.packedLen.toNat) s.bitLen.toNat with hout | hin
    · exact ⟨_, .bitlenRange hout⟩
    · exact Scans.exists_ends (.unpkl hin)

/-- Every end keeps `LASTOP` as acceptance set it, and is a completion or a fault, not both (10_state.md R29). -/
theorem Ends.lastop_done_iff (h : Ends s i t) (hs : s.status.fault = false) :
    t.status.lastop = s.status.lastop ∧ (t.status.done = true ↔ t.status.fault = false) := by
  cases h with
  | lzwe _ | lzwd _ | hbld | hgen _ | pack _ | scan _ _ => exact ⟨rfl, fun _ => hs, fun _ => rfl⟩
  | lzweFault _ | lzwdFault _ | hgenFault _ | packFault _ | scanFault _ _ | bitlenRange _ => exact ⟨rfl, nofun, nofun⟩

/-- A command issued to a core that is not busy, its TREE a tree, answers a next state. -/
theorem exists_exec_next (hb : s.status.busy = false) (ht : TreeForm s) (i : Instr) : ∃ t, exec i s = .next t := by
  by_cases hi : i = .clr
  · subst hi; exact ⟨_, exec_clr_of_notBusy hb⟩
  · cases hf : s.status.fault with
    | true => exact ⟨_, exec_of_faulted hb hf hi⟩
    | false =>
      have htree : TreeForm (accept (opcode i) s) := ht.of_sameTree rfl ⟨rfl, rfl, rfl⟩
      obtain ⟨t, he⟩ := htree.exists_ends hi
      exact ⟨t, exec_of_ends ⟨hb, hf⟩ he⟩

end

/-! ## The dictionary stage, its two commands apart (70_reset_and_hazards.md R200) -/

section
variable {s t : State} {bs : List Byte}

/-- An `LZWE` that does not fault leaves CODE holding the codes of the text, and they fit the dictionary. -/
theorem exec_lzwe_not_faulted (hs : Idle s) (hp : s.cfg.WF) (hsrc : s.text.Begins s.textLen bs)
    (h : exec .lzwe s = .next t) (hf : t.status.fault = false) :
    t.code.Begins t.codeLen (Reference.lzwEncode bs) ∧
      256 + ((Reference.lzwEncode bs).length - 1) ≤ 2 ^ s.cfg.codeW := by
  obtain ⟨hw, -, -, -, hc32, -⟩ := hp
  obtain ⟨r, hr, -⟩ := lzweRun_of_exec hs h hf
  rw [textSource_of_begins hsrc] at hr
  obtain ⟨hcap, hdict⟩ := lzweRun_ok_inv (Nat.le_of_succ_le hw) hr
  obtain ⟨t', h', -, hcode, hlen, -⟩ := lzweWritesTheCodesOfTheText s bs hs hsrc hc32 hcap hdict
  obtain rfl : t' = t := Host.Outcome.next.inj (h'.symm.trans h)
  exact ⟨hcode.begins hlen, hdict⟩

/-- `LZWD` on the codes of a text that fits, wherever they come from, writes the text. -/
theorem exec_lzwd_of_lzwEncode (hs : Idle s) (hp : s.cfg.WF) (hsrc : s.code.Begins s.codeLen (Reference.lzwEncode bs))
    (hlen : bs.length ≤ s.cfg.textCap) (hdict : 256 + ((Reference.lzwEncode bs).length - 1) ≤ 2 ^ s.cfg.codeW) :
    ∃ t, exec .lzwd s = .next t ∧ Completed 2 t ∧ t.text.Holds bs ∧ t.textLen.toNat = bs.length ∧
      t.status.desync = false := by
  obtain ⟨-, ht1, ht32, -⟩ := hp
  have hbound : ∀ j k : Nat, (Reference.lzwEncode bs)[j]? = some k → k < 256 + j := encodeFrom_lt bs [] [] (absurd rfl)
  have hfirst (k : Nat) (hk : (Reference.lzwEncode bs).head? = some k) : k ≤ 255 :=
    Nat.le_of_lt_succ (hbound 0 k (by rwa [← List.head?_eq_getElem?]))
  obtain ⟨t, h, hdone, htext, htextLen, -, hdesync⟩ := lzwdWritesTheTextOfTheCodes s _ hs hsrc ht32 ht1 hfirst
    (by rwa [lzwDecode_lzwEncode]) hdict
  rw [lzwDecode_lzwEncode] at htext htextLen
  refine ⟨t, h, hdone, htext, htextLen, Bool.eq_false_iff.2 fun hd => ?_⟩
  obtain ⟨j, k, -, hk, hlt⟩ := hdesync.1 hd
  have := hbound j k hk
  omega

end

/-! ## The statements -/

/-- Settles O16: the command answers, and its answer is a cleared core, the faulted core as it was, or an end. -/
theorem everyCommandEnds : Obligations.EveryCommandEnds := by
  intro s i hinv
  obtain ⟨t, h⟩ := exists_exec_next hinv.notBusy hinv.tree i
  refine ⟨t, h, (hinv.exec h).notBusy, fun hf hi => ?_⟩
  exact (ends_of_exec ⟨hinv.notBusy, hf⟩ hi h).lastop_done_iff hf

/-- Settles O49: `HBLD` and `HGEN` keep the codes and make a prefix-free table, under which `UNPKL` undoes `PACK`; `LZWD` then
undoes `LZWE`. -/
theorem compressThenDecompresslReturnsTheText : Obligations.CompressThenDecompresslReturnsTheText := by
  intro s s1 s2 s3 s4 bs hinv hs hsrc h1 h2 h3 h4 hf4
  have hs3 := idle_of_exec_not_faulted (by decide) h4 hf4
  have hs2 := idle_of_exec_not_faulted (by decide) h3 hs3.2
  have hs1 := idle_of_exec_not_faulted (by decide) h2 hs2.2
  have hinv3 : Inv s3 := ((hinv.exec h1).exec h2).exec h3
  obtain ⟨hcode1, hdict⟩ := exec_lzwe_not_faulted hs hinv.params hsrc h1 hs1.2
  obtain ⟨hprefix, -⟩ := builtTablesArePrefixFree s1 s2 s3 _ hs1 hcode1 h2 h3 hs3.2
  have hcode3 : s3.code.Begins s3.codeLen (Reference.lzwEncode bs) := by
    obtain ⟨hc2, hl2⟩ := (ends_of_exec hs1 (by decide) h2).sameCode nofun (by decide)
    obtain ⟨hc3, hl3⟩ := (ends_of_exec hs2 (by decide) h3).sameCode nofun (by decide)
    rw [hc3, hl3, accept_code, accept_codeLen, hc2, hl2]
    exact hcode1
  obtain ⟨s5, h5, ⟨hb5, -, hf5, -⟩, hcode5, hlen5, hresid⟩ := unpklUndoesPack s3 s4 _ hinv3 hs3 hcode3 hprefix h4 hf4
  have hcfg5 : s5.cfg = s.cfg := by
    rw [exec_cfg h5, exec_cfg h4, exec_cfg h3, exec_cfg h2, exec_cfg h1]
  have hfit : bs.length ≤ s5.cfg.textCap := by
    rw [hcfg5, ← hsrc.1]
    exact hinv.textLen
  obtain ⟨s6, h6, hdone, htext, htextLen, hdesync⟩ := exec_lzwd_of_lzwEncode ⟨hb5, hf5⟩ (hcfg5 ▸ hinv.params)
    (hcode5.begins hlen5) hfit (hcfg5 ▸ hdict)
  have hkept : s6.status.resid = s5.status.resid := (ends_of_exec ⟨hb5, hf5⟩ (by decide) h6).resid nofun nofun
  exact ⟨s5, s6, h5, h6, hdone, htext, htextLen, hdesync, hkept.trans hresid⟩

/-- Settles O10: the reset input is `clear`, whatever the state is. -/
theorem resetInputWorksAtAnyTime : Obligations.ResetInputWorksAtAnyTime := fun _ => rfl

/-- Settles O12: every source is empty, so each run ends as it starts, whatever the parameters are. -/
theorem everyCommandRunsFromReset : Obligations.EveryCommandRunsFromReset := by
  intro p
  have hs : Idle (State.resetWith p) := ⟨rfl, rfl⟩
  have hrange : Scans (accept 7 (State.resetWith p)) .unpkl 0 := .unpkl (Nat.le_refl 0)
  refine ⟨hs, Status.word_reset, rfl, rfl, rfl, ⟨_, exec_clr_of_notBusy hs.1, rfl⟩, ?_, ?_, ?_, ?_, ?_, ?_, ?_⟩
  · exact ⟨_, exec_of_ends hs (.lzwe (r := lzweStart) rfl), completed_complete rfl rfl, rfl, rfl⟩
  · exact ⟨_, exec_of_ends hs (.lzwd rfl), completed_complete rfl rfl, rfl, rfl⟩
  · exact ⟨_, exec_of_ends hs .hbld, completed_complete rfl rfl, rfl, rfl⟩
  · exact ⟨_, exec_of_ends hs (.hgen (m := []) rfl), completed_complete rfl rfl, rfl⟩
  · exact ⟨_, exec_of_ends hs (.pack (bits := []) rfl), completed_complete rfl rfl, rfl, rfl⟩
  · exact ⟨_, exec_of_ends hs (.scan (r := ⟨[], []⟩) .unpk rfl), completed_complete rfl rfl, rfl, rfl⟩
  · exact ⟨_, exec_of_ends hs (.scan (r := ⟨[], []⟩) hrange rfl), completed_complete rfl rfl, rfl, rfl⟩

/-- Settles O59: a word written to `csr[CMD]` is refused by the command's own check, any other access by the access. -/
theorem accessWhileBusyIsRefused : Obligations.AccessWhileBusyIsRefused := by
  refine fun s hb => ⟨fun sp i v => ?_, fun sp i hne => if_pos ⟨hb, hne⟩, if_neg fun h => h.2 ⟨rfl, rfl⟩⟩
  by_cases hcmd : sp = .csr ∧ i = 0
  · exact (if_pos hcmd).trans (present_of_busy _ hb)
  · exact (if_neg hcmd).trans (if_pos hb)

end Sys2Proof.Machine
end
